-- ==== Sys2Proof/Config.lean ====
section
/-! DEFINITION. The structural parameters of the block (spec/00_scope.md rule R8), which the hardware fixes once, and its
one OPEN parameter, `LAT`: none of them is a field of the machine state (spec/10_state.md rule R37). The constants of the
three paths (thresholds, split constant, sentinels, rounding positions) stand beside the definitions that use them, in
`Sys2Proof/Machine/`. The spec leaves no result open (spec/93_implementation_defined.md, last paragraph of section 1), so
no result is a free value. -/

namespace Sys2Proof.Config

/-- `FLEN`, operand and result width (rule R8). -/
abbrev flen : Nat := 64

/-- `EXPW`, width of the exponent field (rule R8). -/
abbrev expWidth : Nat := 11

/-- `FRACW`, width of the mantissa field (rule R8). -/
abbrev fracWidth : Nat := 52

/-- `PW`, width of the wide product (rule R8). -/
abbrev productWidth : Nat := 128

/-- `SELW`, width of the path selection (rule R8, decision D8). -/
abbrev selWidth : Nat := 2

/-- Width of a command word: the selection and three operands (spec/30_encoding.md rule R60). -/
abbrev commandWidth : Nat := 194

/-- Number of commands in flight (rule R8, decision D5). -/
abbrev commandsInFlight : Nat := 1

/-- `LAT`, the time from acceptance to result (rule R8; spec/70_reset_and_hazards.md rule R259): OPEN, so it has no body
and nothing can be proved of its value but that it is finite. It is counted in the steps that pass before COMPUTE (0: the
very next step computes), and depends on the path and the operands of the command (decision D7); its first argument, the
number of commands accepted before, leaves two runs of one command free to take different times (assumption log entry
3). -/
opaque lat : Nat → BitVec selWidth → BitVec flen → BitVec flen → BitVec flen → Nat

end Sys2Proof.Config
end

