-- ==== Sys2Proof/Word.lean ====
section
/-! DEFINITION. The fixed-width words of the spec (spec/00_scope.md rule R10). Arithmetic on them wraps modulo
2^width, shifts fill with zeros (rule R11): that is what `BitVec` does. The `s32` exponents of rule R10 are `Int`
(assumption log entry 6): the rule says that no `s32` value ever leaves its range. The widths are the
parameters of `Sys2Proof.Config`, written as numerals. -/

namespace Sys2Proof

/-- `u64`: a binary64 pattern, a mantissa word, half of a wide product. -/
abbrev Word := BitVec 64

/-- `u32`: a half-word of the split multiply. -/
abbrev U32 := BitVec 32

/-- `u128`: the wide product and the aligned sum. -/
abbrev U128 := BitVec 128

/-- `u129`: the sum with its carry (spec/41_fma_integer_path.md rule R128). -/
abbrev U129 := BitVec 129

/-- The path selection field `sel`. -/
abbrev Sel := BitVec 2

/-- A whole command word (spec/30_encoding.md rule R60). -/
abbrev CmdWord := BitVec 194

end Sys2Proof
end

