-- ==== Sys2Proof/Syntax.lean ====
section
/-! DEFINITION. The instructions: the three rows of spec/opcode_table.json, one constructor each, and the four raw
fields of a command word before decoding. -/

namespace Sys2Proof

/-- The instruction set (spec/30_encoding.md rule R62). Each operand is a 64-bit binary64 pattern taken as it stands
(rule R64); the result of every instruction is the one pattern of `x*y + z`. -/
inductive Instr where
  /-- `FMA.INT x, y, z`, `sel = 0b00` (spec/41_fma_integer_path.md rule R120). -/
  | fmaInt (x y z : Word)
  /-- `FMA.DD x, y, z`, `sel = 0b01` (spec/42_fma_double_double_path.md rule R150). -/
  | fmaDd (x y z : Word)
  /-- `FMA.BIT x, y, z`, `sel = 0b10` (spec/43_fma_bitpacked_path.md rule R190). -/
  | fmaBit (x y z : Word)
deriving DecidableEq, Repr

/-- The four fields of a command word (spec/30_encoding.md rule R60), the reserved selection among them. -/
structure Command where
  /-- Path selection, bits 193:192. -/
  sel : Sel
  /-- First multiplicand, bits 191:128. -/
  x : Word
  /-- Second multiplicand, bits 127:64. -/
  y : Word
  /-- Addend, bits 63:0. -/
  z : Word
deriving DecidableEq, Repr

end Sys2Proof
end

