-- ==== Sys2Proof/Machine/State.lean ====
section
/-! DEFINITION. The state: the block's seven latches (spec/10_state.md rule R22), and the outside world at its ports
(rule R25): what the host drives now, what it will drive next, and the responses it has taken; and how far the run has
come in time. Then the reasons a step can stop, and the state right after reset (rule R36). -/

namespace Sys2Proof.Machine

/-- The seven latches, which are the block's whole state (rule R22). A latch that has no meaning holds no value, "an
option type, not zero" (rule R23): `none`. This is the spec's own state, not a missing reset value (assumption log
entry 1). -/
structure Block where
  /-- `BUSY`: set from the acceptance of a command to the delivery of its response. -/
  busy : Bool
  /-- `SEL`: path selection of the command in flight. -/
  sel : Option Sel
  /-- `X`: operand `x` of the command in flight. -/
  x : Option Word
  /-- `Y`: operand `y` of the command in flight. -/
  y : Option Word
  /-- `Z`: operand `z` of the command in flight. -/
  z : Option Word
  /-- `R`: the result pattern. -/
  r : Option Word
  /-- `RVALID`: set when `R` holds the result of the command in flight. -/
  rvalid : Bool
deriving DecidableEq, Repr

/-- What stands at the block's input ports during one step (rule R25). -/
structure Inputs where
  /-- `rst`, the reset input. -/
  rst : Bool
  /-- `req_valid`: the host offers a command. -/
  reqValid : Bool
  /-- `req_cmd`, the offered command word. -/
  reqCmd : CmdWord
  /-- `rsp_ready`: the host takes the response. -/
  rspReady : Bool
deriving DecidableEq, Repr

/-- The host around the block: the model's own fields, none of them the block's (assumption log entry 2). -/
structure HostSide where
  /-- What the ports carry during the next step. -/
  now : Inputs
  /-- What the host drives in the steps after it, soonest first; after the last entry the inputs hold. -/
  later : List Inputs
  /-- The responses the host has received (rule R32), oldest first. -/
  received : List Word
deriving DecidableEq, Repr

/-- How far a run has come in time: the model's own bookkeeping. It holds no parameter: `LAT` itself is `Config.lat`
(spec/10_state.md rule R37, assumption log entry 3). -/
structure Progress where
  /-- How many commands have been accepted so far: the argument that makes each `LAT` a fresh one. -/
  accepted : Nat
  /-- How many steps have still to pass before COMPUTE of the command in flight; 0 when there is none. -/
  waiting : Nat
deriving DecidableEq, Repr

/-- The machine: the block, the host at its ports, and how far the run has come. -/
structure State where
  /-- The block. -/
  block : Block
  /-- The host. -/
  host : HostSide
  /-- The passing of time. -/
  progress : Progress
deriving DecidableEq, Repr

/-- Why the machine stops with a fault. The block itself raises nothing (spec/60_exceptions.md rule R220). -/
inductive Fault where
  /-- Raised by COMPUTE or DELIVER when a latch that rule R23 gives a meaning holds no value. Only states that break the
  latch invariant raise it, and no run from reset reaches one. Safe: nothing is proved from a value that is not there. -/
  | latchWithoutValue
deriving DecidableEq, Repr

/-- Why the machine refuses to go on. -/
inductive Refusal where
  /-- Raised by `exec` for an instruction that has no meaning yet. Safe: the run stops. -/
  | notModelled (mnemonic : String)
  /-- Raised when the block would accept, or is asked to compute, a command with the reserved selection `0b11`: "A model
  must treat a host that presents it as refused" (spec/30_encoding.md rule R66). Safe: the run stops. -/
  | reservedSelection
deriving DecidableEq, Repr

/-- The block with no command in flight: what reset (rule R250) and delivery (rule R32) leave. -/
def Block.idle : Block :=
  { busy := false, sel := none, x := none, y := none, z := none, r := none, rvalid := false }

/-- A host that drives nothing. -/
def Inputs.quiet : Inputs :=
  { rst := false, reqValid := false, reqCmd := 0, rspReady := false }

/-- Right after reset: `BUSY = 0`, `RVALID = 0`, the other latches without a value (rule R36); the host drives nothing
and has received nothing (assumption log entry 2); no command has been accepted and none is waited for (assumption log
entry 3). -/
def State.reset : State :=
  { block := Block.idle
    host := { now := Inputs.quiet, later := [], received := [] }
    progress := { accepted := 0, waiting := 0 } }

end Sys2Proof.Machine
end

