-- ==== Sys2Proof/Machine/Operands.lean ====
section
/-! DEFINITION. The one operand form of the block: a 64-bit pattern read as binary64. Fields and classes
(spec/30_encoding.md rules R55 to R58), the special patterns (spec/00_scope.md rule R13), and the exact value of a
finite pattern (spec/40_common_arithmetic.md rule R80). There are no immediates, registers or addressing modes (rule
R64). -/

namespace Sys2Proof.Machine

/-- `sign(b)`, bit 63 (rule R55). -/
def sign (b : Word) : Bool := b.getLsbD 63

/-- `expf(b)`, bits 62:52, the biased exponent (rule R55). -/
def expf (b : Word) : BitVec 11 := b.extractLsb' 52 11

/-- `frac(b)`, bits 51:0, the mantissa field (rule R55). -/
def frac (b : Word) : BitVec 52 := b.extractLsb' 0 52

/-- The pattern with the given fields, `{s, e, f}`. -/
def pattern (s : Bool) (e : BitVec 11) (f : BitVec 52) : Word := BitVec.ofBool s ++ e ++ f

/-- Class zero (rule R56). -/
def isZero (b : Word) : Bool := expf b == 0#11 && frac b == 0#52

/-- Class subnormal (rule R56). -/
def isSub (b : Word) : Bool := expf b == 0#11 && frac b != 0#52

/-- Class normal (rule R56). -/
def isNormal (b : Word) : Bool := decide (1 ≤ (expf b).toNat) && decide ((expf b).toNat ≤ 2046)

/-- Class infinity (rule R56). -/
def isInf (b : Word) : Bool := expf b == 0x7FF#11 && frac b == 0#52

/-- Class NaN (rule R56); quiet or signaling, any payload, either sign (rule R57). -/
def isNan (b : Word) : Bool := expf b == 0x7FF#11 && frac b != 0#52

/-- Neither infinity nor NaN (rule R56). -/
def isFinite (b : Word) : Bool := expf b != 0x7FF#11

/-- The canonical quiet NaN (rule R58, decision D1): the result pattern of every NaN result. -/
def qnan : Word := 0x7FF8000000000000#64

/-- `inf(s)` (rule R13). -/
def inf (s : Bool) : Word := pattern s 0x7FF#11 0#52

/-- `zero(s)` (rule R13). -/
def zero (s : Bool) : Word := pattern s 0#11 0#52

/-- `neg(b)`: the sign bit flipped (rule R71). -/
def flipSign (b : Word) : Word := b ^^^ 0x8000000000000000#64

/-- A finite pattern's magnitude as a whole number of units `2^(-1074)`: the integer part of rule R80's two formulas,
`frac(b)` and `(2^52 + frac(b)) × 2^(expf(b) - 1)`. -/
def magUnits (b : Word) : Nat :=
  if expf b = 0#11 then (frac b).toNat
  else (2 ^ 52 + (frac b).toNat) <<< ((expf b).toNat - 1)

/-- A finite pattern's value as a whole number of units `2^(-1074)`, with its sign. -/
def valUnits (b : Word) : Int := if sign b then -(magUnits b : Int) else (magUnits b : Int)

/-- `val(b)`, the exact rational of a finite pattern (rule R80). Nothing in the model reads it of an infinity or a NaN,
for which rule R80 does not define it. -/
def val (b : Word) : ℚ :=
  let s : ℚ := if sign b then -1 else 1
  if expf b = 0#11 then s * (frac b).toNat * (2 : ℚ) ^ (-1074 : ℤ)
  else s * (2 ^ 52 + (frac b).toNat) * (2 : ℚ) ^ ((expf b).toNat - 1075 : ℤ)

end Sys2Proof.Machine
end

