-- ==== Sys2Proof/Machine/IntWords.lean ====
section
/-! DEFINITION. The integer primitives the integer path and the bit-packed path share (spec/40_common_arithmetic.md
rules R100 to R106): leading-zero counts, the split multiply, right shifts with jam, 128-bit words as pairs. -/

namespace Sys2Proof.Machine

/-- `nz(v)` as a word of `k` bits: 1 when `v ≠ 0`, else 0 (rule R100). -/
def nz {w : Nat} (k : Nat) (v : BitVec w) : BitVec k := if v = 0#w then 0#k else 1#k

/-- `clz64(v)`: the number of zero bits above the highest set bit, 64 for zero (rule R100). -/
def clz64 (v : Word) : Nat := if v = 0#64 then 64 else 63 - v.toNat.log2

/-- The high 64 bits of a `(hi, lo)` pair. -/
def hiWord (v : U128) : Word := v.extractLsb' 64 64

/-- The low 64 bits of a `(hi, lo)` pair. -/
def loWord (v : U128) : Word := v.extractLsb' 0 64

/-- `{hi, lo}` (rule R9). -/
def pair (hi lo : Word) : U128 := hi ++ lo

/-- `clz128(v)`, from its two halves (rule R100). -/
def clz128 (v : U128) : Nat := if hiWord v ≠ 0#64 then clz64 (hiWord v) else 64 + clz64 (loWord v)

/-- The exact product of two half-words in 64 bits. -/
def mul32 (a b : U32) : Word := a.setWidth 64 * b.setWidth 64

/-- `mul64to128(a, b)`, the split multiply: four 32×32 products collected low to high (rule R101). -/
def mul64to128 (a b : Word) : U128 :=
  let a1 : U32 := a.extractLsb' 32 32
  let a0 : U32 := a.extractLsb' 0 32
  let b1 : U32 := b.extractLsb' 32 32
  let b0 : U32 := b.extractLsb' 0 32
  let p00 := mul32 a0 b0
  let p01 := mul32 a0 b1
  let p10 := mul32 a1 b0
  let p11 := mul32 a1 b1
  let mid := p01 + (p00.extractLsb' 32 32).setWidth 64
  let mid2 := p10 + (mid.extractLsb' 0 32).setWidth 64
  let lo : Word := mid2.extractLsb' 0 32 ++ p00.extractLsb' 0 32
  let hi : Word := p11 + (mid.extractLsb' 32 32).setWidth 64 + (mid2.extractLsb' 32 32).setWidth 64
  pair hi lo

/-- The bits below position `n` as a mask, `2^n - 1`. -/
def lowMask (w n : Nat) : BitVec w := (1#w <<< n) - 1#w

/-- `srj64(v, n)`, shift right jam of a 64-bit word (rule R102). -/
def srj64 (v : Word) (n : Nat) : Word :=
  if n = 0 then v
  else if n ≤ 63 then (v >>> n) ||| nz 64 (v &&& lowMask 64 n)
  else nz 64 v

/-- `srj128(v, n)`, shift right jam of a 128-bit word (rule R103). -/
def srj128 (v : U128) (n : Nat) : U128 :=
  if n = 0 then v
  else if n ≤ 127 then (v >>> n) ||| nz 128 (v &&& lowMask 128 n)
  else nz 128 v

/-- `shl128(v, n)`, `(v << n) mod 2^128` (rule R105). -/
def shl128 (v : U128) (n : Nat) : U128 := v <<< n

/-- `add128` with its carry kept: the 129-bit sum (rule R106). -/
def add128 (a b : U128) : U129 := a.setWidth 129 + b.setWidth 129

/-- `sub128(a, b)`, `(a - b) mod 2^128` (rule R106). -/
def sub128 (a b : U128) : U128 := a - b

/-- Two's-complement negation of a 128-bit word, `(~T + 1) mod 2^128` (rule R100). -/
def neg128 (t : U128) : U128 := ~~~t + 1#128

end Sys2Proof.Machine
end

