-- ==== Sys2Proof/WellFormed.lean ====
section
/-! DEFINITION. Well-formedness. The one check the spec has is on the selection field: `sel == 0b11` is reserved
(spec/30_encoding.md rule R66). "All 192 operand bits are free in every instruction: there is no operand value that is
illegal or reserved" (rule R63), so an instruction of `Instr` needs no check of its own. -/

namespace Sys2Proof

/-- A command is well-formed when its selection is not the reserved one (rule R66). -/
def Command.wf (c : Command) : Bool := c.sel != 0b11#2

/-- Every instruction is well-formed: no operand is illegal (rules R63 and R67). -/
def Instr.wf : Instr → Bool
  | .fmaInt _ _ _ => true
  | .fmaDd _ _ _ => true
  | .fmaBit _ _ _ => true

end Sys2Proof
end

