-- ==== Sys2Proof/Decode.lean ====
section
/-! DEFINITION. Decoding and encoding of the 194-bit command word (spec/30_encoding.md rules R60 to R69). Decoding is
total; it rejects the reserved selection by name, and a number that is no 194-bit word. -/

namespace Sys2Proof

/-- Why a word is no instruction. -/
inductive Rejection where
  /-- `sel == 0b11` (rule R66). -/
  | reservedSelection
  /-- The number does not fit in 194 bits, so it is no command word (rule R60). -/
  | tooWide
deriving DecidableEq, Repr

/-- The decoder's answer: an instruction or a named rejection. -/
inductive Decoded where
  | instr (i : Instr)
  | rejected (why : Rejection)
deriving DecidableEq, Repr

/-- The fields of a command word (rules R60 and R69). -/
def Command.ofWord (w : CmdWord) : Command :=
  { sel := w.extractLsb' 192 2
    x := w.extractLsb' 128 64
    y := w.extractLsb' 64 64
    z := w.extractLsb' 0 64 }

/-- The command word of four fields: `(sel << 192) | (x << 128) | (y << 64) | z` (rule R69). -/
def Command.toWord (c : Command) : CmdWord :=
  (c.sel.setWidth 194 <<< 192) ||| (c.x.setWidth 194 <<< 128) ||| (c.y.setWidth 194 <<< 64) ||| c.z.setWidth 194

/-- The opcode map (rule R62) over the fields of a command. -/
def Command.decode (c : Command) : Decoded :=
  if c.sel = 0b00#2 then .instr (.fmaInt c.x c.y c.z)
  else if c.sel = 0b01#2 then .instr (.fmaDd c.x c.y c.z)
  else if c.sel = 0b10#2 then .instr (.fmaBit c.x c.y c.z)
  else .rejected .reservedSelection

/-- Total decoding of a command word (rule R69). -/
def decode (w : CmdWord) : Decoded := (Command.ofWord w).decode

/-- Decoding of any number: one that needs more than 194 bits is no command word (rule R68: fixed length). -/
def decodeNat (w : Nat) : Decoded :=
  if w < 2 ^ 194 then decode (BitVec.ofNat 194 w) else .rejected .tooWide

/-- The command of an instruction (rule R62). -/
def Instr.toCommand : Instr → Command
  | .fmaInt x y z => ⟨0b00#2, x, y, z⟩
  | .fmaDd x y z => ⟨0b01#2, x, y, z⟩
  | .fmaBit x y z => ⟨0b10#2, x, y, z⟩

/-- The command word of an instruction (rules R62 and R69). -/
def encode (i : Instr) : CmdWord := i.toCommand.toWord

/-- What the decoder reads from an instruction of spec/opcode_table.json whose bits are `w`; the table's words are 194
bits, given in `nbits` (whole bytes), and every bit above `nbits` is 0. -/
def decodeTableWord (nbits w : Nat) : Option Instr :=
  match decodeNat (w % 2 ^ nbits) with
  | .instr i => some i
  | .rejected _ => none

end Sys2Proof
end

