-- ==== Sys2Proof/Machine/Ops.lean ====
section
/-! DEFINITION. The named operations over the latches and the ports: what ACCEPT, COMPUTE, DELIVER and reset write
(spec/10_state.md rules R30 to R32, spec/70_reset_and_hazards.md rule R250), the passing of `LAT`, and the passing of one
step at the host's side. There is no memory to operate on (spec/10_state.md rule R34) and no exception to take or to
return from (spec/60_exceptions.md rules R220 and R223), so no operation stands here for either. -/

namespace Sys2Proof.Machine

/-- What ACCEPT latches (rule R30): `SEL`, `X`, `Y`, `Z` from the command word and `BUSY <- 1`. `R` and `RVALID` are not
written. -/
def Block.latch (b : Block) (c : Command) : Block :=
  { b with busy := true, sel := some c.sel, x := some c.x, y := some c.y, z := some c.z }

/-- The command the latches hold, when the four of them have a value (rule R23). -/
def Block.command? (b : Block) : Option Command :=
  match b.sel, b.x, b.y, b.z with
  | some sel, some x, some y, some z => some ⟨sel, x, y, z⟩
  | _, _, _, _ => none

/-- ACCEPT's effect (rule R30), from which on the command's `LAT` runs (spec/70_reset_and_hazards.md rule R259). -/
def State.accept (c : Command) (s : State) : State :=
  { s with
    block := s.block.latch c
    progress :=
      { accepted := s.progress.accepted + 1
        waiting := Config.lat s.progress.accepted c.sel c.x c.y c.z } }

/-- A step of the command's `LAT` passes (rule R259); the block does nothing in it. -/
def State.wait (s : State) : State := { s with progress := { s.progress with waiting := s.progress.waiting - 1 } }

/-- COMPUTE's effect, the one write every instruction makes: `R <- r`, `RVALID <- 1` (rule R31). -/
def State.complete (r : Word) (s : State) : State :=
  { s with block := { s.block with r := some r, rvalid := true } }

/-- DELIVER's effect (rule R32): the host receives `R`, both handshake bits are cleared and the other latches lose their
meaning (rule R23). -/
def State.deliver (r : Word) (s : State) : State :=
  { s with block := Block.idle, host := { s.host with received := s.host.received ++ [r] } }

/-- Reset's effect (rule R250): `BUSY <- 0`, `RVALID <- 0`, and no latch has a meaning afterwards. A command in flight is
dropped without a response (rule R252), so none is waited for. DESIGN CHOICE: the count of accepted commands, the first
argument of `Config.lat`, goes on across a reset, so that the `LAT` of a command accepted afterwards is a fresh one
(assumption log entry 3). -/
def State.resetBlock (s : State) : State :=
  { s with block := Block.idle, progress := { s.progress with waiting := 0 } }

/-- What the ports carry in the step after this one: the next entry of the host's script. When the script is over the
inputs hold. -/
def State.advance (s : State) : State :=
  match s.host.later with
  | [] => s
  | i :: is => { s with host := { s.host with now := i, later := is } }

end Sys2Proof.Machine
end

