-- ==== Sys2Proof/Machine/BitPackedPath.lean ====
section
/-! DEFINITION. `FMA.BIT`, the bit-packed path (spec/43_fma_bitpacked_path.md): one definition per numbered step, then
the instruction's meaning. The operands are called `a`, `b`, `c` as in that file. -/

namespace Sys2Proof.Machine

/-- The fields of an operand (rule R191); after rule R193 the exponent may be zero or negative and bit 52 of the
fraction may be set. -/
structure BitFields where
  /-- Sign. -/
  s : Bool
  /-- Exponent. -/
  e : Int
  /-- Fraction. -/
  f : Word
deriving DecidableEq, Repr

/-- Field extraction by masks and shifts (rule R191). -/
def bitFields (v : Word) : BitFields :=
  ⟨v >>> 63 = 1#64, ((v >>> 52) &&& 0x7FF#64).toNat, v &&& 0x000FFFFFFFFFFFFF#64⟩

/-- `bit_infprod`: one multiplicand is infinite, `mag` is zero exactly when the other is a zero (rule R192). -/
def bitInfProd (sZ : Bool) (mag : Word) (C : BitFields) : Word :=
  if mag ≠ 0#64 then
    if C.e ≠ 0x7FF then inf sZ
    else if C.f ≠ 0#64 then qnan
    else if sZ = C.s then inf sZ
    else qnan
  else qnan

/-- The bitwise OR of an operand's exponent field and fraction field as integers (rule R192). -/
def BitFields.mag (v : BitFields) : Word := BitVec.ofInt 64 v.e ||| v.f

/-- `bit_special`: an operand has an all-ones exponent field (rule R192). -/
def bitSpecial (A B C : BitFields) (c : Word) : Word :=
  let sZ : Bool := A.s ^^ B.s
  if A.e = 0x7FF then
    if A.f ≠ 0#64 ∨ (B.e = 0x7FF ∧ B.f ≠ 0#64) then qnan else bitInfProd sZ B.mag C
  else if B.e = 0x7FF then
    if B.f ≠ 0#64 then qnan else bitInfProd sZ A.mag C
  else if C.f ≠ 0#64 then qnan
  else c

/-- `bit_zeroprod`: a multiplicand is a zero and no operand is infinite or NaN (rule R194). -/
def bitZeroProd (sZ : Bool) (C : BitFields) (c : Word) : Word :=
  if C.mag = 0#64 ∧ sZ ≠ C.s then zero false else c

/-- `bit_normsub(f)`: the leading 1 of a subnormal's fraction moves to bit 52 (rule R193). -/
def bitNormSub (f : Word) : Int × Word := (1 - (clz64 f - 11 : Nat), f <<< (clz64 f - 11))

/-- A finite nonzero operand with its subnormal fraction normalized (rule R193). -/
def BitFields.norm (v : BitFields) : BitFields :=
  if v.e = 0 then ⟨v.s, (bitNormSub v.f).1, (bitNormSub v.f).2⟩ else v

/-- The fraction with its hidden bit, `f | 2^52`. -/
def BitFields.sig53 (v : BitFields) : Word := v.f ||| 0x0010000000000000#64

/-- The product's exponent and its 128-bit word (rules R193 and R195). -/
def bitProductRaw (A B : BitFields) : Int × U128 :=
  (A.e + B.e - 0x3FE, mul64to128 (A.sig53 <<< 10) (B.sig53 <<< 10))

/-- Product normalization: bit 61 of the high word is set afterwards (rule R196). -/
def bitProductNorm (p : Int × U128) : Int × U128 :=
  if hiWord p.2 < 0x2000000000000000#64 then (p.1 - 1, p.2 <<< 1) else p

/-- The product (rules R193, R195 and R196). -/
def bitProduct (A B : BitFields) : Int × U128 := bitProductNorm (bitProductRaw A B)

/-- A significand word and its exponent on the way to `bit_roundpack` (rule R205). -/
structure BitSig where
  /-- Sign of the result. -/
  s : Bool
  /-- One less than the biased exponent the result would have. -/
  e : Int
  /-- Significand, bit 62 set. -/
  sig : Word
deriving DecidableEq, Repr

/-- `bit_normalize2(t, eZ)` for `t ≠ 0` (rule R204). -/
def bitNormalize2 (s : Bool) (t : U128) (eZ : Int) : BitSig :=
  let moved : Bool := hiWord t == 0#64
  let h : Word := if moved then loWord t else hiWord t
  let l : Word := if moved then 0#64 else loWord t
  let e : Int := if moved then eZ - 64 else eZ
  let sd : Int := (clz64 h : Int) - 1
  if sd < 0 then ⟨s, e - sd, ((h >>> 1) ||| (h &&& 1#64)) ||| nz 64 l⟩
  else
    let v : U128 := shl128 (pair h l) sd.toNat
    ⟨s, e - sd, hiWord v ||| nz 64 (loWord v)⟩

/-- The product and the addend brought to one weight `2^(eZ - 1148)` (rule R199). -/
structure BitAligned where
  /-- Common exponent. -/
  e : Int
  /-- The product's word. -/
  p : U128
  /-- The addend's word. -/
  c : U128
deriving DecidableEq, Repr

/-- Alignment by the sign of `d = eZ - eC` (rules R198 and R199). -/
def bitAlign (same : Bool) (eZ : Int) (p : U128) (eC : Int) (gC : Word) : BitAligned :=
  let d : Int := eZ - eC
  if d < 0 then
    if same ∨ d < -1 then ⟨eC, pair (srj64 (hiWord p) (-d).toNat) (loWord p), pair gC 0#64⟩
    else ⟨eC, srj128 p 1, pair gC 0#64⟩
  else if d > 0 then ⟨eZ, p, srj128 (pair gC 0#64) d.toNat⟩
  else ⟨eZ, p, pair gC 0#64⟩

/-- Same signs: the magnitudes add, then one conditional left shift (rule R200). -/
def bitAdd (sZ : Bool) (d : Int) (gC : Word) (a : BitAligned) : BitSig :=
  let t : U128 := a.p + a.c
  let sig : Word := if d ≤ 0 then (gC + hiWord a.p) ||| nz 64 (loWord a.p) else hiWord t ||| nz 64 (loWord t)
  if sig < 0x4000000000000000#64 then ⟨sZ, a.e - 1, sig <<< 1⟩ else ⟨sZ, a.e, sig⟩

/-- Opposite signs: larger minus smaller on 128 bits (rules R201 and R202); `none` is exact cancellation. -/
def bitSub (sZ sC : Bool) (d : Int) (gC : Word) (a : BitAligned) : Option BitSig :=
  if d < 0 then some (bitNormalize2 sC (sub128 a.c a.p) a.e)
  else if d = 0 then
    let h2 : Word := hiWord a.p - gC
    let t : U128 := pair h2 (loWord a.p)
    if t = 0#128 then none
    else if h2.getLsbD 63 then some (bitNormalize2 (!sZ) (neg128 t) a.e)
    else some (bitNormalize2 sZ t a.e)
  else some (bitNormalize2 sZ (sub128 a.p a.c) a.e)

/-- The packed word `(s << 63) + (e << 52) + sig`, fields added, not ORed (rule R206). -/
def bitPack (s : Bool) (e : Int) (sig : Word) : Word :=
  ((BitVec.ofBool s).setWidth 64 <<< 63) + (BitVec.ofInt 64 e <<< 52) + sig

/-- The fixed rounding increment, ten bits dropped, and the tie-breaking bit masked off at the half-way point (rule
R206). -/
def bitRound (sig : Word) : Word :=
  let rb : Word := sig &&& 0x3FF#64
  let k : Word := (sig + 0x200#64) >>> 10
  if rb = 0x200#64 then k &&& ~~~1#64 else k

/-- `bit_roundpack(s, e, sig)` (rule R206). -/
def bitRoundPack (s : Bool) (e : Int) (sig : Word) : Word :=
  if e < 0 then bitPack s 0 (bitRound (srj64 sig (-e).toNat))
  else if e > 0x7FD ∨ (e = 0x7FD ∧ sig.toNat + 0x200 ≥ 2 ^ 63) then inf s
  else
    let k : Word := bitRound sig
    bitPack s (if k = 0#64 then 0 else e) k

/-- The arithmetic on finite operands with nonzero multiplicands (rules R193 to R206); `none` is exact cancellation. -/
def bitSum (A B C : BitFields) : Option BitSig :=
  let sZ : Bool := A.s ^^ B.s
  let p := bitProduct A.norm B.norm
  if C.e = 0 ∧ C.f = 0#64 then some ⟨sZ, p.1 - 1, (hiWord p.2 <<< 1) ||| nz 64 (loWord p.2)⟩
  else
    let N := C.norm
    let gC : Word := N.sig53 <<< 9
    let d : Int := p.1 - N.e
    let al := bitAlign (sZ == C.s) p.1 p.2 N.e gC
    if sZ = C.s then some (bitAdd sZ d gC al) else bitSub sZ C.s d gC al

/-- `fma_direct(a, b, c)` (rule R190). -/
def fmaDirect (a b c : Word) : Word :=
  let A := bitFields a
  let B := bitFields b
  let C := bitFields c
  if A.e = 0x7FF ∨ B.e = 0x7FF ∨ C.e = 0x7FF then bitSpecial A B C c
  else if (A.e = 0 ∧ A.f = 0#64) ∨ (B.e = 0 ∧ B.f = 0#64) then bitZeroProd (A.s ^^ B.s) C c
  else
    match bitSum A B C with
    | none => zero false
    | some r => bitRoundPack r.s r.e r.sig

/-- The meaning of `FMA.BIT x, y, z`: `R` gets the bit-packed path's result and `RVALID` is set (rules R190 and
R31). -/
def execFmaBit (x y z : Word) (s : State) : Host.Outcome State Fault Refusal :=
  .next (s.complete (fmaDirect x y z))

end Sys2Proof.Machine
end

