-- ==== Sys2Proof/Machine/Rounding.lean ====
section
/-! DEFINITION. The one rounding of the block (spec/40_common_arithmetic.md rule R82): to nearest, ties to even, with
overflow to infinity and gradual underflow. `roundRNE` is the rule as the spec writes it, over exact rationals;
`roundScaled` is the same rule for a whole number of units of a power of two, which is what every value of the
double-double path is (assumption log entry 7). Both end in `finishRound`. -/

namespace Sys2Proof.Machine

/-- The integer `e` with `2^e ≤ a < 2^(e+1)`, for `a > 0` (rule R82). -/
def floorLog2 (a : ℚ) : Int :=
  let e : Int := (a.num.natAbs.log2 : Int) - (a.den.log2 : Int)
  if (2 : ℚ) ^ e ≤ a then e else e - 1

/-- The rounding decision of rule R82: `k` is the floor of the value in quanta, `half` how the remainder compares with
1/2; a tie goes to even. -/
def roundUp (k : Nat) (half : Ordering) : Nat :=
  if half = .gt ∨ (half = .eq ∧ k % 2 = 1) then k + 1 else k

/-- The last two lines of rule R82: a significand `k` with its leading bit at bit 52, in quanta `2^q`. -/
def packNormal (s : Bool) (k : Nat) (q : Int) : Word :=
  let be : Int := q + 52 + 1023
  if be ≥ 2047 then inf s else pattern s (BitVec.ofInt 11 be) (BitVec.ofNat 52 k)

/-- The lines of rule R82 from the rounded `k` on: zero, a carry into the next binade, subnormal, normal, overflow. -/
def packRounded (s : Bool) (k : Nat) (q : Int) : Word :=
  if k = 0 then zero s
  else if k = 2 ^ 53 then packNormal s (2 ^ 52) (q + 1)
  else if k < 2 ^ 52 then pattern s 0#11 (BitVec.ofNat 52 k)
  else packNormal s k q

/-- The lines of rule R82 from the comparison of the remainder with 1/2 on. -/
def finishRound (s : Bool) (k : Nat) (half : Ordering) (q : Int) : Word := packRounded s (roundUp k half) q

/-- The exponent of the quantum at a value in `[2^e, 2^(e+1))` (rule R82). -/
def quantumExp (e : Int) : Int := max e (-1022) - 52

/-- `RoundRNE(v)` for an exact rational `v ≠ 0` (rule R82). -/
def roundRNE (v : ℚ) : Word :=
  let s : Bool := decide (v < 0)
  let a : ℚ := |v|
  let q : Int := quantumExp (floorLog2 a)
  let t : ℚ := a / (2 : ℚ) ^ q
  let k : Nat := ⌊t⌋.toNat
  let r : ℚ := t - k
  finishRound s k (if r < 1 / 2 then .lt else if r = 1 / 2 then .eq else .gt) q

/-- `RoundRNE(n × 2^e)` for an integer `n ≠ 0` (rule R82), by shifts of `|n|`. -/
def roundScaled (n : Int) (e : Int) : Word :=
  let s : Bool := decide (n < 0)
  let a : Nat := n.natAbs
  let q : Int := quantumExp (e + (a.log2 : Int))
  if q ≤ e then finishRound s (a <<< (e - q).toNat) .lt q
  else
    let sh : Nat := (q - e).toNat
    finishRound s (a >>> sh) (compare (2 * (a % 2 ^ sh)) (2 ^ sh)) q

end Sys2Proof.Machine
end

