-- ==== Sys2Proof/Machine/DoubleDoublePath.lean ====
section
/-! DEFINITION. `FMA.DD`, the double-double path (spec/42_fma_double_double_path.md): the binary64 primitives, the
error-free transformations, the steps, then the instruction's meaning. Every intermediate is a binary64 pattern (rule
R151). -/

namespace Sys2Proof.Machine

/-- `fadd(a, b)`, binary64 addition rounded to nearest even (rule R152). -/
def fadd (a b : Word) : Word :=
  if isNan a || isNan b then qnan
  else if isInf a then (if isInf b && (sign a != sign b) then qnan else a)
  else if isInf b then b
  else if valUnits a + valUnits b = 0 then
    (if isZero a && isZero b then zero (sign a && sign b) else zero false)
  else roundScaled (valUnits a + valUnits b) (-1074)

/-- `fsub(a, b)` (rule R153). -/
def fsub (a b : Word) : Word :=
  if isNan a || isNan b then qnan else fadd a (flipSign b)

/-- `fmul(a, b)`, binary64 multiplication rounded to nearest even (rule R154). -/
def fmul (a b : Word) : Word :=
  if isNan a || isNan b then qnan
  else if isInf a || isInf b then
    (if isZero a || isZero b then qnan else inf (sign a ^^ sign b))
  else if valUnits a * valUnits b = 0 then zero (sign a ^^ sign b)
  else roundScaled (valUnits a * valUnits b) (-2148)

/-- `SPLITC`, the value `2^27 + 1` (rule R155, decision D21). -/
def splitConst : Word := 0x41A0000002000000#64

/-- `DBL_MIN`, the value `2^(-1022)` (rule R155, decision D23). -/
def dblMin : Word := 0x0010000000000000#64

/-- `T_LOW` (rule R155, decision D22). -/
def tLow : Int := -54

/-- `T_HIGH` (rule R155, decision D23). -/
def tHigh : Int := 106

/-- `dd_frexp(b)` for a finite nonzero `b`: significand in ±[0.5, 1) and exponent (rule R156). -/
def ddFrexp (b : Word) : Word × Int :=
  if expf b = 0#11 then
    let n : Nat := clz64 ((frac b).setWidth 64) - 11
    (pattern (sign b) 0x3FE#11 (frac b <<< n), (1 - n : Int) - 1022)
  else (pattern (sign b) 0x3FE#11 (frac b), (expf b).toNat - 1022)

/-- `dd_scale(b, k)`, scaling by `2^k` with at most one rounding (rule R157). -/
def ddScale (b : Word) (k : Int) : Word :=
  if isZero b || isInf b || isNan b then b else roundScaled (valUnits b) (k - 1074)

/-- `dd_split(a)`, the split at a fixed bit boundary (rule R158). -/
def ddSplit (a : Word) : Word × Word :=
  let p := fmul a splitConst
  let h := fsub a p
  let h := fadd h p
  (h, fsub a h)

/-- `dd_mul(a, b)`, the error-free product as a pair (rule R159). -/
def ddMul (a b : Word) : Word × Word :=
  let (ha, la) := ddSplit a
  let (hb, lb) := ddSplit b
  let p := fmul ha hb
  let q := fadd (fmul ha lb) (fmul la hb)
  let hi := fadd p q
  let lo := fadd (fadd (fsub p hi) q) (fmul la lb)
  (hi, lo)

/-- `dd_add(a, b)`, the error-free sum as a pair (rule R160). -/
def ddAdd (a b : Word) : Word × Word :=
  let hi := fadd a b
  let s := fsub hi a
  let lo := fadd (fsub a (fsub hi s)) (fsub b s)
  (hi, lo)

/-- One unit of the pattern away from zero when `lo` lies on `hi`'s side, toward zero otherwise (rules R169 and
R170). -/
def stepToward (hi lo : Word) : Word := if sign hi = sign lo then hi + 1#64 else hi - 1#64

/-- `dd_add_adjusted(a, b)`: the sum rounded to odd (rule R169). -/
def ddAddAdjusted (a b : Word) : Word :=
  let (hi, lo) := ddAdd a b
  if !isZero lo && !hi.getLsbD 0 then stepToward hi lo else hi

/-- `dd_round_scale(a, b, scale)`, the final fold and scaling (rule R170). -/
def ddRoundScale (a b : Word) (scale : Int) : Word :=
  let (hi, lo) := ddAdd a b
  let bitsLost : Int := 1 - (expf hi).toNat - scale
  let hi :=
    if bitsLost ≥ 1 ∧ isZero lo = false ∧
        ((bitsLost ≥ 2 ∧ hi.getLsbD 0 = false) ∨ (bitsLost = 1 ∧ hi.getLsbD 0 = true)) then stepToward hi lo
    else hi
  ddScale hi scale

/-- The treatment of `z`'s significand: rescaled by the spread, or clamped to `±DBL_MIN` (rule R165). -/
def ddRescaleZ (zs : Word) (spread : Int) : Word :=
  if spread ≤ tHigh then ddScale zs (-spread) else pattern (sign zs) (expf dblMin) (frac dblMin)

/-- The arithmetic on scaled significands: product, sum, cancellation, correction, scaling (rules R166 to R170). -/
def ddCombine (xs ys zs : Word) (scale : Int) : Word :=
  let (xyh, xyl) := ddMul xs ys
  let (rh, rl) := ddAdd xyh zs
  if isZero rh then (if isZero xyl then zero false else ddScale xyl scale)
  else ddRoundScale rh (ddAddAdjusted rl xyl) scale

/-- `fma_extended(x, y, z)` (rule R150); the four early-outs are those of rule R161. -/
def fmaExtended (x y z : Word) : Word :=
  if isZero x || isZero y then fadd (fmul x y) z
  else if isZero z then fmul x y
  else if !isFinite x || !isFinite y then fadd (fmul x y) z
  else if !isFinite z then (if isNan z then qnan else z)
  else
    let (xs, ex) := ddFrexp x
    let (ys, ey) := ddFrexp y
    let (zs, ez) := ddFrexp z
    let spread : Int := ex + ey - ez
    if spread < tLow then z
    else ddCombine xs ys (ddRescaleZ zs spread) (ex + ey)

/-- The meaning of `FMA.DD x, y, z`: `R` gets the double-double path's result and `RVALID` is set (rules R150 and
R31). -/
def execFmaDd (x y z : Word) (s : State) : Host.Outcome State Fault Refusal :=
  .next (s.complete (fmaExtended x y z))

end Sys2Proof.Machine
end

