-- ==== Sys2Proof/Machine/IntegerPath.lean ====
section
/-! DEFINITION. `FMA.INT`, the integer path (spec/41_fma_integer_path.md): one definition per numbered step, then the
instruction's meaning. -/

namespace Sys2Proof.Machine

/-- A normalized operand (rule R121). -/
structure NormOp where
  /-- Sign bit. -/
  sign : Bool
  /-- Unbiased exponent of the leading bit, or a sentinel. -/
  exp : Int
  /-- Mantissa, leading 1 at bit 63 when the class is `fin`. -/
  mant : Word
deriving DecidableEq, Repr

/-- The class a normalized operand's exponent names (rule R121). -/
inductive OpClass where
  | fin
  | zero
  | inf
  | nan
deriving DecidableEq, Repr

/-- `EXP_ZERO`, the sentinel exponent of a zero (rule R121, decision D16). -/
def expZero : Int := 0x40000000

/-- `EXP_INF`, the sentinel exponent of an infinity (rule R121, decision D16). -/
def expInf : Int := 0x40000001

/-- `EXP_NAN`, the sentinel exponent of a NaN (rule R121, decision D16). -/
def expNan : Int := 0x40000002

/-- `cls(op)`: the class by the sentinel (rule R121). -/
def NormOp.cls (op : NormOp) : OpClass :=
  if op.exp = expZero then .zero
  else if op.exp = expInf then .inf
  else if op.exp = expNan then .nan
  else .fin

/-- Step 1, `int_unpack(b)` (rule R121). -/
def intUnpack (b : Word) : NormOp :=
  if expf b = 0x7FF#11 ∧ frac b ≠ 0#52 then ⟨sign b, expNan, 0#64⟩
  else if expf b = 0x7FF#11 ∧ frac b = 0#52 then ⟨sign b, expInf, 0#64⟩
  else if expf b = 0#11 ∧ frac b = 0#52 then ⟨sign b, expZero, 0#64⟩
  else if expf b = 0#11 then
    let f : Word := (frac b).setWidth 64
    ⟨sign b, -1011 - clz64 f, f <<< clz64 f⟩
  else ⟨sign b, (expf b).toNat - 1023, 1#1 ++ frac b ++ 0#11⟩

/-- Step 2, the special-value rows over classes (rule R123); `none` when the arithmetic goes on. -/
def intSpecial (X Y Z : NormOp) (z : Word) : Option Word :=
  let sp : Bool := X.sign ^^ Y.sign
  let sz : Bool := Z.sign
  if X.cls = .nan ∨ Y.cls = .nan ∨ Z.cls = .nan then some qnan
  else if (X.cls = .inf ∧ Y.cls = .zero) ∨ (X.cls = .zero ∧ Y.cls = .inf) then some qnan
  else if X.cls = .inf ∨ Y.cls = .inf then
    if Z.cls = .inf ∧ sz ≠ sp then some qnan else some (inf sp)
  else if Z.cls = .inf then some z
  else if X.cls = .zero ∨ Y.cls = .zero then
    if Z.cls = .zero then some (zero (sp && sz)) else some z
  else none

/-- A magnitude in units `2^(exp - 127)` with its sign: the product, and the sum. -/
structure WideMag where
  /-- Magnitude word, leading 1 at bit 127 once normalized. -/
  mag : U128
  /-- Unbiased exponent of bit 127. -/
  exp : Int
  /-- Sign. -/
  sign : Bool
deriving DecidableEq, Repr

/-- Step 3, the exact product before normalization (rule R124). -/
def intProductRaw (X Y : NormOp) : WideMag :=
  ⟨mul64to128 X.mant Y.mant, X.exp + Y.exp + 1, X.sign ^^ Y.sign⟩

/-- Product normalization: one conditional left shift (rule R125). -/
def intProductNorm (p : WideMag) : WideMag :=
  if p.mag.getLsbD 127 then p else ⟨p.mag <<< 1, p.exp - 1, p.sign⟩

/-- `int_product(X3, Y3)` (rules R124 and R125). -/
def intProduct (X Y : NormOp) : WideMag := intProductNorm (intProductRaw X Y)

/-- The two magnitudes after alignment, at one weight `2^(exp - 127)` (rule R127). -/
structure Aligned where
  /-- The operand with the larger exponent. -/
  big : U128
  /-- The other operand, shifted right with jam. -/
  small : U128
  /-- The common exponent. -/
  exp : Int
  /-- Sign of `big`. -/
  sb : Bool
  /-- Sign of `small`. -/
  ss : Bool
deriving DecidableEq, Repr

/-- Step 4, `int_align(P, Ep, sp, Z3)` (rule R127). -/
def intAlign (p : WideMag) (Z : NormOp) : Aligned :=
  let zw : U128 := pair Z.mant 0#64
  let d : Int := p.exp - Z.exp
  if d ≥ 0 then ⟨p.mag, srj128 zw d.toNat, p.exp, p.sign, Z.sign⟩
  else ⟨zw, srj128 p.mag (-d).toNat, Z.exp, Z.sign, p.sign⟩

/-- Step 5, `int_addsub` (rule R128); `none` is exact cancellation. -/
def intAddSub (a : Aligned) : Option WideMag :=
  if a.sb = a.ss then
    let t9 : U129 := add128 a.big a.small
    if t9.getLsbD 128 then
      some ⟨t9.extractLsb' 1 128 ||| (t9.extractLsb' 0 1).setWidth 128, a.exp + 1, a.sb⟩
    else some ⟨t9.extractLsb' 0 128, a.exp, a.sb⟩
  else
    let d : U128 := sub128 a.big a.small
    let t : U128 := if a.big < a.small then neg128 d else d
    let s : Bool := if a.big < a.small then !a.sb else a.sb
    if t = 0#128 then none else some ⟨t, a.exp, s⟩

/-- Step 6, `int_renorm(T, E)` (rule R129). -/
def intRenorm (t : WideMag) : WideMag :=
  ⟨shl128 t.mag (clz128 t.mag), t.exp - clz128 t.mag, t.sign⟩

/-- Narrowing to the 64-bit mantissa word (rule R130). -/
def intNarrow (t : U128) : Word := hiWord t ||| nz 64 (loWord t)

/-- The single rounding at bit 11: the kept 53 bits, incremented when guard, round, sticky and the last kept bit say so
(rule R131). -/
def intRound (m64 : Word) : BitVec 54 :=
  let k : BitVec 53 := m64.extractLsb' 11 53
  let g : Bool := m64.getLsbD 10
  let rb : Bool := m64.getLsbD 9
  let st : Bool := m64.extractLsb' 0 9 != 0#9
  let inc : Bool := g && (rb || st || k.getLsbD 0)
  k.setWidth 54 + (BitVec.ofBool inc).setWidth 54

/-- Repacking: the kept significand is added to the exponent field less one (rule R133). -/
def intPack (s : Bool) (be : Int) (k : BitVec 54) : Word :=
  let r : Word := if be = 0 then k.setWidth 64 else ((BitVec.ofInt 64 (be - 1)) <<< 52) + k.setWidth 64
  BitVec.ofBool s ++ r.extractLsb' 0 63

/-- Steps 7 and 8, `int_roundpack(s, E, m64)` (rules R131 to R133). -/
def intRoundPack (s : Bool) (e : Int) (m64 : Word) : Word :=
  let be : Int := e + 1023
  if be ≥ 2047 then inf s
  else if be ≤ 0 then intPack s 0 (intRound (srj64 m64 (1 - be).toNat))
  else intPack s be (intRound m64)

/-- The sum of the product and the addend, normalized; a zero addend is bypassed (rules R126 to R129); `none` is exact
cancellation. -/
def intSum (X Y Z : NormOp) : Option WideMag :=
  let p := intProduct X Y
  if Z.cls = .zero then some p
  else (intAddSub (intAlign p Z)).map intRenorm

/-- `fma_integer(x, y, z)` (rule R120). -/
def fmaInteger (x y z : Word) : Word :=
  let X := intUnpack x
  let Y := intUnpack y
  let Z := intUnpack z
  match intSpecial X Y Z z with
  | some r => r
  | none =>
    match intSum X Y Z with
    | none => zero false
    | some t => intRoundPack t.sign t.exp (intNarrow t.mag)

/-- The meaning of `FMA.INT x, y, z`: `R` gets the integer path's result and `RVALID` is set (rules R120 and R31). -/
def execFmaInt (x y z : Word) (s : State) : Host.Outcome State Fault Refusal :=
  .next (s.complete (fmaInteger x y z))

end Sys2Proof.Machine
end

