-- ==== Sys2Proof/Machine/Dispatch.lean ====
section
/-! DEFINITION. One arm per instruction (spec/30_encoding.md rule R62). -/

namespace Sys2Proof.Machine

def exec (i : Instr) (s : State) : Host.Outcome State Fault Refusal :=
  match i with
  | .fmaInt x y z => Sys2Proof.Machine.execFmaInt x y z s
  | .fmaDd x y z => Sys2Proof.Machine.execFmaDd x y z s
  | .fmaBit x y z => Sys2Proof.Machine.execFmaBit x y z s

end Sys2Proof.Machine
end

