-- ==== Sys2Proof/Machine/Flags.lean ====
section
/-! DEFINITION. The block has no status flag, condition code or IEEE exception flag (spec/10_state.md rule R28): no
instruction computes one. Its only outputs are the three of rule R25, which are views of the latches, and "Nothing but
`req_ready`, `rsp_valid` and `rsp_result` leaves the block" (rule R26). -/

namespace Sys2Proof.Machine

/-- `req_ready`, equal to `~BUSY` (rule R25). -/
def Block.reqReady (b : Block) : Bool := !b.busy

/-- `rsp_valid`, equal to `RVALID` (rule R25). -/
def Block.rspValid (b : Block) : Bool := b.rvalid

/-- `rsp_result`: `R` while `rsp_valid == 1`, no value otherwise (rule R25). -/
def Block.rspResult (b : Block) : Option Word := if b.rspValid then b.r else none

end Sys2Proof.Machine
end

