-- ==== Sys2Proof/Machine/Protocol.lean ====
section
/-! DEFINITION. The command protocol: which of reset, ACCEPT, COMPUTE and DELIVER one step takes, from the latches and
from what stands at the ports (spec/10_state.md rules R30 to R32, spec/70_reset_and_hazards.md rules R250 to R256). The
three steps of a legal block exclude one another, so the order in which they are tried decides nothing there
(assumption log entry 4). -/

namespace Sys2Proof.Machine

/-- ACCEPT's side of a step, for an idle block (rules R30 and R66): nothing offered, nothing happens. A word with the
reserved selection is refused. -/
def requestSide (i : Inputs) (s : State) : Host.Outcome State Fault Refusal :=
  if i.reqValid then
    match decode i.reqCmd with
    | .instr _ => .next (s.accept (Command.ofWord i.reqCmd))
    | .rejected _ => .refused .reservedSelection
  else .next s

/-- COMPUTE's side of a step (rule R31): when `LAT` is over, the command the latches hold is decoded and run. -/
def computeSide (s : State) : Host.Outcome State Fault Refusal :=
  if s.progress.waiting = 0 then
    match s.block.command? with
    | some c =>
      match c.decode with
      | .instr ins => exec ins s
      | .rejected _ => .refused .reservedSelection
    | none => .fault .latchWithoutValue
  else .next s.wait

/-- DELIVER's side of a step (rules R32 and R256): a host that does not take the response leaves it standing. -/
def responseSide (i : Inputs) (s : State) : Host.Outcome State Fault Refusal :=
  if i.rspReady then
    match s.block.r with
    | some r => .next (s.deliver r)
    | none => .fault .latchWithoutValue
  else .next s

/-- What the block does in one step with the inputs `i`: reset before everything else (rule R250), then the one step the
handshake bits enable. -/
def react (i : Inputs) (s : State) : Host.Outcome State Fault Refusal :=
  if i.rst then .next s.resetBlock
  else if s.block.reqReady then requestSide i s
  else if s.block.rspValid then responseSide i s
  else computeSide s

/-- The state in which the latches hold the command word `w` and the next step is its COMPUTE. -/
def State.withCommand (s : State) (c : Command) : State :=
  { s with
    block := (Block.idle).latch c
    host := { s.host with now := { s.host.now with rst := false } }
    progress := { s.progress with waiting := 0 } }

end Sys2Proof.Machine
end

