-- ==== Sys2Proof/Machine/Step.lean ====
section
/-! DEFINITION. One step of the machine: the block reacts to what stands at its ports while the host moves on to its next
inputs. There is no program counter and no fetch (spec/10_state.md rule R27): the next instruction is the command the
latches `SEL`, `X`, `Y`, `Z` hold, which COMPUTE reads (rule R31). -/

namespace Sys2Proof.Machine

/-- One step. -/
def step (s : State) : Host.Outcome State Fault Refusal := react s.host.now s.advance

/-- `s` with the command of `nbits` bits `w` in the latches COMPUTE reads, accepted and not yet computed, so that the next
step runs it (assumption log entry 5). -/
def State.withFetchWord (s : State) (nbits w : Nat) : State :=
  s.withCommand (Command.ofWord (BitVec.ofNat 194 (w % 2 ^ nbits)))

end Sys2Proof.Machine
end

