-- ==== Sys2Proof/Machine/Contract.lean ====
section
/-! DEFINITION. The contract every instruction returns bit for bit (spec/40_common_arithmetic.md rules R84 to R88): the
special-value rows S1 to S7, then the exact value rounded once. Rule R92 lets a model take either the contract or the
paths' steps as the definition and the other as a theorem to prove: the meanings of this model run the paths' own steps,
and that each equals the contract is stated as an obligation. -/

namespace Sys2Proof.Machine

/-- Rows S1 to S7 of rule R85, in their precedence; `none` when no row applies. -/
def specialRow (x y z : Word) : Option Word :=
  let sp : Bool := sign x ^^ sign y
  let sz : Bool := sign z
  if isNan x || isNan y || isNan z then some qnan
  else if (isInf x && isZero y) || (isZero x && isInf y) then some qnan
  else if (isInf x || isInf y) && isInf z && (sz != sp) then some qnan
  else if isInf x || isInf y then some (inf sp)
  else if isInf z then some z
  else if (isZero x || isZero y) && isZero z then some (zero (sp && sz))
  else if isZero x || isZero y then some z
  else none

/-- The exact value `val(x) × val(y) + val(z)` (rule R86). -/
def exactValue (x y z : Word) : ℚ := val x * val y + val z

/-- The contract function `FMA(x, y, z)` (rule R86). -/
def fmaContract (x y z : Word) : Word :=
  match specialRow x y z with
  | some r => r
  | none => if exactValue x y z = 0 then zero false else roundRNE (exactValue x y z)

end Sys2Proof.Machine
end

