-- ==== Sys2Proof/Safety.lean ====
section
/-! DEFINITION. What counts as a legal block and as a correct run, in the terms the statements use: the latch invariant
(spec/10_state.md rules R23 and R24), the result `R` must hold (rule R31), and what a run accepts, owes and hands over
(spec/20_memory.md rule R46). -/

namespace Sys2Proof.Machine

/-- The latch invariant: `RVALID == 1` implies `BUSY == 1` (rule R24); `SEL`, `X`, `Y`, `Z` hold a value exactly while
`BUSY == 1`, `R` exactly while `RVALID == 1` (rule R23); no reserved selection is ever latched (rule R30). -/
def Block.wf (b : Block) : Bool :=
  (!b.rvalid || b.busy)
    && (b.sel.isSome == b.busy) && (b.x.isSome == b.busy) && (b.y.isSome == b.busy) && (b.z.isSome == b.busy)
    && (b.r.isSome == b.rvalid) && (b.sel != some 0b11#2)

/-- `F_SEL(x, y, z)`: the path function the selection names (rule R31); the reserved selection names none. -/
def pathFunction (sel : Sel) (x y z : Word) : Option Word :=
  if sel = 0b00#2 then some (fmaInteger x y z)
  else if sel = 0b01#2 then some (fmaExtended x y z)
  else if sel = 0b10#2 then some (fmaDirect x y z)
  else none

/-- The response a command is due. -/
def commandResponse (c : Command) : Option Word := pathFunction c.sel c.x c.y c.z

/-- "1 when `R` holds the result of the command in flight" (rule R22, `RVALID`). -/
def Block.holdsResult (b : Block) : Bool :=
  !b.rvalid || (b.r.isSome && b.r == b.command?.bind commandResponse)

/-- A legal state: the block's latches are. -/
def State.wf (s : State) : Bool := s.block.wf

/-- A correct state: legal, and a valid result is the result of the command in flight. -/
def State.correct (s : State) : Bool := s.block.wf && s.block.holdsResult

/-- The host never asserts reset, now or later in its script. -/
def State.resetFree (s : State) : Bool := (s.host.now :: s.host.later).all fun i => !i.rst

/-- The command the step from `s` accepts, if it accepts one (rule R30). -/
def State.accepts (s : State) : Option Command :=
  if !s.host.now.rst && !s.block.busy && s.host.now.reqValid && (Command.ofWord s.host.now.reqCmd).wf then
    some (Command.ofWord s.host.now.reqCmd)
  else none

/-- The response still owed for the command in flight: one while `BUSY == 1`, none otherwise. -/
def State.owed (s : State) : List (Option Word) :=
  if s.block.busy then [s.block.command?.bind commandResponse] else []

/-- `n` steps. -/
def runSteps (n : Nat) (s : State) : Host.Outcome State Fault Refusal := Sys2Proof.core.run n s

/-- The commands accepted in the first `n` steps from `s`, in order; it ends where the run stops. -/
def acceptedIn : Nat → State → List Command
  | 0, _ => []
  | n + 1, s =>
    match step s with
    | .next t => s.accepts.toList ++ acceptedIn n t
    | .fault _ => []
    | .refused _ => []

end Sys2Proof.Machine
end

