-- ==== Sys2Proof/Certificates/Slice0/Obligations.lean ====
section
/-! DEFINITION. The statements for the provers. Each docstring names the rule of spec/ the statement formalises, or says
that it is derived and from what. -/

open Sys2Proof Sys2Proof.Machine

/-! ### Encoding -/

/-- Rule R69: decoding is total on command words, encoding is its inverse, both ways. -/
def Obligations.DecodeAndEncodeAreInverse : Prop :=
  (∀ w : CmdWord,
    (w.extractLsb' 192 2 = 0b00#2 →
      decode w = .instr (.fmaInt (w.extractLsb' 128 64) (w.extractLsb' 64 64) (w.extractLsb' 0 64))) ∧
    (w.extractLsb' 192 2 = 0b01#2 →
      decode w = .instr (.fmaDd (w.extractLsb' 128 64) (w.extractLsb' 64 64) (w.extractLsb' 0 64))) ∧
    (w.extractLsb' 192 2 = 0b10#2 →
      decode w = .instr (.fmaBit (w.extractLsb' 128 64) (w.extractLsb' 64 64) (w.extractLsb' 0 64))) ∧
    (w.extractLsb' 192 2 = 0b11#2 → decode w = .rejected .reservedSelection)) ∧
  (∀ c : Command, (c.toWord).toNat =
    c.sel.toNat * 2 ^ 192 + c.x.toNat * 2 ^ 128 + c.y.toNat * 2 ^ 64 + c.z.toNat) ∧
  (∀ i : Instr, i.wf = true → decode (encode i) = .instr i) ∧
  (∀ (w : CmdWord) (i : Instr), decode w = .instr i → encode i = w)

/-- Rule R63: the match and mask of the three rows, and no operand value is illegal. -/
def Obligations.MatchAndMaskSelectThePath : Prop :=
  ∀ w : CmdWord,
    (w &&& (3#194 <<< 192) = 0#194 <<< 192 ↔ ∃ x y z, decode w = .instr (.fmaInt x y z)) ∧
    (w &&& (3#194 <<< 192) = 1#194 <<< 192 ↔ ∃ x y z, decode w = .instr (.fmaDd x y z)) ∧
    (w &&& (3#194 <<< 192) = 2#194 <<< 192 ↔ ∃ x y z, decode w = .instr (.fmaBit x y z)) ∧
    (∀ x y z : Word, ∃ w₀ w₁ w₂ : CmdWord, decode w₀ = .instr (.fmaInt x y z) ∧
      decode w₁ = .instr (.fmaDd x y z) ∧ decode w₂ = .instr (.fmaBit x y z))

/-- Command words printed in spec/95_test_vectors.md (programs 2 and 5) decode to the commands written beside them. A
sanity statement. -/
def Obligations.PrintedCommandWordsDecode : Prop :=
  decode 0x03FF00000000000013FF0000000000001BFF0000000000000#194
      = .instr (.fmaInt 0x3FF0000000000001 0x3FF0000000000001 0xBFF0000000000000) ∧
  decode 0x13FF800000000000040080000000000003FE0000000000000#194
      = .instr (.fmaDd 0x3FF8000000000000 0x4008000000000000 0x3FE0000000000000) ∧
  decode 0x23FF00000000000003FF0000000000000C000000000000000#194
      = .instr (.fmaBit 0x3FF0000000000000 0x3FF0000000000000 0xC000000000000000) ∧
  decode 0x33FF00000000000003FF00000000000003FF0000000000000#194 = .rejected .reservedSelection

/-! ### Reset and the latch invariant -/

/-- Rule R36: the state after reset and what the ports show then. -/
def Obligations.ResetStateIsIdle : Prop :=
  State.reset.block.busy = false ∧ State.reset.block.rvalid = false ∧
  State.reset.block.sel = none ∧ State.reset.block.x = none ∧ State.reset.block.y = none ∧
  State.reset.block.z = none ∧ State.reset.block.r = none ∧
  State.reset.block.reqReady = true ∧ State.reset.block.rspValid = false ∧ State.reset.block.rspResult = none

/-- Derived from rules R24, R23 and R36: the reset state is legal and correct. -/
def Obligations.ResetStateIsCorrect : Prop :=
  State.reset.wf = true ∧ State.reset.correct = true

/-- Rule R24: `RVALID == 1` implies `BUSY == 1`, at reset and after every step. -/
def Obligations.ValidImpliesBusyIsInvariant : Prop :=
  (State.reset.block.rvalid = true → State.reset.block.busy = true) ∧
  ∀ s t : State, (s.block.rvalid = true → s.block.busy = true) → step s = .next t →
    (t.block.rvalid = true → t.block.busy = true)

/-- Derived from rules R23, R24 and R30: every step keeps the latches legal: a latch holds a value exactly while it has
a meaning, and no reserved selection is latched. -/
def Obligations.StepKeepsLegalLatches : Prop :=
  ∀ s t : State, s.wf = true → step s = .next t → t.wf = true

/-- Derived from rules R22 (`RVALID`) and R31: every step keeps "`R` holds the result of the command in flight". -/
def Obligations.StepKeepsCorrectResult : Prop :=
  ∀ s t : State, s.correct = true → step s = .next t → t.correct = true

/-- Derived from rules R220 and R66: from a legal state every step answers a next state, but for the one refusal of rule
R66, an idle block offered the reserved selection. -/
def Obligations.LegalBlockStopsOnlyOnReservedCommand : Prop :=
  ∀ s : State, s.wf = true →
    (∃ t, step s = .next t) ∨
    (s.host.now.rst = false ∧ s.block.busy = false ∧ s.host.now.reqValid = true ∧
      s.host.now.reqCmd.extractLsb' 192 2 = 0b11#2 ∧ step s = .refused .reservedSelection)

/-! ### The steps -/

/-- Rule R250: the only effect of reset, at any time, whatever happened before. -/
def Obligations.ResetClearsTheHandshake : Prop :=
  ∀ s : State, s.host.now.rst = true →
    ∃ t, step s = .next t ∧ t.host.received = s.host.received ∧ t.block.busy = false ∧ t.block.rvalid = false ∧
      t.block.sel = none ∧ t.block.x = none ∧ t.block.y = none ∧ t.block.z = none ∧ t.block.r = none ∧
      t.block.reqReady = true ∧ t.block.rspValid = false

/-- Rule R252: reset drops the command in flight without a response; nothing else ends one without a response; the same
command computed again, from any other state, gives the same result. -/
def Obligations.OnlyResetDropsACommand : Prop :=
  (∀ s : State, s.host.now.rst = true → s.block.busy = true →
    ∃ t, step s = .next t ∧ t.host.received = s.host.received ∧ t.block.busy = false ∧ t.block.rvalid = false) ∧
  (∀ s t : State, s.host.now.rst = false → s.block.busy = true → step s = .next t → t.block.busy = false →
    ∃ r, s.block.r = some r ∧ s.block.rvalid = true ∧ t.host.received = s.host.received ++ [r]) ∧
  (∀ (s₁ s₂ t₁ t₂ : State) (c : Command), s₁.block.command? = some c → s₂.block.command? = some c →
    s₁.block.rvalid = false → s₂.block.rvalid = false → step s₁ = .next t₁ → step s₂ = .next t₂ →
    t₁.block.rvalid = true → t₂.block.rvalid = true → t₁.block.r = t₂.block.r)

/-- Derived from rules R30 and R66: ACCEPT, when it is enabled, latches the command word and sets `BUSY`; the reserved
selection is not accepted; with nothing offered an idle block does nothing. That an idle block offered the reserved
selection answers no next state is the model's reading of "not accepted" and "refused" (assumption log entry 11). -/
def Obligations.AcceptLatchesTheCommand : Prop :=
  ∀ s : State, s.host.now.rst = false → s.block.busy = false →
    (s.host.now.reqValid = true → s.host.now.reqCmd.extractLsb' 192 2 ≠ 0b11#2 →
      ∃ t, step s = .next t ∧ t.host.received = s.host.received ∧
        t.block.sel = some (s.host.now.reqCmd.extractLsb' 192 2) ∧
        t.block.x = some (s.host.now.reqCmd.extractLsb' 128 64) ∧
        t.block.y = some (s.host.now.reqCmd.extractLsb' 64 64) ∧
        t.block.z = some (s.host.now.reqCmd.extractLsb' 0 64) ∧
        t.block.busy = true ∧ t.block.rvalid = s.block.rvalid ∧ t.block.r = s.block.r) ∧
    (s.host.now.reqValid = true → s.host.now.reqCmd.extractLsb' 192 2 = 0b11#2 → ∀ t, step s ≠ .next t) ∧
    (s.host.now.reqValid = false → ∃ t, step s = .next t ∧ t.host.received = s.host.received ∧ t.block = s.block)

/-- Derived from rule R66: an idle block that is offered the reserved selection refuses in that step and the run ends,
which is the model's reading of the rule (assumption log entry 11); and no step ever latches the reserved selection. -/
def Obligations.ReservedCommandIsRefused : Prop :=
  (∀ s : State, s.host.now.rst = false → s.block.busy = false → s.host.now.reqValid = true →
    s.host.now.reqCmd.extractLsb' 192 2 = 0b11#2 → step s = .refused .reservedSelection) ∧
  (∀ s t : State, step s = .next t → t.block.sel = some 0b11#2 → s.block.sel = some 0b11#2)

/-- Derived from rules R31, R62 and R69: when the latches hold a command that decodes to `i` and COMPUTE is enabled, the
step is `exec i`, on the state whose host side has moved on to its next inputs; and a word stored by `withFetchWord` is
run by the very next step. -/
def Obligations.StepRunsTheDecodedInstruction : Prop :=
  (∀ (s : State) (c : Command) (i : Instr), s.host.now.rst = false → s.block.busy = true → s.block.rvalid = false →
    s.progress.waiting = 0 → s.block.command? = some c → c.decode = .instr i → step s = exec i s.advance) ∧
  (∀ (s : State) (nbits w : Nat) (i : Instr), decodeTableWord nbits w = some i →
    step (s.withFetchWord nbits w) = exec i (s.withFetchWord nbits w).advance)

/-- Derived from rules R31, R28 and R220: the frame of every instruction. It completes in every state, writes `R` and
`RVALID`, and leaves every other latch, the whole host side and the passing of time unchanged. -/
def Obligations.ExecWritesOnlyTheResult : Prop :=
  ∀ (i : Instr) (s : State), ∃ t, exec i s = .next t ∧ t.block.rvalid = true ∧ t.block.r.isSome = true ∧
    t.block.busy = s.block.busy ∧ t.block.sel = s.block.sel ∧ t.block.x = s.block.x ∧ t.block.y = s.block.y ∧
    t.block.z = s.block.z ∧ t.host = s.host ∧ t.progress = s.progress

/-- Derived from rules R31 and R259. COMPUTE writes `F_SEL(X, Y, Z)` to `R` and sets `RVALID`, and it always completes
unless the host resets the block. The bounds in steps are the model's, not the spec's (assumption log entry 3): a command
computes once its remaining wait has passed, and `LAT` is that wait at acceptance. -/
def Obligations.ComputeAlwaysCompletes : Prop :=
  (∀ (s : State) (sel : Sel) (x y z v : Word), s.host.now.rst = false → s.block.busy = true →
    s.block.rvalid = false → s.progress.waiting = 0 →
    s.block.sel = some sel → s.block.x = some x → s.block.y = some y → s.block.z = some z →
    ((sel = 0b00#2 ∧ v = fmaInteger x y z) ∨ (sel = 0b01#2 ∧ v = fmaExtended x y z) ∨
      (sel = 0b10#2 ∧ v = fmaDirect x y z)) →
    ∃ t, step s = .next t ∧ t.block = { s.block with r := some v, rvalid := true } ∧
      t.host.received = s.host.received) ∧
  (∀ s : State, s.wf = true → s.block.busy = true → s.block.rvalid = false → s.resetFree = true →
    ∃ t v, runSteps (s.progress.waiting + 1) s = .next t ∧ s.block.command?.bind commandResponse = some v ∧
      t.block = { s.block with r := some v, rvalid := true } ∧ t.host.received = s.host.received) ∧
  (∀ (s : State) (c : Command), s.wf = true → s.resetFree = true → s.accepts = some c →
    ∃ t v, runSteps (Config.lat s.progress.accepted c.sel c.x c.y c.z + 2) s = .next t ∧
      commandResponse c = some v ∧ t.block.rvalid = true ∧ t.block.r = some v)

/-- Rule R32: DELIVER, when it is enabled, hands `R` to the host and clears the handshake; the other latches lose their
meaning. `BUSY == 1` is rule R24's invariant. -/
def Obligations.DeliverHandsOverTheResult : Prop :=
  ∀ (s : State) (r : Word), s.host.now.rst = false → s.block.busy = true → s.block.rvalid = true →
    s.host.now.rspReady = true → s.block.r = some r →
    ∃ t, step s = .next t ∧ t.host.received = s.host.received ++ [r] ∧ t.block.rvalid = false ∧ t.block.busy = false ∧
      t.block.r = none ∧ t.block.x = none ∧ t.block.y = none ∧ t.block.z = none ∧ t.block.sel = none

/-- Derived from rule R256: with no reset and no `rsp_ready`, the response stands unchanged for any number of steps. -/
def Obligations.ResponseStandsUntilTaken : Prop :=
  ∀ (n : Nat) (s : State), s.wf = true → s.block.rvalid = true →
    (∀ i ∈ s.host.now :: s.host.later, i.rst = false ∧ i.rspReady = false) →
    ∃ t, runSteps n s = .next t ∧ t.block = s.block ∧ t.host.received = s.host.received

/-- Derived from rules R254 and R255: while `BUSY == 1` the request port has no effect, and the command in flight is the
block's own copy. -/
def Obligations.RequestPortIgnoredWhileBusy : Prop :=
  ∀ (s t : State) (v : Bool) (w : CmdWord), s.block.busy = true → step s = .next t →
    (∃ t', step { s with host := { s.host with now := { s.host.now with reqValid := v, reqCmd := w } } } = .next t' ∧
      t'.block = t.block ∧ t'.host.received = t.host.received ∧ t'.progress = t.progress) ∧
    (t.block.busy = true → t.block.sel = s.block.sel ∧ t.block.x = s.block.x ∧ t.block.y = s.block.y ∧
      t.block.z = s.block.z)

/-- Rule R20: the result depends on the latched selection and operands and on nothing else of the two states. -/
def Obligations.ResultDependsOnlyOnTheCommand : Prop :=
  ∀ s₁ s₂ t₁ t₂ : State,
    s₁.block.sel = s₂.block.sel → s₁.block.x = s₂.block.x → s₁.block.y = s₂.block.y → s₁.block.z = s₂.block.z →
    s₁.block.rvalid = false → s₂.block.rvalid = false → step s₁ = .next t₁ → step s₂ = .next t₂ →
    t₁.block.rvalid = true → t₂.block.rvalid = true → t₁.block.r = t₂.block.r

/-- Rule R46: over any run without reset, the responses received, with the one still owed, are exactly those of the
accepted commands in the order of acceptance: none duplicated, none dropped. A command is accepted only after the
response before it was delivered. -/
def Obligations.ResponsesComeInCommandOrder : Prop :=
  (∀ (n : Nat) (s t : State), s.correct = true → s.resetFree = true → runSteps n s = .next t →
    t.host.received.map some ++ t.owed =
      s.host.received.map some ++ s.owed ++ (acceptedIn n s).map commandResponse ∧ t.owed.length ≤ 1) ∧
  (∀ (s : State) (c : Command), s.accepts = some c → s.owed = [] ∧ c = Command.ofWord s.host.now.reqCmd)

/-! ### The instructions and the contract -/

/-- Rule R120: `FMA.INT` completes with the contract's result for every operand triple and writes nothing but `R` and
`RVALID`. -/
def Obligations.IntegerPathMeetsTheContract : Prop :=
  ∀ (x y z : Word) (s : State),
    exec (.fmaInt x y z) s = .next { s with block := { s.block with r := some (fmaContract x y z), rvalid := true } }

/-- Rule R150: `FMA.DD` completes with the contract's result for every operand triple and writes nothing but `R` and
`RVALID`. -/
def Obligations.DoubleDoublePathMeetsTheContract : Prop :=
  ∀ (x y z : Word) (s : State),
    exec (.fmaDd x y z) s = .next { s with block := { s.block with r := some (fmaContract x y z), rvalid := true } }

/-- Rule R190: `FMA.BIT` completes with the contract's result for every operand triple and writes nothing but `R` and
`RVALID`. -/
def Obligations.BitPackedPathMeetsTheContract : Prop :=
  ∀ (x y z : Word) (s : State),
    exec (.fmaBit x y z) s = .next { s with block := { s.block with r := some (fmaContract x y z), rvalid := true } }

/-- Rule R91: the three paths give the same pattern for all operands, the NaN pattern and the sign of zero included. -/
def Obligations.PathsGiveTheSamePattern : Prop :=
  ∀ x y z : Word, fmaInteger x y z = fmaExtended x y z ∧ fmaExtended x y z = fmaDirect x y z

/-- Rule R123: the integer path's special-value lines are rows S1 to S7, decided before any arithmetic; when none
applies, `x` and `y` are of class FIN and `z` of class FIN or ZERO. `FMA.INT` completes with the row's result. -/
def Obligations.IntegerPathSpecialRows : Prop :=
  (∀ x y z : Word, intSpecial (intUnpack x) (intUnpack y) (intUnpack z) z = specialRow x y z) ∧
  (∀ x y z : Word, specialRow x y z = none → (intUnpack x).cls = .fin ∧ (intUnpack y).cls = .fin ∧
    ((intUnpack z).cls = .fin ∨ (intUnpack z).cls = .zero)) ∧
  (∀ (x y z r : Word) (s : State), specialRow x y z = some r →
    exec (.fmaInt x y z) s = .next { s with block := { s.block with r := some r, rvalid := true } })

/-- Derived from rules R161 and R85: the early-outs of the double-double path give rows S1 to S7. -/
def Obligations.DoubleDoublePathSpecialRows : Prop :=
  ∀ (x y z r : Word) (s : State), specialRow x y z = some r →
    exec (.fmaDd x y z) s = .next { s with block := { s.block with r := some r, rvalid := true } }

/-- Derived from rules R192, R194 and R85: `bit_special` and `bit_zeroprod` give rows S1 to S7. -/
def Obligations.BitPackedPathSpecialRows : Prop :=
  ∀ (x y z r : Word) (s : State), specialRow x y z = some r →
    exec (.fmaBit x y z) s = .next { s with block := { s.block with r := some r, rvalid := true } }

/-- Derived from rules R57, R58 and R85 (row S1): every NaN operand, of any payload, sign or kind, gives the canonical
quiet NaN, on all three instructions. -/
def Obligations.AnyNanGivesTheQuietNan : Prop :=
  ∀ (x y z : Word) (s : State), isNan x = true ∨ isNan y = true ∨ isNan z = true →
    ∀ i ∈ [Instr.fmaInt x y z, Instr.fmaDd x y z, Instr.fmaBit x y z],
      exec i s = .next { s with block := { s.block with r := some 0x7FF8000000000000#64, rvalid := true } }

/-- Rule R58: whenever the result of an instruction is a NaN, it is `0x7FF8000000000000`. -/
def Obligations.OnlyTheCanonicalNanComesOut : Prop :=
  ∀ (i : Instr) (s t : State) (r : Word), exec i s = .next t → t.block.r = some r → isNan r = true →
    r = 0x7FF8000000000000#64

/-- Rule R89: the five symmetries of the contract. -/
def Obligations.ContractSymmetries : Prop :=
  ∀ x y z : Word,
    fmaContract x y z = fmaContract y x z ∧
    fmaContract (flipSign x) (flipSign y) z = fmaContract x y z ∧
    (isNan (fmaContract x y z) = false →
      ¬ (isFinite x = true ∧ isFinite y = true ∧ isFinite z = true ∧ exactValue x y z = 0 ∧
        ¬ ((isZero x = true ∨ isZero y = true) ∧ isZero z = true ∧ (sign x ^^ sign y) = sign z)) →
      fmaContract (flipSign x) y (flipSign z) = flipSign (fmaContract x y z)) ∧
    (isNan x = false →
      fmaContract x 0x3FF0000000000000#64 (zero false) = if x = zero true then zero false else x) ∧
    (isFinite x = true → isZero x = false → isFinite y = true → isZero y = false →
      fmaContract x y (zero true) = roundRNE (val x * val y))

/-- Rule R87: exact cancellation gives `+0` whatever the signs; `-0` arises from row S6 with both signs negative and from
a negative value that underflows, and in no other way; rows S5 and S7 never give a zero. -/
def Obligations.ContractZeroSigns : Prop :=
  ∀ x y z : Word,
    (isFinite x = true → isZero x = false → isFinite y = true → isZero y = false → isFinite z = true →
      isZero z = false → val x * val y = - val z → fmaContract x y z = zero false) ∧
    (fmaContract x y z = zero true ↔
      (isFinite x = true ∧ isFinite y = true ∧ (isZero x = true ∨ isZero y = true) ∧ isZero z = true ∧
        (sign x ^^ sign y) = true ∧ sign z = true) ∨
      (specialRow x y z = none ∧ exactValue x y z < 0 ∧ roundRNE (exactValue x y z) = zero true)) ∧
    (isFinite x = true → isFinite y = true → isInf z = true → isZero (fmaContract x y z) = false) ∧
    (isFinite x = true → isFinite y = true → isFinite z = true → isZero z = false →
      (isZero x = true ∨ isZero y = true) → isZero (fmaContract x y z) = false)

/-! ### The rounding -/

/-- Derived from rules R82, R90 and R93: below the overflow threshold `RoundRNE(v)` is finite, has the sign of `v`, is a
nearest representable value, and on a tie its least-significant mantissa bit is 0. -/
def Obligations.RoundingIsNearestEven : Prop :=
  ∀ v : ℚ, v ≠ 0 → |v| < 2 ^ 1024 - 2 ^ 970 →
    isFinite (roundRNE v) = true ∧ sign (roundRNE v) = decide (v < 0) ∧
    ∀ b : Word, isFinite b = true →
      |v - val (roundRNE v)| ≤ |v - val b| ∧
      (|v - val (roundRNE v)| = |v - val b| → val b = val (roundRNE v) ∨ (frac (roundRNE v)).getLsbD 0 = false)

/-- Derived from rule R83 (a): rounding a negated value flips the sign bit. -/
def Obligations.RoundingIsSignSymmetric : Prop :=
  ∀ v : ℚ, v ≠ 0 → roundRNE (-v) = roundRNE v ^^^ 0x8000000000000000#64

/-- Derived from rule R83 (b): a representable nonzero value rounds to its own pattern. -/
def Obligations.RoundingFixesRepresentableValues : Prop :=
  ∀ b : Word, isFinite b = true → isZero b = false → roundRNE (val b) = b

/-- Derived from rules R83 (c) and R88: overflow exactly from the midpoint above the largest finite value on. -/
def Obligations.RoundingOverflowThreshold : Prop :=
  ∀ v : ℚ, v ≠ 0 → (roundRNE v = inf (decide (v < 0)) ↔ 2 ^ 1024 - 2 ^ 970 ≤ |v|)

/-- Derived from rules R83 (d) and R88: underflow to a signed zero exactly up to half the smallest subnormal. -/
def Obligations.RoundingUnderflowThreshold : Prop :=
  ∀ v : ℚ, v ≠ 0 → (roundRNE v = zero (decide (v < 0)) ↔ |v| ≤ (2 : ℚ) ^ (-1075 : ℤ))

/-- Derived from rule R83 (e): rounding is monotone, as long as both results are finite. -/
def Obligations.RoundingIsMonotone : Prop :=
  ∀ v w : ℚ, v ≠ 0 → w ≠ 0 → v ≤ w → isFinite (roundRNE v) = true → isFinite (roundRNE w) = true →
    val (roundRNE v) ≤ val (roundRNE w)

/-! ### The integer primitives -/

/-- Rule R101: the split multiply gives the exact 128-bit product of any two words. -/
def Obligations.SplitMultiplyIsExact : Prop :=
  ∀ a b : Word, (mul64to128 a b).toNat = a.toNat * b.toNat

/-- Rules R102 and R103: the jamming shifts, as one formula that covers every distance: the quotient by `2^n` with its
bit 0 ORed with whether any discarded bit was set. -/
def Obligations.JammingShiftsKeepASticky : Prop :=
  (∀ (v : Word) (n : Nat),
    (srj64 v n).toNat = v.toNat / 2 ^ n ||| (if v.toNat % 2 ^ n = 0 then 0 else 1)) ∧
  (∀ (v : U128) (n : Nat),
    (srj128 v n).toNat = v.toNat / 2 ^ n ||| (if v.toNat % 2 ^ n = 0 then 0 else 1))

/-- Derived from rule R104: jamming twice is jamming once by the sum of the distances. -/
def Obligations.JammingTwiceIsJammingOnce : Prop :=
  (∀ (v : Word) (n m : Nat), srj64 (srj64 v n) m = srj64 v (n + m)) ∧
  (∀ (v : U128) (n m : Nat), srj128 (srj128 v n) m = srj128 v (n + m))

/-- Rule R106: 128-bit addition and subtraction are those of the integers `{hi, lo}`, and word by word they carry and
borrow. -/
def Obligations.PairArithmeticCarriesAndBorrows : Prop :=
  ∀ ah al bh bl : Word,
    (add128 (pair ah al) (pair bh bl)).toNat = (pair ah al).toNat + (pair bh bl).toNat ∧
    (add128 (pair ah al) (pair bh bl)).extractLsb' 0 128
      = pair (ah + bh + (if al + bl < al then 1#64 else 0#64)) (al + bl) ∧
    (sub128 (pair ah al) (pair bh bl)).toNat = ((pair ah al).toNat + 2 ^ 128 - (pair bh bl).toNat) % 2 ^ 128 ∧
    sub128 (pair ah al) (pair bh bl) = pair (ah - bh - (if al < bl then 1#64 else 0#64)) (al - bl)

/-! ### The integer path -/

/-- Rule R122: the invariant of a finite nonzero operand once unpacked. -/
def Obligations.UnpackedOperandHoldsTheValue : Prop :=
  ∀ b : Word, isFinite b = true → isZero b = false →
    (intUnpack b).cls = .fin ∧ (intUnpack b).sign = sign b ∧ (intUnpack b).mant.getLsbD 63 = true ∧
    |val b| = (intUnpack b).mant.toNat * (2 : ℚ) ^ ((intUnpack b).exp - 63) ∧
    (2 : ℚ) ^ (intUnpack b).exp ≤ |val b| ∧ |val b| < (2 : ℚ) ^ ((intUnpack b).exp + 1) ∧
    (isNormal b = true → -1022 ≤ (intUnpack b).exp ∧ (intUnpack b).exp ≤ 1023 ∧
      (intUnpack b).mant.toNat % 2 ^ 11 = 0) ∧
    (isSub b = true → -1074 ≤ (intUnpack b).exp ∧ (intUnpack b).exp ≤ -1023 ∧
      12 ≤ clz64 ((frac b).setWidth 64) ∧ (intUnpack b).mant.toNat % 2 ^ clz64 ((frac b).setWidth 64) = 0)

/-- Rules R124 and R125: the product of two finite nonzero operands, before and after its normalization. -/
def Obligations.NormalizedProductIsExact : Prop :=
  ∀ x y : Word, isFinite x = true → isZero x = false → isFinite y = true → isZero y = false →
    (intProductRaw (intUnpack x) (intUnpack y)).mag.toNat = (intUnpack x).mant.toNat * (intUnpack y).mant.toNat ∧
    (intProductRaw (intUnpack x) (intUnpack y)).exp = (intUnpack x).exp + (intUnpack y).exp + 1 ∧
    (intProductRaw (intUnpack x) (intUnpack y)).sign = (sign x ^^ sign y) ∧
    2 ^ 126 ≤ (intProductRaw (intUnpack x) (intUnpack y)).mag.toNat ∧
    (intProductRaw (intUnpack x) (intUnpack y)).mag.toNat % 2 ^ 22 = 0 ∧
    |val x * val y| = (intProductRaw (intUnpack x) (intUnpack y)).mag.toNat
      * (2 : ℚ) ^ ((intProductRaw (intUnpack x) (intUnpack y)).exp - 127) ∧
    (intProduct (intUnpack x) (intUnpack y)).mag.getLsbD 127 = true ∧
    (intProduct (intUnpack x) (intUnpack y)).sign = (sign x ^^ sign y) ∧
    |val x * val y| = (intProduct (intUnpack x) (intUnpack y)).mag.toNat
      * (2 : ℚ) ^ ((intProduct (intUnpack x) (intUnpack y)).exp - 127)

/-- Derived from rules R131 to R133: on a mantissa word with its leading 1 at bit 63, steps 7 and 8 round the value the
word stands for exactly once. -/
def Obligations.IntegerRoundPackRoundsOnce : Prop :=
  ∀ (s : Bool) (e : Int) (m64 : Word), m64.getLsbD 63 = true →
    intRoundPack s e m64 = roundRNE ((if s then -1 else 1) * m64.toNat * (2 : ℚ) ^ (e - 63))

/-- Derived from rules R10 and R120: the exponents of the integer path stay far inside `s32`. -/
def Obligations.IntegerExponentsStayInRange : Prop :=
  ∀ x y z : Word, isFinite x = true → isZero x = false → isFinite y = true → isZero y = false → isFinite z = true →
    -1074 ≤ (intUnpack x).exp ∧ (intUnpack x).exp ≤ 1023 ∧
    -2148 ≤ (intProduct (intUnpack x) (intUnpack y)).exp ∧ (intProduct (intUnpack x) (intUnpack y)).exp ≤ 2047 ∧
    ∀ t, intSum (intUnpack x) (intUnpack y) (intUnpack z) = some t → -2276 ≤ t.exp ∧ t.exp ≤ 2048

/-! ### The bit-packed path -/

/-- Derived from rules R191 and R193: a finite nonzero operand after its subnormal normalization. -/
def Obligations.BitOperandHoldsTheValue : Prop :=
  ∀ v : Word, isFinite v = true → isZero v = false →
    (bitFields v).norm.s = sign v ∧
    2 ^ 52 ≤ (bitFields v).norm.sig53.toNat ∧ (bitFields v).norm.sig53.toNat < 2 ^ 53 ∧
    |val v| = (bitFields v).norm.sig53.toNat * (2 : ℚ) ^ ((bitFields v).norm.e - 1075) ∧
    -51 ≤ (bitFields v).norm.e ∧ (bitFields v).norm.e ≤ 2046

/-- Rules R195 and R196: the product's word and exponent, before and after the conditional shift. -/
def Obligations.BitProductIsExact : Prop :=
  ∀ a b : Word, isFinite a = true → isZero a = false → isFinite b = true → isZero b = false →
    2 ^ 62 ≤ (bitFields a).norm.sig53.toNat * 2 ^ 10 ∧ (bitFields a).norm.sig53.toNat * 2 ^ 10 < 2 ^ 63 ∧
    2 ^ 62 ≤ (bitFields b).norm.sig53.toNat * 2 ^ 10 ∧ (bitFields b).norm.sig53.toNat * 2 ^ 10 < 2 ^ 63 ∧
    (bitProductRaw (bitFields a).norm (bitFields b).norm).2.toNat
      = ((bitFields a).norm.sig53.toNat * 2 ^ 10) * ((bitFields b).norm.sig53.toNat * 2 ^ 10) ∧
    2 ^ 124 ≤ (bitProductRaw (bitFields a).norm (bitFields b).norm).2.toNat ∧
    (bitProductRaw (bitFields a).norm (bitFields b).norm).2.toNat < 2 ^ 126 ∧
    (bitProductRaw (bitFields a).norm (bitFields b).norm).2.toNat % 2 ^ 20 = 0 ∧
    |val a * val b| = (bitProductRaw (bitFields a).norm (bitFields b).norm).2.toNat
      * (2 : ℚ) ^ ((bitProductRaw (bitFields a).norm (bitFields b).norm).1 - 1148) ∧
    2 ^ 61 ≤ (hiWord (bitProduct (bitFields a).norm (bitFields b).norm).2).toNat ∧
    (hiWord (bitProduct (bitFields a).norm (bitFields b).norm).2).toNat < 2 ^ 62 ∧
    |val a * val b| = (bitProduct (bitFields a).norm (bitFields b).norm).2.toNat
      * (2 : ℚ) ^ ((bitProduct (bitFields a).norm (bitFields b).norm).1 - 1148)

/-- Derived from rule R204: `bit_normalize2` brings the leading 1 to bit 62 and keeps the value, exactly when bits are
moved up and with a jam when bits are dropped; `j` is the distance to the right in the weight of the result. -/
def Obligations.NormalizeTwoKeepsTheValue : Prop :=
  ∀ (s : Bool) (t : U128) (e : Int), t ≠ 0#128 → t.toNat < 2 ^ 126 →
    (bitNormalize2 s t e).s = s ∧
    2 ^ 62 ≤ (bitNormalize2 s t e).sig.toNat ∧ (bitNormalize2 s t e).sig.toNat < 2 ^ 63 ∧
    ∀ j : Int, j = (bitNormalize2 s t e).e - e + 64 →
      (j ≤ 0 → (bitNormalize2 s t e).sig.toNat = t.toNat * 2 ^ (-j).toNat) ∧
      (0 < j → (bitNormalize2 s t e).sig.toNat
        = t.toNat / 2 ^ j.toNat ||| (if t.toNat % 2 ^ j.toNat = 0 then 0 else 1))

/-- Derived from rules R205 to R207: on a significand word with its leading 1 at bit 62, `bit_roundpack` rounds the value
the word stands for exactly once. -/
def Obligations.BitRoundPackRoundsOnce : Prop :=
  ∀ (s : Bool) (e : Int) (sig : Word), 2 ^ 62 ≤ sig.toNat → sig.toNat < 2 ^ 63 →
    bitRoundPack s e sig = roundRNE ((if s then -1 else 1) * sig.toNat * (2 : ℚ) ^ (e - 1084))

/-! ### The double-double path -/

/-- Derived from rule R82 and assumption log entry 7: the rounding by shifts that the binary64 primitives use is
`RoundRNE` of the value it stands for. -/
def Obligations.ScaledRoundingIsRoundRNE : Prop :=
  ∀ n e : Int, n ≠ 0 → roundScaled n e = roundRNE (n * (2 : ℚ) ^ e)

/-- Rules R152 and R153: `fadd` and `fsub` over `val` and `RoundRNE`. -/
def Obligations.AdditionPrimitivesRoundOnce : Prop :=
  ∀ a b : Word,
    (fadd a b =
      if isNan a = true ∨ isNan b = true then qnan
      else if isInf a = true then (if isInf b = true ∧ sign a ≠ sign b then qnan else a)
      else if isInf b = true then b
      else if val a + val b = 0 then
        (if isZero a = true ∧ isZero b = true then zero (sign a && sign b) else zero false)
      else roundRNE (val a + val b)) ∧
    (isNan a = true ∨ isNan b = true → fsub a b = qnan) ∧
    (isNan a = false → isNan b = false → fsub a b = fadd a (b ^^^ 0x8000000000000000#64)) ∧
    (isFinite a = true → isFinite b = true → val a ≠ val b → fsub a b = roundRNE (val a - val b))

/-- Rule R154: `fmul` over `val` and `RoundRNE`. -/
def Obligations.MultiplicationPrimitiveRoundsOnce : Prop :=
  ∀ a b : Word,
    fmul a b =
      if isNan a = true ∨ isNan b = true then qnan
      else if isInf a = true ∨ isInf b = true then
        (if isZero a = true ∨ isZero b = true then qnan else inf (sign a ^^ sign b))
      else if val a * val b = 0 then zero (sign a ^^ sign b)
      else roundRNE (val a * val b)

/-- Rule R156: `dd_frexp` of a finite nonzero pattern. -/
def Obligations.FrexpIsExact : Prop :=
  ∀ b : Word, isFinite b = true → isZero b = false →
    val b = val (ddFrexp b).1 * (2 : ℚ) ^ (ddFrexp b).2 ∧ isFinite (ddFrexp b).1 = true ∧
    sign (ddFrexp b).1 = sign b ∧ 1 / 2 ≤ |val (ddFrexp b).1| ∧ |val (ddFrexp b).1| < 1 ∧
    -1073 ≤ (ddFrexp b).2 ∧ (ddFrexp b).2 ≤ 1024

/-- Rule R157: `dd_scale` over `val` and `RoundRNE`; it is exact whenever the scaled value is representable, and it
underflows to `zero(sign(b))` and overflows to `inf(sign(b))` at the rule's two bounds. -/
def Obligations.ScalePrimitiveRoundsOnce : Prop :=
  ∀ (b : Word) (k : Int),
    (ddScale b k =
      if isZero b = true ∨ isInf b = true ∨ isNan b = true then b else roundRNE (val b * (2 : ℚ) ^ k)) ∧
    (isFinite b = true → isZero b = false →
      (∀ c : Word, isFinite c = true → val c = val b * (2 : ℚ) ^ k → ddScale b k = c) ∧
      (|val b| * (2 : ℚ) ^ k ≤ (2 : ℚ) ^ (-1075 : ℤ) → ddScale b k = zero (sign b)) ∧
      (2 ^ 1024 - 2 ^ 970 ≤ |val b| * (2 : ℚ) ^ k → ddScale b k = inf (sign b)))

/-- Derived from rule R158: the split of a significand in ±[0.5, 1) is exact and each half has at most 26 significant
bits. The rule also prints the bound `|val(l)| ≤ 2^(-28)`, which its own example exceeds; the bound here is `2^(-27)`
(assumption log entry 8). -/
def Obligations.SplitIsExact : Prop :=
  ∀ a : Word, isFinite a = true → 1 / 2 ≤ |val a| → |val a| < 1 →
    isFinite (ddSplit a).1 = true ∧ isFinite (ddSplit a).2 = true ∧
    val (ddSplit a).1 + val (ddSplit a).2 = val a ∧
    (∃ m : ℤ, val (ddSplit a).1 = m * (2 : ℚ) ^ (-26 : ℤ) ∧ |m| ≤ 2 ^ 26) ∧
    (∃ n : ℤ, val (ddSplit a).2 = n * (2 : ℚ) ^ (-53 : ℤ) ∧ |n| ≤ 2 ^ 26)

/-- Derived from rule R159: the product pair of two significands in ±[0.5, 1) is error-free. The rule also prints
`hi == fmul(a, b)`, which its own steps do not give for every pair; see `PrintedSplitAndProductBounds` and assumption log
entry 8. -/
def Obligations.ProductPairIsErrorFree : Prop :=
  ∀ a b : Word, isFinite a = true → 1 / 2 ≤ |val a| → |val a| < 1 →
    isFinite b = true → 1 / 2 ≤ |val b| → |val b| < 1 →
    isFinite (ddMul a b).1 = true ∧ isFinite (ddMul a b).2 = true ∧
    val (ddMul a b).1 + val (ddMul a b).2 = val a * val b

/-- Expected to fail (assumption log entry 8): two further postconditions that rules R158 and R159 print beside their
steps, `|val(l)| ≤ 2^(-28)` of the split and `hi == fmul(a, b)` of the product. The steps, which the model follows, give
neither for every significand; no result of an instruction depends on them. -/
def Obligations.PrintedSplitAndProductBounds : Prop :=
  (∀ a : Word, isFinite a = true → 1 / 2 ≤ |val a| → |val a| < 1 → |val (ddSplit a).2| ≤ (2 : ℚ) ^ (-28 : ℤ)) ∧
  (∀ a b : Word, isFinite a = true → 1 / 2 ≤ |val a| → |val a| < 1 →
    isFinite b = true → 1 / 2 ≤ |val b| → |val b| < 1 → (ddMul a b).1 = fmul a b)

/-- Derived from rule R160: the two-sum is error-free as long as nothing can overflow, and its head is the rounded
sum. -/
def Obligations.SumPairIsErrorFree : Prop :=
  ∀ a b : Word, isFinite a = true → isFinite b = true → |val a| < 2 ^ 1022 → |val b| < 2 ^ 1022 →
    isFinite (ddAdd a b).1 = true ∧ isFinite (ddAdd a b).2 = true ∧
    val (ddAdd a b).1 + val (ddAdd a b).2 = val a + val b ∧ (ddAdd a b).1 = fadd a b

/-- Rule R164: with a spread below `T_LOW`, that is at most -55, `FMA.DD` completes with `z`, and `z` is the contract's
result: the product cannot move the rounding. With spread -54 it can: the rule's example. -/
def Obligations.FarAddendIsReturned : Prop :=
  (∀ (x y z : Word) (s : State), isFinite x = true → isZero x = false → isFinite y = true → isZero y = false →
    isFinite z = true → isZero z = false → (ddFrexp x).2 + (ddFrexp y).2 - (ddFrexp z).2 ≤ -55 →
    |val x * val y| < (2 : ℚ) ^ ((ddFrexp x).2 + (ddFrexp y).2) ∧
    exec (.fmaDd x y z) s = .next { s with block := { s.block with r := some z, rvalid := true } } ∧
    roundRNE (exactValue x y z) = z) ∧
  (ddFrexp 0x3FE8000000000000#64).2 + (ddFrexp 0x3C98000000000000#64).2 - (ddFrexp 0xBFF0000000000000#64).2 = -54 ∧
  (∀ s : State, exec (.fmaDd 0x3FE8000000000000#64 0x3C98000000000000#64 0xBFF0000000000000#64) s
    = .next { s with block := { s.block with r := some 0xBFEFFFFFFFFFFFFF#64, rvalid := true } })
end

