-- ==== Sys2Proof/Laws/Patterns.lean ====
section
/-! SUPPORT. The small lemmas of patterns: a pattern is its three fields, and the value of a finite pattern is a whole
number of units `2^(-1074)` (spec/40_common_arithmetic.md rules R80 and R81). -/

namespace Sys2Proof.Machine

@[simp] theorem sign_pattern (s : Bool) (e : BitVec 11) (f : BitVec 52) : sign (pattern s e f) = s := by
  unfold sign pattern
  rw [BitVec.getLsbD_append, if_neg (by omega), BitVec.getLsbD_append, if_neg (by omega)]
  simp

@[simp] theorem expf_pattern (s : Bool) (e : BitVec 11) (f : BitVec 52) : expf (pattern s e f) = e := by
  ext i hi
  simp only [expf, pattern, BitVec.getElem_extractLsb', BitVec.getLsbD_append]
  rw [if_neg (by omega), if_pos (by omega)]
  simp [show 52 + i - 52 = i by omega, BitVec.getLsbD_eq_getElem hi]

@[simp] theorem frac_pattern (s : Bool) (e : BitVec 11) (f : BitVec 52) : frac (pattern s e f) = f := by
  ext i hi
  simp only [frac, pattern, BitVec.getElem_extractLsb', BitVec.getLsbD_append]
  simp [hi]

/-- A pattern is its three fields (rule R55). -/
theorem pattern_eta (b : Word) : pattern (sign b) (expf b) (frac b) = b := by
  apply BitVec.eq_of_getLsbD_eq
  intro i hi
  simp only [pattern, BitVec.getLsbD_append, expf, frac, BitVec.getLsbD_extractLsb']
  split
  · simp [*]
  · split
    · next h1 h2 =>
      simp only [show i - 52 < 11 from by omega, decide_true, Bool.true_and]
      congr 1; omega
    · next h1 h2 =>
      have : i = 63 := by omega
      subst this
      simp [sign]

/-- Two patterns with the same fields are the same. -/
theorem pattern_ext {a b : Word} (hs : sign a = sign b) (he : expf a = expf b) (hf : frac a = frac b) : a = b := by
  rw [← pattern_eta a, ← pattern_eta b, hs, he, hf]

@[simp] theorem sign_zero (s : Bool) : sign (zero s) = s := sign_pattern ..
@[simp] theorem expf_zero (s : Bool) : expf (zero s) = 0#11 := expf_pattern ..
@[simp] theorem frac_zero (s : Bool) : frac (zero s) = 0#52 := frac_pattern ..
@[simp] theorem sign_inf (s : Bool) : sign (inf s) = s := sign_pattern ..
@[simp] theorem expf_inf (s : Bool) : expf (inf s) = 0x7FF#11 := expf_pattern ..
@[simp] theorem frac_inf (s : Bool) : frac (inf s) = 0#52 := frac_pattern ..

@[simp] theorem isZero_zero (s : Bool) : isZero (zero s) = true := by simp [isZero]
@[simp] theorem isInf_inf (s : Bool) : isInf (inf s) = true := by simp [isInf]
@[simp] theorem isNan_qnan : isNan qnan = true := by decide

@[simp] theorem sign_flipSign (b : Word) : sign (flipSign b) = !sign b := by
  simp [sign, flipSign]

@[simp] theorem expf_flipSign (b : Word) : expf (flipSign b) = expf b := by
  ext i hi
  have h : (0x8000000000000000#64).getLsbD (52 + i) = false := by
    have : i < 11 := hi
    interval_cases i <;> decide
  simp [expf, flipSign, h]

@[simp] theorem frac_flipSign (b : Word) : frac (flipSign b) = frac b := by
  ext i hi
  have h : (0x8000000000000000#64).getLsbD i = false := by
    have : i < 52 := hi
    interval_cases i <;> decide
  simp [frac, flipSign, h]

/-- The exponent field is at most 2047. -/
theorem expf_le (b : Word) : (expf b).toNat ≤ 2047 := by have := (expf b).isLt; omega

/-- Every pattern is in exactly one class (rule R56): a finite one is zero, subnormal or normal. -/
theorem isFinite_iff (b : Word) : isFinite b = true ↔ isZero b = true ∨ isSub b = true ∨ isNormal b = true := by
  have h1 : (expf b).toNat < 2 ^ 11 := (expf b).isLt
  have h2 : expf b = 0x7FF#11 ↔ (expf b).toNat = 2047 := by rw [← BitVec.toNat_inj]; rfl
  have h3 : expf b = 0#11 ↔ (expf b).toNat = 0 := by rw [← BitVec.toNat_inj]; rfl
  simp only [isFinite, isZero, isSub, isNormal, bne_iff_ne, ne_eq, Bool.and_eq_true, beq_iff_eq, decide_eq_true_eq, h2,
    h3]
  by_cases h : frac b = 0#52 <;> simp [h] <;> omega

/-- A zero has magnitude 0, and nothing else has. -/
theorem magUnits_eq_zero_iff (b : Word) : magUnits b = 0 ↔ isZero b = true := by
  unfold magUnits isZero
  split
  · next h =>
    simp only [h, beq_self_eq_true, Bool.true_and, beq_iff_eq]
    rw [← BitVec.toNat_inj]; rfl
  · next h =>
    have : expf b ≠ 0#11 := h
    simp [this, Nat.shiftLeft_eq]

theorem valUnits_eq_zero_iff (b : Word) : valUnits b = 0 ↔ isZero b = true := by
  rw [← magUnits_eq_zero_iff]
  unfold valUnits
  split <;> simp

theorem natAbs_valUnits (b : Word) : (valUnits b).natAbs = magUnits b := by
  unfold valUnits; split <;> simp

/-- The value of a pattern in units `2^(-1074)` (rule R80). -/
theorem val_eq_valUnits (b : Word) : val b = valUnits b * (2 : ℚ) ^ (-1074 : ℤ) := by
  unfold val valUnits magUnits
  by_cases he : expf b = 0#11
  · simp only [he, if_true]
    split <;> simp
  · have hpos : 1 ≤ (expf b).toNat := by
      rcases Nat.eq_zero_or_pos (expf b).toNat with h | h
      · exact absurd (BitVec.eq_of_toNat_eq (by simpa using h)) he
      · exact h
    have hz : (2 : ℚ) ^ ((expf b).toNat - 1075 : ℤ) = 2 ^ ((expf b).toNat - 1) * (2 : ℚ) ^ (-1074 : ℤ) := by
      rw [← zpow_natCast, ← zpow_add₀ (by norm_num)]
      congr 1
      omega
    simp only [he, if_false, hz, Nat.shiftLeft_eq]
    split <;> push_cast <;> ring

/-- `val` vanishes on the zeros and nowhere else among finite patterns (rule R80). -/
theorem val_eq_zero_iff (b : Word) : val b = 0 ↔ isZero b = true := by
  rw [val_eq_valUnits, ← valUnits_eq_zero_iff]
  have : (2 : ℚ) ^ (-1074 : ℤ) ≠ 0 := by positivity
  simp only [mul_eq_zero, Int.cast_eq_zero, this, or_false]

@[simp] theorem valUnits_flipSign (b : Word) : valUnits (flipSign b) = -valUnits b := by
  unfold valUnits magUnits
  cases h : sign b <;> simp [h]

/-- Flipping the sign bit negates the value. -/
@[simp] theorem val_flipSign (b : Word) : val (flipSign b) = -val b := by
  simp [val_eq_valUnits]

end Sys2Proof.Machine
end

