-- ==== Sys2Proof/Laws/PerInstr.lean ====
section
/-! SUPPORT. Families of statements about the instructions as syntax, one lemma per constructor. -/

/-- `TableRow`: an instruction is well-formed, and its command word matches its row of spec/opcode_table.json: under the
mask of the selection bits it is the row's match (spec/30_encoding.md rule R63). -/
def Sys2Proof.Laws.TableRow.Statement (i : Sys2Proof.Instr) : Prop :=
  i.wf = true ∧ (Sys2Proof.encode i).extractLsb' 192 2 =
    match i with
    | .fmaInt _ _ _ => 0b00#2
    | .fmaDd _ _ _ => 0b01#2
    | .fmaBit _ _ _ => 0b10#2

/-- The selection bits of a command's word. -/
theorem Sys2Proof.Laws.sel_toWord (c : Sys2Proof.Command) : c.toWord.extractLsb' 192 2 = c.sel := by
  apply BitVec.eq_of_getLsbD_eq
  intro i h
  unfold Sys2Proof.Command.toWord
  simp only [BitVec.getLsbD_extractLsb', BitVec.getLsbD_or, BitVec.getLsbD_shiftLeft, BitVec.getLsbD_setWidth]
  rw [BitVec.getLsbD_of_ge c.x _ (by omega), BitVec.getLsbD_of_ge c.y _ (by omega),
    BitVec.getLsbD_of_ge c.z _ (by omega), show 192 + i - 192 = i by omega]
  simp [show 192 + i < 194 by omega, show i < 194 by omega, h]

theorem Sys2Proof.Laws.TableRow.fmaInt (x y z : Sys2Proof.Word) :
    Sys2Proof.Laws.TableRow.Statement (.fmaInt x y z) := ⟨rfl, Sys2Proof.Laws.sel_toWord ⟨0b00#2, x, y, z⟩⟩

theorem Sys2Proof.Laws.TableRow.fmaDd (x y z : Sys2Proof.Word) :
    Sys2Proof.Laws.TableRow.Statement (.fmaDd x y z) := ⟨rfl, Sys2Proof.Laws.sel_toWord ⟨0b01#2, x, y, z⟩⟩

theorem Sys2Proof.Laws.TableRow.fmaBit (x y z : Sys2Proof.Word) :
    Sys2Proof.Laws.TableRow.Statement (.fmaBit x y z) := ⟨rfl, Sys2Proof.Laws.sel_toWord ⟨0b10#2, x, y, z⟩⟩
end

