-- ==== Sys2Proof/Laws/State.lean ====
section
/-! SUPPORT. One lemma per field per update of the state, each true by `rfl`, so that no later proof unfolds a record
update; and what the latches read back after an update. -/

namespace Sys2Proof.Machine

@[simp] theorem Block.latch_busy (b : Block) (c : Command) : (b.latch c).busy = true := rfl
@[simp] theorem Block.latch_sel (b : Block) (c : Command) : (b.latch c).sel = some c.sel := rfl
@[simp] theorem Block.latch_x (b : Block) (c : Command) : (b.latch c).x = some c.x := rfl
@[simp] theorem Block.latch_y (b : Block) (c : Command) : (b.latch c).y = some c.y := rfl
@[simp] theorem Block.latch_z (b : Block) (c : Command) : (b.latch c).z = some c.z := rfl
@[simp] theorem Block.latch_r (b : Block) (c : Command) : (b.latch c).r = b.r := rfl
@[simp] theorem Block.latch_rvalid (b : Block) (c : Command) : (b.latch c).rvalid = b.rvalid := rfl

@[simp] theorem Block.idle_busy  : Block.idle.busy = false := rfl
@[simp] theorem Block.idle_sel  : Block.idle.sel = none := rfl
@[simp] theorem Block.idle_x  : Block.idle.x = none := rfl
@[simp] theorem Block.idle_y  : Block.idle.y = none := rfl
@[simp] theorem Block.idle_z  : Block.idle.z = none := rfl
@[simp] theorem Block.idle_r  : Block.idle.r = none := rfl
@[simp] theorem Block.idle_rvalid  : Block.idle.rvalid = false := rfl

@[simp] theorem State.accept_block (c : Command) (s : State) : (s.accept c).block = s.block.latch c := rfl
@[simp] theorem State.accept_host (c : Command) (s : State) : (s.accept c).host = s.host := rfl
@[simp] theorem State.accept_accepted (c : Command) (s : State) :
    (s.accept c).progress.accepted = s.progress.accepted + 1 := rfl
@[simp] theorem State.accept_waiting (c : Command) (s : State) : (s.accept c).progress.waiting = 
      Config.lat s.progress.accepted c.sel c.x c.y c.z := rfl

@[simp] theorem State.complete_busy (r : Word) (s : State) : (s.complete r).block.busy = s.block.busy := rfl
@[simp] theorem State.complete_sel (r : Word) (s : State) : (s.complete r).block.sel = s.block.sel := rfl
@[simp] theorem State.complete_x (r : Word) (s : State) : (s.complete r).block.x = s.block.x := rfl
@[simp] theorem State.complete_y (r : Word) (s : State) : (s.complete r).block.y = s.block.y := rfl
@[simp] theorem State.complete_z (r : Word) (s : State) : (s.complete r).block.z = s.block.z := rfl
@[simp] theorem State.complete_r (r : Word) (s : State) : (s.complete r).block.r = some r := rfl
@[simp] theorem State.complete_rvalid (r : Word) (s : State) : (s.complete r).block.rvalid = true := rfl
@[simp] theorem State.complete_host (r : Word) (s : State) : (s.complete r).host = s.host := rfl
@[simp] theorem State.complete_progress (r : Word) (s : State) : (s.complete r).progress = s.progress := rfl

@[simp] theorem State.wait_block (s : State) : s.wait.block = s.block := rfl
@[simp] theorem State.wait_host (s : State) : s.wait.host = s.host := rfl
@[simp] theorem State.wait_accepted (s : State) : s.wait.progress.accepted = s.progress.accepted := rfl
@[simp] theorem State.wait_waiting (s : State) : s.wait.progress.waiting = s.progress.waiting - 1 := rfl

@[simp] theorem State.deliver_block (r : Word) (s : State) : (s.deliver r).block = Block.idle := rfl
@[simp] theorem State.deliver_now (r : Word) (s : State) : (s.deliver r).host.now = s.host.now := rfl
@[simp] theorem State.deliver_later (r : Word) (s : State) : (s.deliver r).host.later = s.host.later := rfl
@[simp] theorem State.deliver_received (r : Word) (s : State) :
    (s.deliver r).host.received = s.host.received ++ [r] := rfl
@[simp] theorem State.deliver_progress (r : Word) (s : State) : (s.deliver r).progress = s.progress := rfl

@[simp] theorem State.resetBlock_block (s : State) : s.resetBlock.block = Block.idle := rfl
@[simp] theorem State.resetBlock_host (s : State) : s.resetBlock.host = s.host := rfl
@[simp] theorem State.resetBlock_accepted (s : State) : s.resetBlock.progress.accepted = s.progress.accepted := rfl
@[simp] theorem State.resetBlock_waiting (s : State) : s.resetBlock.progress.waiting = 0 := rfl

@[simp] theorem State.withCommand_block (s : State) (c : Command) : (s.withCommand c).block = Block.idle.latch c := rfl
@[simp] theorem State.withCommand_rst (s : State) (c : Command) : (s.withCommand c).host.now.rst = false := rfl
@[simp] theorem State.withCommand_accepted (s : State) (c : Command) :
    (s.withCommand c).progress.accepted = s.progress.accepted := rfl
@[simp] theorem State.withCommand_waiting (s : State) (c : Command) : (s.withCommand c).progress.waiting = 0 := rfl
@[simp] theorem State.withCommand_later (s : State) (c : Command) : (s.withCommand c).host.later = s.host.later := rfl
@[simp] theorem State.withCommand_received (s : State) (c : Command) :
    (s.withCommand c).host.received = s.host.received := rfl

@[simp] theorem State.reset_block : State.reset.block = Block.idle := rfl
@[simp] theorem State.reset_now : State.reset.host.now = Inputs.quiet := rfl
@[simp] theorem State.reset_later : State.reset.host.later = [] := rfl
@[simp] theorem State.reset_received : State.reset.host.received = [] := rfl
@[simp] theorem State.reset_accepted : State.reset.progress.accepted = 0 := rfl
@[simp] theorem State.reset_waiting : State.reset.progress.waiting = 0 := rfl

@[simp] theorem State.advance_block (s : State) : s.advance.block = s.block := by
  unfold State.advance; split <;> rfl

@[simp] theorem State.advance_progress (s : State) : s.advance.progress = s.progress := by
  unfold State.advance; split <;> rfl

@[simp] theorem State.advance_received (s : State) : s.advance.host.received = s.host.received := by
  unfold State.advance; split <;> rfl

@[simp] theorem State.advance_later (s : State) : s.advance.host.later = s.host.later.tail := by
  unfold State.advance; split <;> simp [*]

theorem State.advance_now_of_cons {s : State} {i : Inputs} {is : List Inputs} (h : s.host.later = i :: is) :
    s.advance.host.now = i := by
  simp [State.advance, h]

theorem State.advance_of_nil {s : State} (h : s.host.later = []) :
    s.advance = s := by
  simp [State.advance, h]

@[simp] theorem Block.latch_command? (b : Block) (c : Command) : (b.latch c).command? = some c := rfl

@[simp] theorem State.complete_command? (r : Word) (s : State) :
    (s.complete r).block.command? = s.block.command? := rfl

@[simp] theorem Block.reqReady_eq (b : Block) : b.reqReady = !b.busy := rfl

@[simp] theorem Block.rspValid_eq (b : Block) : b.rspValid = b.rvalid := rfl

theorem Block.command?_eq_some {b : Block} {c : Command} :
    b.command? = some c ↔ b.sel = some c.sel ∧ b.x = some c.x ∧ b.y = some c.y ∧ b.z = some c.z := by
  rcases b with ⟨_, sel, x, y, z, _, _⟩
  rcases c with ⟨cs, cx, cy, cz⟩
  cases sel <;> cases x <;> cases y <;> cases z <;> simp [Block.command?]

end Sys2Proof.Machine
end

