-- ==== Sys2Proof/Laws/Protocol.lean ====
section
/-! SUPPORT. What one step can do, said once: the meaning of every instruction is one write of the result latch, and a
step that answers a next state is one of seven. -/

namespace Sys2Proof.Machine

/-- The response of an instruction, by its path. -/
def instrResponse : Instr → Word
  | .fmaInt x y z => fmaInteger x y z
  | .fmaDd x y z => fmaExtended x y z
  | .fmaBit x y z => fmaDirect x y z

/-- Every instruction writes `R` and `RVALID` and nothing else (rule R31). -/
theorem exec_eq_complete (i : Instr) (s : State) : exec i s = .next (s.complete (instrResponse i)) := by
  cases i <;> rfl

/-- The selection of a decoded command names the path of the instruction (rules R31 and R62). -/
theorem commandResponse_of_decode {c : Command} {i : Instr} (h : c.decode = .instr i) :
    commandResponse c = some (instrResponse i) := by
  unfold Command.decode at h
  unfold commandResponse pathFunction
  split at h
  · cases h; simp [instrResponse, *]
  · split at h
    · cases h; simp [instrResponse, *]
    · split at h
      · cases h; simp [instrResponse, *]
      · cases h

/-- A command decodes exactly when its selection is not the reserved one (rules R66 and R69). -/
theorem command_decode_rejected_iff (c : Command) : c.decode = .rejected .reservedSelection ↔ c.sel = 0b11#2 := by
  unfold Command.decode
  have hs : c.sel = 0b00#2 ∨ c.sel = 0b01#2 ∨ c.sel = 0b10#2 ∨ c.sel = 0b11#2 := by
    generalize c.sel = v; revert v; decide
  rcases hs with h | h | h | h <;> simp [h]

/-- A rejected command is a reserved one: no other rejection exists on a command word. -/
theorem command_sel_of_rejected {c : Command} {why : Rejection} (h : c.decode = .rejected why) : c.sel = 0b11#2 := by
  rw [← command_decode_rejected_iff]
  unfold Command.decode at h ⊢
  split at h <;> try cases h
  split at h <;> try cases h
  split at h <;> cases h
  simp [*]

/-- A step that answers a next state is reset, ACCEPT, an idle or waiting step, COMPUTE, or DELIVER, each under its own
condition (rules R30 to R32, R250, R254, R256, R259). -/
theorem step_next_cases {s t : State} (h : step s = .next t) :
    (s.host.now.rst = true ∧ t = s.advance.resetBlock) ∨
    (s.host.now.rst = false ∧ s.block.busy = false ∧ s.host.now.reqValid = true ∧
      (Command.ofWord s.host.now.reqCmd).sel ≠ 0b11#2 ∧
      t = s.advance.accept (Command.ofWord s.host.now.reqCmd)) ∨
    (s.host.now.rst = false ∧ s.block.busy = false ∧ s.host.now.reqValid = false ∧ t = s.advance) ∨
    (s.host.now.rst = false ∧ s.block.busy = true ∧ s.block.rvalid = false ∧ s.progress.waiting = 0 ∧
      ∃ c r, s.block.command? = some c ∧ commandResponse c = some r ∧ t = s.advance.complete r) ∨
    (s.host.now.rst = false ∧ s.block.busy = true ∧ s.block.rvalid = false ∧ s.progress.waiting ≠ 0 ∧
      t = s.advance.wait) ∨
    (s.host.now.rst = false ∧ s.block.busy = true ∧ s.block.rvalid = true ∧ s.host.now.rspReady = true ∧
      ∃ r, s.block.r = some r ∧ t = s.advance.deliver r) ∨
    (s.host.now.rst = false ∧ s.block.busy = true ∧ s.block.rvalid = true ∧ s.host.now.rspReady = false ∧
      t = s.advance) := by
  unfold step react at h
  split at h
  · next hr => cases h; exact .inl ⟨hr, rfl⟩
  · next hr =>
    have hr : s.host.now.rst = false := by simpa using hr
    simp only [Block.reqReady_eq, Block.rspValid_eq, State.advance_block] at h
    split at h
    · next hb =>
      have hb : s.block.busy = false := by simpa using hb
      unfold requestSide at h
      split at h
      · next hv =>
        split at h
        · next i hd =>
          cases h
          refine .inr (.inl ⟨hr, hb, hv, ?_, rfl⟩)
          intro hs
          rw [← command_decode_rejected_iff] at hs
          rw [decode, hs] at hd
          cases hd
        · cases h
      · next hv => cases h; exact .inr (.inr (.inl ⟨hr, hb, by simpa using hv, rfl⟩))
    · next hb =>
      have hb : s.block.busy = true := by simpa using hb
      split at h
      · next hv =>
        unfold responseSide at h
        split at h
        · next hy =>
          split at h
          · next r hrr =>
            cases h
            exact .inr (.inr (.inr (.inr (.inr (.inl ⟨hr, hb, hv, hy, r, by simpa using hrr, rfl⟩)))))
          · cases h
        · next hy =>
          cases h
          exact .inr (.inr (.inr (.inr (.inr (.inr ⟨hr, hb, hv, by simpa using hy, rfl⟩)))))
      · next hv =>
        have hv : s.block.rvalid = false := by simpa using hv
        unfold computeSide at h
        split at h
        · next hl =>
          rw [State.advance_progress] at hl
          split at h
          · next c hc =>
            split at h
            · next i hd =>
              rw [exec_eq_complete] at h
              cases h
              exact .inr (.inr (.inr (.inl ⟨hr, hb, hv, hl, c, _, by simpa using hc,
                commandResponse_of_decode hd, rfl⟩)))
            · cases h
          · cases h
        · next hl =>
          rw [State.advance_progress] at hl
          cases h
          exact .inr (.inr (.inr (.inr (.inl ⟨hr, hb, hv, hl, rfl⟩))))

end Sys2Proof.Machine
end

