-- ==== Sys2Proof/Laws/Rounding.lean ====
section
/-! SUPPORT. The small lemmas of the rounding (spec/40_common_arithmetic.md rule R82). -/

namespace Sys2Proof.Machine

/-- `floorLog2(a)` is the integer `e` with `2^e ≤ a < 2^(e+1)` (rule R82). -/
theorem floorLog2_spec {a : ℚ} (ha : 0 < a) : (2 : ℚ) ^ floorLog2 a ≤ a ∧ a < (2 : ℚ) ^ (floorLog2 a + 1) := by
  have hn : a.num.natAbs ≠ 0 := by
    have := Rat.num_pos.2 ha
    omega
  have hd : a.den ≠ 0 := a.den_nz
  have hda : (0 : ℚ) < a.den := by exact_mod_cast a.den_pos
  have hnum : (a.num.natAbs : ℚ) = a.num := by
    have := Rat.num_pos.2 ha
    rw [Nat.cast_natAbs, abs_of_pos this]
  have haq : a = a.num.natAbs / a.den := by rw [hnum]; exact (Rat.num_div_den a).symm
  have hn1 : (2 : ℚ) ^ a.num.natAbs.log2 ≤ a.num.natAbs := by exact_mod_cast Nat.log2_self_le hn
  have hn2 : (a.num.natAbs : ℚ) < 2 ^ (a.num.natAbs.log2 + 1) := by exact_mod_cast Nat.lt_log2_self
  have hd1 : (2 : ℚ) ^ a.den.log2 ≤ a.den := by exact_mod_cast Nat.log2_self_le hd
  have hd2 : (a.den : ℚ) < 2 ^ (a.den.log2 + 1) := by exact_mod_cast Nat.lt_log2_self
  set m := a.num.natAbs.log2
  set d := a.den.log2
  have hup : a < (2 : ℚ) ^ ((m : ℤ) - d + 1) := by
    rw [haq, div_lt_iff₀ hda]
    calc (a.num.natAbs : ℚ) < 2 ^ (m + 1) := hn2
      _ = (2 : ℚ) ^ ((m : ℤ) - d + 1) * 2 ^ d := by
        rw [← zpow_natCast, ← zpow_natCast, ← zpow_add₀ (by norm_num)]; congr 1; push_cast; ring
      _ ≤ _ := by gcongr
  have hlo : (2 : ℚ) ^ ((m : ℤ) - d - 1) ≤ a := by
    rw [haq, le_div_iff₀ hda]
    calc (2 : ℚ) ^ ((m : ℤ) - d - 1) * a.den ≤ (2 : ℚ) ^ ((m : ℤ) - d - 1) * 2 ^ (d + 1) := by gcongr
      _ = 2 ^ m := by
        rw [← zpow_natCast, ← zpow_natCast, ← zpow_add₀ (by norm_num)]; congr 1; push_cast; ring
      _ ≤ _ := hn1
  have hfl : floorLog2 a = if (2 : ℚ) ^ ((m : ℤ) - d) ≤ a then (m : ℤ) - d else (m : ℤ) - d - 1 := rfl
  rw [hfl]
  split
  · next h => exact ⟨h, hup⟩
  · next h => exact ⟨hlo, by rw [sub_add_cancel]; exact not_le.1 h⟩

/-- The integer of `floorLog2_spec` is unique. -/
theorem floorLog2_eq_of {a : ℚ} {e : ℤ} (h1 : (2 : ℚ) ^ e ≤ a) (h2 : a < (2 : ℚ) ^ (e + 1)) : floorLog2 a = e := by
  have ha : 0 < a := lt_of_lt_of_le (by positivity) h1
  obtain ⟨h3, h4⟩ := floorLog2_spec ha
  have h5 := (zpow_lt_zpow_iff_right₀ (by norm_num : (1 : ℚ) < 2)).1 (lt_of_le_of_lt h1 h4)
  have h6 := (zpow_lt_zpow_iff_right₀ (by norm_num : (1 : ℚ) < 2)).1 (lt_of_le_of_lt h3 h2)
  omega

/-- The value of `roundScaled` depends on the sign and the magnitude only. -/
theorem roundScaled_of_le {n e : Int} (h : quantumExp (e + (n.natAbs.log2 : Int)) ≤ e) :
    roundScaled n e = finishRound (decide (n < 0)) (n.natAbs <<< (e - quantumExp (e + (n.natAbs.log2 : Int))).toNat) .lt
      (quantumExp (e + (n.natAbs.log2 : Int))) := by
  simp [roundScaled, h]

theorem roundScaled_of_lt {n e : Int} (h : e < quantumExp (e + (n.natAbs.log2 : Int))) :
    roundScaled n e =
      finishRound (decide (n < 0)) (n.natAbs >>> (quantumExp (e + (n.natAbs.log2 : Int)) - e).toNat)
        (compare (2 * (n.natAbs % 2 ^ (quantumExp (e + (n.natAbs.log2 : Int)) - e).toNat))
          (2 ^ (quantumExp (e + (n.natAbs.log2 : Int)) - e).toNat))
        (quantumExp (e + (n.natAbs.log2 : Int))) := by
  simp [roundScaled, not_le.2 h]

@[simp] theorem sign_packNormal (s : Bool) (k : Nat) (q : Int) : sign (packNormal s k q) = s := by
  unfold packNormal
  dsimp only
  split <;> simp

@[simp] theorem sign_packRounded (s : Bool) (k : Nat) (q : Int) : sign (packRounded s k q) = s := by
  unfold packRounded
  split
  · simp
  · split
    · simp
    · split <;> simp

/-- The rounding keeps the sign it is given. -/
@[simp] theorem sign_finishRound (s : Bool) (k : Nat) (half : Ordering) (q : Int) :
    sign (finishRound s k half q) = s := sign_packRounded ..

/-- The rounded significand is the floor or its successor. -/
theorem roundUp_bounds (k : Nat) (half : Ordering) : k ≤ roundUp k half ∧ roundUp k half ≤ k + 1 := by
  unfold roundUp
  split <;> omega

/-- With nothing below the kept bits the rounding changes nothing. -/
@[simp] theorem roundUp_lt (k : Nat) : roundUp k .lt = k := by simp [roundUp]

end Sys2Proof.Machine
end

