-- ==== Sys2Proof/Laws/Words.lean ====
section
/-! SUPPORT. What the integer primitives compute, as numbers (spec/40_common_arithmetic.md rules R100, R105, R106). -/

namespace Sys2Proof.Machine

theorem toNat_nz {w k : Nat} (hk : 0 < k) (v : BitVec w) : (nz k v).toNat = if v = 0#w then 0 else 1 := by
  unfold nz
  split
  · rfl
  · simp [hk]

@[simp] theorem hiWord_pair (hi lo : Word) : hiWord (pair hi lo) = hi := by
  apply BitVec.eq_of_getLsbD_eq
  intro i h
  rw [hiWord, pair, BitVec.getLsbD_extractLsb', BitVec.getLsbD_append, if_neg (by omega)]
  simp [h]

@[simp] theorem loWord_pair (hi lo : Word) : loWord (pair hi lo) = lo := by
  apply BitVec.eq_of_getLsbD_eq
  intro i h
  rw [loWord, pair, BitVec.getLsbD_extractLsb', BitVec.getLsbD_append, if_pos (by omega)]
  simp [h]

theorem toNat_hiWord (v : U128) : (hiWord v).toNat = v.toNat / 2 ^ 64 := by
  have := v.isLt
  simp only [hiWord, BitVec.extractLsb'_toNat, Nat.shiftRight_eq_div_pow]
  omega

theorem toNat_loWord (v : U128) : (loWord v).toNat = v.toNat % 2 ^ 64 := by
  simp [loWord]

theorem toNat_pair (hi lo : Word) : (pair hi lo).toNat = hi.toNat * 2 ^ 64 + lo.toNat := by
  have := lo.isLt
  rw [pair, BitVec.toNat_append, Nat.shiftLeft_eq, ← Nat.mul_comm, Nat.mul_comm _ hi.toNat,
    Nat.mul_comm hi.toNat, ← Nat.two_pow_add_eq_or_of_lt this]

@[simp] theorem pair_hiWord_loWord (v : U128) : pair (hiWord v) (loWord v) = v := by
  apply BitVec.eq_of_toNat_eq
  rw [toNat_pair, toNat_hiWord, toNat_loWord]
  omega

@[simp] theorem clz64_zero : clz64 0#64 = 64 := rfl

/-- The highest set bit stands `clz64(v)` places below bit 63 (rule R100). -/
theorem clz64_spec {v : Word} (h : v ≠ 0#64) :
    clz64 v ≤ 63 ∧ 2 ^ (63 - clz64 v) ≤ v.toNat ∧ v.toNat < 2 ^ (64 - clz64 v) := by
  have hv : v.toNat ≠ 0 := fun h0 => h (BitVec.eq_of_toNat_eq (by simpa using h0))
  have hlog : v.toNat.log2 < 64 := (Nat.log2_lt hv).2 v.isLt
  unfold clz64
  rw [if_neg h, show 63 - (63 - v.toNat.log2) = v.toNat.log2 by omega,
    show 64 - (63 - v.toNat.log2) = v.toNat.log2 + 1 by omega]
  exact ⟨by omega, Nat.log2_self_le hv, Nat.lt_log2_self⟩

/-- The same for 128 bits (rule R100). -/
theorem clz128_spec {v : U128} (h : v ≠ 0#128) :
    clz128 v ≤ 127 ∧ 2 ^ (127 - clz128 v) ≤ v.toNat ∧ v.toNat < 2 ^ (128 - clz128 v) := by
  have hh := toNat_hiWord v
  have hl := toNat_loWord v
  unfold clz128
  split
  · next h1 =>
    obtain ⟨hc, hlo, hup⟩ := clz64_spec h1
    refine ⟨by omega, ?_, ?_⟩
    · rw [show 127 - clz64 (hiWord v) = (63 - clz64 (hiWord v)) + 64 by omega, pow_add]
      have := Nat.mul_le_mul_right (2 ^ 64) hlo
      omega
    · rw [show 128 - clz64 (hiWord v) = (64 - clz64 (hiWord v)) + 64 by omega, pow_add]
      have := Nat.mul_le_mul_right (2 ^ 64) (Nat.succ_le_of_lt hup)
      omega
  · next h1 =>
    have h1 : hiWord v = 0#64 := by simpa using h1
    have h2 : loWord v ≠ 0#64 := by
      intro h2
      apply h
      rw [← pair_hiWord_loWord v, h1, h2]
      rfl
    obtain ⟨hc, hlo, hup⟩ := clz64_spec h2
    rw [h1] at hh
    have h0 : (0#64 : Word).toNat = 0 := rfl
    have hv : v.toNat = (loWord v).toNat := by omega
    rw [hv, show 127 - (64 + clz64 (loWord v)) = 63 - clz64 (loWord v) by omega,
      show 128 - (64 + clz64 (loWord v)) = 64 - clz64 (loWord v) by omega]
    exact ⟨by omega, hlo, hup⟩

theorem toNat_lowMask {w n : Nat} (hn : n < w) : (lowMask w n).toNat = 2 ^ n - 1 := by
  have h1 : 2 ^ n < 2 ^ w := Nat.pow_lt_pow_right (by norm_num) hn
  have h2 : 1 < 2 ^ w := Nat.one_lt_two_pow (by omega)
  have h3 : 0 < 2 ^ n := Nat.two_pow_pos n
  simp only [lowMask, BitVec.toNat_sub, BitVec.toNat_shiftLeft, BitVec.toNat_ofNat, Nat.shiftLeft_eq,
    Nat.mod_eq_of_lt h2, one_mul, Nat.mod_eq_of_lt h1]
  rw [show 2 ^ w - 1 + 2 ^ n = 2 ^ n - 1 + 2 ^ w by omega, Nat.add_mod_right]
  exact Nat.mod_eq_of_lt (by omega)

/-- Masking with the low `n` bits is the remainder modulo `2^n`. -/
theorem toNat_and_lowMask {w n : Nat} (hn : n < w) (v : BitVec w) : (v &&& lowMask w n).toNat = v.toNat % 2 ^ n := by
  rw [BitVec.toNat_and, toNat_lowMask hn, Nat.and_two_pow_sub_one_eq_mod]

theorem toNat_mul32 (a b : U32) : (mul32 a b).toNat = a.toNat * b.toNat := by
  have ha := a.isLt
  have hb := b.isLt
  have hab : a.toNat * b.toNat < 2 ^ 64 :=
    lt_of_lt_of_le (Nat.mul_lt_mul_of_lt_of_le ha hb.le (by norm_num)) (by norm_num)
  simp only [mul32, BitVec.toNat_mul, BitVec.toNat_setWidth]
  rw [Nat.mod_eq_of_lt (show a.toNat < 2 ^ 64 by omega), Nat.mod_eq_of_lt (show b.toNat < 2 ^ 64 by omega),
    Nat.mod_eq_of_lt hab]

/-- The two's-complement negation is the subtraction from zero (rule R100). -/
theorem neg128_eq (t : U128) : neg128 t = -t := by
  rw [neg128, ← BitVec.neg_eq_not_add]

end Sys2Proof.Machine
end

