-- ==== Sys2Proof/Tests/Slice0.lean ====
section
/-! SUPPORT. Tests. Expected values are the spec's printed words and vectors (spec/95_test_vectors.md and the examples
of the rules named), never the model's own output. The second part gives, for each obligation with hypotheses, a concrete
state and operands that meet all of them. -/

namespace Sys2Proof.Tests

open Sys2Proof Sys2Proof.Machine

/-! ### Well-formedness, decoding, encoding -/

/-- The check refuses the reserved selection (rule R66). -/
theorem test_wf_refuses_reserved_selection : (Command.mk 0b11#2 1 2 3).wf = false := by decide

/-- The three assigned selections pass, with any operand patterns (rule R63). -/
theorem test_wf_accepts_assigned_selections :
    (Command.mk 0b00#2 0xFFFFFFFFFFFFFFFF 0 0x7FF0000000000001).wf = true ∧
    (Command.mk 0b01#2 0xFFFFFFFFFFFFFFFF 0 0x7FF0000000000001).wf = true ∧
    (Command.mk 0b10#2 0xFFFFFFFFFFFFFFFF 0 0x7FF0000000000001).wf = true ∧
    (Instr.fmaBit 0xFFFFFFFFFFFFFFFF 0 0x7FF0000000000001).wf = true := by decide

/-- `FMA.INT`, word of program 2: `sel = 00`, then the three patterns. -/
theorem test_decode_fmaInt :
    decode 0x03FF00000000000013FF0000000000001BFF0000000000000#194
      = .instr (.fmaInt 0x3FF0000000000001 0x3FF0000000000001 0xBFF0000000000000) := by decide

/-- `FMA.DD`, word of program 5. -/
theorem test_decode_fmaDd :
    decode 0x13FF800000000000040080000000000003FE0000000000000#194
      = .instr (.fmaDd 0x3FF8000000000000 0x4008000000000000 0x3FE0000000000000) := by decide

/-- `FMA.BIT`, word of program 4. -/
theorem test_decode_fmaBit :
    decode 0x2C0080000000000003FD55555555550003FF0000000000000#194
      = .instr (.fmaBit 0xC008000000000000 0x3FD5555555555000 0x3FF0000000000000) := by decide

/-- The reserved word of program 5. -/
theorem test_decode_reserved :
    decode 0x33FF00000000000003FF00000000000003FF0000000000000#194 = .rejected .reservedSelection := by decide

/-- Four different fields, laid out by rule R60, are read back from their own places. -/
theorem test_decode_field_places :
    decode (0b10#2 ++ 0x1111111122222222#64 ++ 0x3333333344444444#64 ++ 0x5555555566666666#64)
      = .instr (.fmaBit 0x1111111122222222 0x3333333344444444 0x5555555566666666) := by decide

/-- Encoding is the sum of shifted fields (rule R69), on the word of program 5. -/
theorem test_encode_fmaDd :
    encode (.fmaDd 0x3FF8000000000000 0x4008000000000000 0x3FE0000000000000)
      = 0x13FF800000000000040080000000000003FE0000000000000#194 := by decide

/-- A number of more than 194 bits is no command word. -/
theorem test_decode_too_wide : decodeNat (2 ^ 194) = .rejected .tooWide := by decide

/-- The host's entry: the table's 194 bits in 200. -/
theorem test_decodeTableWord :
    decodeTableWord 200 0x23FF00000000000003FF0000000000000C000000000000000
      = some (.fmaBit 0x3FF0000000000000 0x3FF0000000000000 0xC000000000000000) ∧
    decodeTableWord 200 0x33FF00000000000003FF00000000000003FF0000000000000 = none := by decide

/-- The widths of the words are those of rule R8's table. -/
theorem test_config_widths :
    (Word = BitVec Config.flen) ∧ (U128 = BitVec Config.productWidth) ∧ (Sel = BitVec Config.selWidth) ∧
    (CmdWord = BitVec Config.commandWidth) ∧ Config.commandWidth = Config.selWidth + 3 * Config.flen ∧
    Config.flen = 1 + Config.expWidth + Config.fracWidth := ⟨rfl, rfl, rfl, rfl, rfl, rfl⟩

/-! ### The instructions -/

/-- What `exec` leaves in `R`, run right after reset. -/
def resultOf (i : Instr) : Option Word :=
  match exec i State.reset with
  | .next t => t.block.r
  | .fault _ => none
  | .refused _ => none

/-- Rule R135: a tie after cancellation. -/
theorem test_fmaInt_tie :
    resultOf (.fmaInt 0x3FF0000000000001 0x3FF0000000000001 0xBFF0000000000000) = some 0x3CC0000000000000 := by
  decide +kernel

/-- Rule R136 (e): the product alone is out of range, the sum is not. -/
theorem test_fmaInt_range :
    resultOf (.fmaInt 0x7FE0000000000000 0x4000000000000000 0xFFE0000000000000) = some 0x7FE0000000000000 := by
  decide +kernel

/-- Rule R173: the same tie. -/
theorem test_fmaDd_tie :
    resultOf (.fmaDd 0x3FF0000000000001 0x3FF0000000000001 0xBFF0000000000000) = some 0x3CC0000000000000 := by
  decide +kernel

/-- Rule R174 (c): one rounding at the bottom of the normal range. -/
theorem test_fmaDd_subnormal :
    resultOf (.fmaDd 0x3E9A94F21CFFDFC4 0x016342E393E093E6 0x8000000000000001) = some 0x000FFFFFFFFFFFFF := by
  decide +kernel

/-- Rule R209: the same tie. -/
theorem test_fmaBit_tie :
    resultOf (.fmaBit 0x3FF0000000000001 0x3FF0000000000001 0xBFF0000000000000) = some 0x3CC0000000000000 := by
  decide +kernel

/-- Rule R210 (c): a tie between one and two units of the smallest subnormal. -/
theorem test_fmaBit_subnormal_tie :
    resultOf (.fmaBit 0x0000000000000003 0x3FE0000000000000 0x0000000000000000) = some 0x0000000000000002 := by
  decide +kernel

/-! ### Primitives (spec/95_test_vectors.md sections 5 and 6) -/

theorem test_mul64to128 :
    mul64to128 0x123456789ABCDEF0 0x0FEDCBA987654321 = 0x0121FA00AD77D7422236D88FE5618CF0#128 ∧
    mul64to128 0xFFFFFFFFFFFFFFFF 0xFFFFFFFFFFFFFFFF = 0xFFFFFFFFFFFFFFFE0000000000000001#128 := by decide +kernel

theorem test_srj64 :
    srj64 0x8000000000000800 12 = 0x0008000000000001 ∧ srj64 0x8000000000000000 1000 = 1 ∧
    srj64 0x8000000000000800 11 = 0x0010000000000001 ∧ srj64 0 64 = 0 := by decide +kernel

theorem test_srj128 :
    srj128 0xC0000000000000000000000000400000#128 23 = 0x00000180000000000000000000000001#128 ∧
    srj128 0x80000000000000000000000000000000#128 128 = 1 := by decide +kernel

theorem test_roundRNE_ties :
    roundRNE (1 + 3 / 2 ^ 53) = 0x3FF0000000000002 ∧ roundRNE (2 - 1 / 2 ^ 54) = 0x4000000000000000 ∧
    roundRNE (3 / 2 ^ 1075) = 0x0000000000000002 ∧ roundRNE (-1 / 2 ^ 1075) = 0x8000000000000000 := by decide +kernel

theorem test_roundRNE_edges :
    roundRNE (2 ^ 1024 - 2 ^ 970) = 0x7FF0000000000000 ∧ roundRNE (2 ^ 1024 - 2 ^ 970 - 1) = 0x7FEFFFFFFFFFFFFF ∧
    roundRNE (1 / 2 ^ 1022 - 1 / 2 ^ 1075) = 0x0010000000000000 ∧ roundRNE (1 / 3) = 0x3FD5555555555555 := by
  decide +kernel

theorem test_intUnpack :
    intUnpack 0xC008000000000000 = ⟨true, 1, 0xC000000000000000⟩ ∧
    intUnpack 0x000FFFFFFFFFFFFF = ⟨false, -1023, 0xFFFFFFFFFFFFF000⟩ := by decide +kernel

theorem test_fadd_fsub_fmul :
    fadd 0x3FF0000000000001 0x3CA0000000000000 = 0x3FF0000000000002 ∧
    fsub 0x3FF0000000000000 0x3FF0000000000001 = 0xBCB0000000000000 ∧
    fmul 0x41A0000002000000 0x3FE0000000000001 = 0x4190000002000001 ∧
    fadd 0x8000000000000000 0x0000000000000000 = 0x0000000000000000 := by decide +kernel

theorem test_dd_pairs :
    ddSplit 0xBFE5555555555555 = (0xBFE5555558000000, 0x3E35555558000000) ∧
    ddMul 0x3FE5555555555555 0xBFE999999999999A = (0xBFE1111111111111, 0xBC61111111111110) ∧
    ddAdd 0x3FF0000000000001 0xBCA8000000000000 = (0x3FF0000000000000, 0x3C90000000000000) := by decide +kernel

theorem test_dd_frexp_scale :
    ddFrexp 0x8008000000000000 = (0xBFE0000000000000, -1022) ∧ ddFrexp 0x0000000000000003 = (0x3FE8000000000000, -1072) ∧
    ddScale 0x3FE0000000000003 (-1022) = 0x0008000000000002 ∧ ddScale 0xBFE0000000000001 (-1075) = 0x8000000000000000 := by
  decide +kernel

theorem test_bitRoundPack :
    bitRoundPack true 0x3FE 0x7FFFFFFFFFFFFE00 = 0xC000000000000000 ∧
    bitRoundPack false 0x7FD 0x7FFFFFFFFFFFFC00 = 0x7FEFFFFFFFFFFFFF ∧
    bitRoundPack true (-53) 0x4000000000000001 = 0x8000000000000001 := by decide +kernel

/-! ### The protocol (program 5 of spec/95_test_vectors.md) -/

/-- A host that drives `i` in the next step and nothing after it; `LAT` is over. -/
def drive (i : Inputs) (b : Block) : State :=
  { block := b
    host := { now := i, later := [Inputs.quiet], received := [] }
    progress := { accepted := 0, waiting := 0 } }

/-- The host offers the word `w`. -/
def offer (w : CmdWord) : Inputs := { Inputs.quiet with reqValid := true, reqCmd := w }

/-- The host takes the response. -/
def take : Inputs := { Inputs.quiet with rspReady := true }

/-- The host asserts reset. -/
def resetting : Inputs := { Inputs.quiet with rst := true }

/-- The same with `n` steps of `LAT` still to pass. -/
def delay (n : Nat) (s : State) : State := { s with progress := { s.progress with waiting := n } }

/-- The block after line 2 of program 5. -/
def accepted : Block :=
  { busy := true, sel := some 0b01#2, x := some 0x3FF8000000000000, y := some 0x4008000000000000,
    z := some 0x3FE0000000000000, r := none, rvalid := false }

/-- The block after line 3 of program 5. -/
def computed : Block := { accepted with r := some 0x4014000000000000, rvalid := true }

/-- The block the step leaves, if it answers a next state. -/
def blockAfter (s : State) : Option Block :=
  match step s with
  | .next t => some t.block
  | .fault _ => none
  | .refused _ => none

/-- Whether the step refuses the reserved selection. -/
def refusesReserved (s : State) : Bool :=
  match step s with
  | .refused r => decide (r = .reservedSelection)
  | .next _ => false
  | .fault _ => false

/-- Line 1: the reserved selection, presented to an idle block, is refused; presented to a busy one it is not served. -/
theorem test_protocol_reserved :
    refusesReserved (drive (offer 0x33FF00000000000003FF00000000000003FF0000000000000#194) Block.idle) = true ∧
    refusesReserved (drive (offer 0x33FF00000000000003FF00000000000003FF0000000000000#194) accepted) = false := by
  decide +kernel

/-- Line 2: ACCEPT. -/
theorem test_protocol_accept :
    blockAfter (drive (offer 0x13FF800000000000040080000000000003FE0000000000000#194) Block.idle) = some accepted := by
  decide +kernel

/-- Line 3: COMPUTE; and while `LAT` runs nothing changes (rule R259). -/
theorem test_protocol_compute :
    blockAfter (drive Inputs.quiet accepted) = some computed ∧ blockAfter (delay 1 (drive Inputs.quiet accepted)) = some accepted := by
  decide +kernel

/-- Line 4: another command while busy is not served. -/
theorem test_protocol_busy :
    blockAfter (drive (offer 0x23FF00000000000003FF0000000000000C000000000000000#194) computed) = some computed := by
  decide +kernel

/-- Line 5: DELIVER; line 7: reset drops the command. -/
theorem test_protocol_deliver_and_reset :
    blockAfter (drive take computed) = some Block.idle ∧ blockAfter (drive resetting computed) = some Block.idle ∧
    blockAfter (drive resetting accepted) = some Block.idle := by
  decide +kernel

/-- The host's entry runs the placed word in the very next step. -/
theorem test_withFetchWord :
    (blockAfter (State.reset.withFetchWord 200 0x23FF00000000000003FF0000000000000C000000000000000)).bind (·.r)
      = some 0xBFF0000000000000 := by
  decide +kernel

/-- `n` steps with no time between acceptance and result, one of the durations `LAT` may have. -/
def runAtOnce : Nat → State → Host.Outcome State Fault Refusal
  | 0, s => .next s
  | n + 1, s =>
    match step (delay 0 s) with
    | .next t => runAtOnce n t
    | .fault f => .fault f
    | .refused r => .refused r

/-- The host of program 5, lines 2 to 8, after reset. -/
def program5 : State :=
  { State.reset with
    host :=
      { now := offer 0x13FF800000000000040080000000000003FE0000000000000#194
        later := [Inputs.quiet, offer 0x23FF00000000000003FF0000000000000C000000000000000#194, take,
          offer 0x23FF00000000000003FF0000000000000C000000000000000#194, resetting,
          offer 0x23FF00000000000003FF0000000000000C000000000000000#194, Inputs.quiet, take]
        received := [] } }

/-- After line 8 the host has received 5.0 and -1.0, and the block is idle. -/
theorem test_program5 :
    (match runAtOnce 9 program5 with
      | .next t => decide (t.host.received = [0x4014000000000000, 0xBFF0000000000000] ∧ t.block = Block.idle)
      | .fault _ => false
      | .refused _ => false) = true := by
  decide +kernel

/-! ### The hypotheses of the obligations are met -/

/-- Each clause of `DecodeAndEncodeAreInverse`, on words with all operand bits 1 and selections 0 to 3. -/
theorem witness_DecodeAndEncodeAreInverse :
    (0x0FFFFFFFFFFFFFFFFFFFFFFFFFFFFFFFFFFFFFFFFFFFFFFFF#194).extractLsb' 192 2 = 0b00#2 ∧
    (0x1FFFFFFFFFFFFFFFFFFFFFFFFFFFFFFFFFFFFFFFFFFFFFFFF#194).extractLsb' 192 2 = 0b01#2 ∧
    (0x2FFFFFFFFFFFFFFFFFFFFFFFFFFFFFFFFFFFFFFFFFFFFFFFF#194).extractLsb' 192 2 = 0b10#2 ∧
    (0x3FFFFFFFFFFFFFFFFFFFFFFFFFFFFFFFFFFFFFFFFFFFFFFFF#194).extractLsb' 192 2 = 0b11#2 ∧
    (Instr.fmaInt 0xFFFFFFFFFFFFFFFF 0 0xFFFFFFFFFFFFFFFF).wf = true ∧
    decode 0x0FFFFFFFFFFFFFFFFFFFFFFFFFFFFFFFFFFFFFFFFFFFFFFFF#194
      = .instr (.fmaInt 0xFFFFFFFFFFFFFFFF 0xFFFFFFFFFFFFFFFF 0xFFFFFFFFFFFFFFFF) := by decide +kernel

/-- `ValidImpliesBusyIsInvariant`: a step that leaves a valid result. -/
theorem witness_ValidImpliesBusyIsInvariant :
    (∃ t, step (drive Inputs.quiet accepted) = .next t ∧ t.block.rvalid = true) ∧
    (accepted.rvalid = true → accepted.busy = true) := ⟨⟨_, rfl, rfl⟩, by decide⟩

/-- `StepKeepsLegalLatches` and `StepKeepsCorrectResult`. -/
theorem witness_StepKeepsInvariants :
    (drive Inputs.quiet accepted).wf = true ∧ (drive Inputs.quiet accepted).correct = true ∧
    (drive take computed).wf = true ∧ (drive take computed).correct = true ∧
    (∃ t, step (drive Inputs.quiet accepted) = .next t) ∧ ∃ t, step (drive take computed) = .next t :=
  ⟨by decide, by decide, by decide, by decide +kernel, ⟨_, rfl⟩, ⟨_, rfl⟩⟩

/-- `LegalBlockStopsOnlyOnReservedCommand`: a legal state for each of its two cases. -/
theorem witness_LegalBlockStopsOnlyOnReservedCommand :
    (drive Inputs.quiet accepted).wf = true ∧
    (drive (offer 0x33FF00000000000003FF00000000000003FF0000000000000#194) Block.idle).wf = true := by decide

/-- `ResetClearsTheHandshake` and the first clause of `OnlyResetDropsACommand`. -/
theorem witness_ResetClearsTheHandshake :
    (drive resetting computed).host.now.rst = true ∧ (drive resetting computed).block.busy = true := by decide

/-- `OnlyResetDropsACommand`, second clause: a delivery ends the command without reset. -/
theorem witness_OnlyResetDropsACommand_delivery :
    (drive take computed).host.now.rst = false ∧ (drive take computed).block.busy = true ∧
    ∃ t, step (drive take computed) = .next t ∧ t.block.busy = false := ⟨by decide, by decide, ⟨_, rfl, rfl⟩⟩

/-- `OnlyResetDropsACommand`, third clause, and `ResultDependsOnlyOnTheCommand`: one command computed in two states that
differ in the host's side. -/
theorem witness_SameCommandTwice :
    (drive Inputs.quiet accepted).block.command? = (drive take accepted).block.command? ∧
    (drive Inputs.quiet accepted).block.command?.isSome = true ∧ drive Inputs.quiet accepted ≠ drive take accepted ∧
    (drive Inputs.quiet accepted).block.rvalid = false ∧
    (∃ t, step (drive Inputs.quiet accepted) = .next t ∧ t.block.rvalid = true) ∧
    ∃ t, step (drive take accepted) = .next t ∧ t.block.rvalid = true :=
  ⟨by decide, by decide, by decide, by decide, ⟨_, rfl, rfl⟩, ⟨_, rfl, rfl⟩⟩

/-- `AcceptLatchesTheCommand` and `ReservedCommandIsRefused`: an idle block offered the last assigned selection, the
reserved one, and nothing. -/
theorem witness_AcceptLatchesTheCommand :
    Block.idle.busy = false ∧ (offer 0x23FF00000000000003FF0000000000000C000000000000000#194).rst = false ∧
    (offer 0x23FF00000000000003FF0000000000000C000000000000000#194).reqValid = true ∧
    (offer 0x23FF00000000000003FF0000000000000C000000000000000#194).reqCmd.extractLsb' 192 2 ≠ 0b11#2 ∧
    (offer 0x33FF00000000000003FF00000000000003FF0000000000000#194).reqCmd.extractLsb' 192 2 = 0b11#2 ∧
    Inputs.quiet.reqValid = false := by decide

/-- A block that already holds the reserved selection: the second clause of `ReservedCommandIsRefused`. No legal state is
one. -/
theorem witness_ReservedCommandIsRefused :
    ∃ t, step (delay 1 (drive Inputs.quiet { accepted with sel := some 0b11#2 })) = .next t ∧ t.block.sel = some 0b11#2 :=
  ⟨_, rfl, rfl⟩

/-- `StepRunsTheDecodedInstruction` and the first clause of `ComputeAlwaysCompletes`. -/
theorem witness_StepRunsTheDecodedInstruction :
    (drive Inputs.quiet accepted).host.now.rst = false ∧ accepted.busy = true ∧ accepted.rvalid = false ∧
    (drive Inputs.quiet accepted).progress.waiting = 0 ∧
    accepted.command? = some ⟨0b01#2, 0x3FF8000000000000, 0x4008000000000000, 0x3FE0000000000000⟩ ∧
    (Command.mk 0b01#2 0x3FF8000000000000 0x4008000000000000 0x3FE0000000000000).decode
      = .instr (.fmaDd 0x3FF8000000000000 0x4008000000000000 0x3FE0000000000000) ∧
    decodeTableWord 200 0x13FF800000000000040080000000000003FE0000000000000
      = some (.fmaDd 0x3FF8000000000000 0x4008000000000000 0x3FE0000000000000) := by decide

/-- `ComputeAlwaysCompletes`, first clause: each of the three selections names its path's result. -/
theorem witness_ComputeAlwaysCompletes_paths :
    (∃ v, (0b00#2 = 0b00#2 ∧ v = fmaInteger 1 2 3)) ∧ (∃ v, (0b01#2 = 0b01#2 ∧ v = fmaExtended 1 2 3)) ∧
    ∃ v, (0b10#2 = 0b10#2 ∧ v = fmaDirect 1 2 3) := ⟨⟨_, rfl, rfl⟩, ⟨_, rfl, rfl⟩, ⟨_, rfl, rfl⟩⟩

/-- `ComputeAlwaysCompletes`, second and third clause: a command with three steps still to wait, and one accepted by the
next step. -/
theorem witness_ComputeAlwaysCompletes_waiting :
    (delay 3 (drive Inputs.quiet accepted)).wf = true ∧ (delay 3 (drive Inputs.quiet accepted)).block.busy = true ∧
    (delay 3 (drive Inputs.quiet accepted)).block.rvalid = false ∧
    (delay 3 (drive Inputs.quiet accepted)).resetFree = true ∧
    (drive (offer 0x13FF800000000000040080000000000003FE0000000000000#194) Block.idle).wf = true ∧
    (drive (offer 0x13FF800000000000040080000000000003FE0000000000000#194) Block.idle).resetFree = true ∧
    (drive (offer 0x13FF800000000000040080000000000003FE0000000000000#194) Block.idle).accepts
      = some ⟨0b01#2, 0x3FF8000000000000, 0x4008000000000000, 0x3FE0000000000000⟩ := by decide

/-- `DeliverHandsOverTheResult`. -/
theorem witness_DeliverHandsOverTheResult :
    (drive take computed).host.now.rst = false ∧ computed.busy = true ∧ computed.rvalid = true ∧
    (drive take computed).host.now.rspReady = true ∧ computed.r = some 0x4014000000000000 := by decide

/-- `ResponseStandsUntilTaken`. -/
theorem witness_ResponseStandsUntilTaken :
    (drive Inputs.quiet computed).wf = true ∧ (drive Inputs.quiet computed).block.rvalid = true ∧
    ∀ i ∈ (drive Inputs.quiet computed).host.now :: (drive Inputs.quiet computed).host.later,
      i.rst = false ∧ i.rspReady = false := by decide

/-- `RequestPortIgnoredWhileBusy`. -/
theorem witness_RequestPortIgnoredWhileBusy :
    (drive Inputs.quiet accepted).block.busy = true ∧
    ∃ t, step (drive Inputs.quiet accepted) = .next t ∧ t.block.busy = true := ⟨by decide, ⟨_, rfl, rfl⟩⟩

/-- `ResponsesComeInCommandOrder`: a run from a correct state that delivers, and a step that accepts. -/
theorem witness_ResponsesComeInCommandOrder :
    (drive take computed).correct = true ∧ (drive take computed).resetFree = true ∧
    (∃ t, runSteps 2 (drive take computed) = .next t) ∧
    (drive (offer 0x13FF800000000000040080000000000003FE0000000000000#194) Block.idle).accepts
      = some ⟨0b01#2, 0x3FF8000000000000, 0x4008000000000000, 0x3FE0000000000000⟩ :=
  ⟨by decide +kernel, by decide, ⟨_, rfl⟩, by decide⟩

/-- The special rows S1 to S7, one line of spec/95_test_vectors.md section 2 each, and operands under no row: the
hypotheses of the three special-row obligations and of `AnyNanGivesTheQuietNan`. -/
theorem witness_SpecialRows :
    specialRow 0x7FF0000000000001 0x3FF0000000000000 0x3FF0000000000000 = some 0x7FF8000000000000 ∧
    specialRow 0x7FF0000000000000 0x8000000000000000 0x4014000000000000 = some 0x7FF8000000000000 ∧
    specialRow 0x7FF0000000000000 0x4000000000000000 0xFFF0000000000000 = some 0x7FF8000000000000 ∧
    specialRow 0xFFF0000000000000 0x0000000000000001 0x3FF0000000000000 = some 0xFFF0000000000000 ∧
    specialRow 0x7E37E43C8800759C 0x7E37E43C8800759C 0xFFF0000000000000 = some 0xFFF0000000000000 ∧
    specialRow 0x8000000000000000 0x4014000000000000 0x8000000000000000 = some 0x8000000000000000 ∧
    specialRow 0x8000000000000000 0x7FEFFFFFFFFFFFFF 0x0000000000000001 = some 0x0000000000000001 ∧
    specialRow 0x0000000000000001 0x7FEFFFFFFFFFFFFF 0x0000000000000000 = none ∧
    isNan 0x7FF0000000000001 = true ∧ isNan 0xFFFFFFFFFFFFFFFF = true := by decide +kernel

/-- `OnlyTheCanonicalNanComesOut`: an invalid operation (row S2). -/
theorem witness_OnlyTheCanonicalNanComesOut :
    ∃ t, exec (.fmaBit 0x7FF0000000000000 0 0) State.reset = .next t ∧ ∃ r, t.block.r = some r ∧ isNan r = true :=
  ⟨_, rfl, _, rfl, by decide +kernel⟩

/-- `ContractSymmetries`: the hypotheses of (c), (d) and (e). -/
theorem witness_ContractSymmetries :
    isNan (fmaContract 0x3FF0000000000000 0x3FF0000000000000 0x3FF0000000000000) = false ∧
    exactValue 0x3FF0000000000000 0x3FF0000000000000 0x3FF0000000000000 ≠ 0 ∧
    isNan 0xFFF0000000000000 = false ∧ isFinite 0x0000000000000001 = true ∧ isZero 0x0000000000000001 = false ∧
    isFinite 0xFFEFFFFFFFFFFFFF = true ∧ isZero 0xFFEFFFFFFFFFFFFF = false := by decide +kernel

/-- `ContractZeroSigns`: exact cancellation; both ways to `-0`; rows S5 and S7. -/
theorem witness_ContractZeroSigns :
    val 0xBFF8000000000000 * val 0x4008000000000000 = - val 0x4012000000000000 ∧
    isZero 0x8000000000000000 = true ∧ (sign 0x8000000000000000 ^^ sign 0x4014000000000000) = true ∧
    specialRow 0x0000000000000001 0x8000000000000001 0x0000000000000000 = none ∧
    exactValue 0x0000000000000001 0x8000000000000001 0x0000000000000000 < 0 ∧
    roundRNE (exactValue 0x0000000000000001 0x8000000000000001 0x0000000000000000) = zero true ∧
    isInf 0xFFF0000000000000 = true ∧ isFinite 0x800FFFFFFFFFFFFF = true ∧ isZero 0x800FFFFFFFFFFFFF = false := by
  decide +kernel

/-- The rounding obligations: values just inside the overflow threshold and at half the smallest subnormal, a
representable value at each end of the range, and a pair for monotony. -/
theorem witness_Rounding :
    ((2 : ℚ) ^ 1024 - 2 ^ 970 - 1 ≠ 0 ∧ |(2 : ℚ) ^ 1024 - 2 ^ 970 - 1| < 2 ^ 1024 - 2 ^ 970) ∧
    ((-1 / 2 ^ 1075 : ℚ) ≠ 0 ∧ |(-1 / 2 ^ 1075 : ℚ)| ≤ (2 : ℚ) ^ (-1075 : ℤ)) ∧
    (isFinite 0x0000000000000001 = true ∧ isZero 0x0000000000000001 = false) ∧
    (isFinite 0xFFEFFFFFFFFFFFFF = true ∧ isZero 0xFFEFFFFFFFFFFFFF = false) ∧
    (-1 / 2 ^ 1075 : ℚ) ≤ 1 / 3 ∧ isFinite (roundRNE (-1 / 2 ^ 1075)) = true ∧ isFinite (roundRNE (1 / 3)) = true := by
  decide +kernel

/-- The unpacking and product obligations of the integer and bit-packed paths, `FrexpIsExact` and
`ScalePrimitiveRoundsOnce`: the smallest and the largest subnormal, the smallest and the largest normal. -/
theorem witness_FiniteOperands :
    (isFinite 0x0000000000000001 = true ∧ isZero 0x0000000000000001 = false ∧ isSub 0x0000000000000001 = true) ∧
    (isFinite 0x800FFFFFFFFFFFFF = true ∧ isZero 0x800FFFFFFFFFFFFF = false ∧ isSub 0x800FFFFFFFFFFFFF = true) ∧
    (isFinite 0x0010000000000000 = true ∧ isZero 0x0010000000000000 = false ∧ isNormal 0x0010000000000000 = true) ∧
    (isFinite 0xFFEFFFFFFFFFFFFF = true ∧ isZero 0xFFEFFFFFFFFFFFFF = false ∧ isNormal 0xFFEFFFFFFFFFFFFF = true) := by
  decide

/-- `IntegerRoundPackRoundsOnce`, `IntegerExponentsStayInRange` (a sum that is not an exact zero) and
`BitRoundPackRoundsOnce`. -/
theorem witness_RoundPack :
    (0x8000000000000000#64).getLsbD 63 = true ∧ (0xFFFFFFFFFFFFFFFF#64).getLsbD 63 = true ∧
    (intSum (intUnpack 1) (intUnpack 1) (intUnpack 0xFFEFFFFFFFFFFFFF)).isSome = true ∧
    2 ^ 62 ≤ (0x4000000000000000#64).toNat ∧ (0x7FFFFFFFFFFFFFFF#64).toNat < 2 ^ 63 ∧
    2 ^ 62 ≤ (0x7FFFFFFFFFFFFFFF#64).toNat := by decide +kernel

/-- `NormalizeTwoKeepsTheValue`: the leading 1 at the bottom and at the top; the distance `j` is not positive in the first
and positive in the second. -/
theorem witness_NormalizeTwoKeepsTheValue :
    (1#128 ≠ 0#128 ∧ (1#128).toNat < 2 ^ 126 ∧ (bitNormalize2 false 1#128 0).e - 0 + 64 ≤ 0) ∧
    ((1#128 <<< 125) ≠ 0#128 ∧ (1#128 <<< 125).toNat < 2 ^ 126 ∧
      0 < (bitNormalize2 false (1#128 <<< 125) 0).e - 0 + 64) := by decide +kernel

/-- `ScaledRoundingIsRoundRNE`, and the clauses of `AdditionPrimitivesRoundOnce`. -/
theorem witness_AdditionPrimitivesRoundOnce :
    (-1 : Int) ≠ 0 ∧ isNan 0x7FF0000000000001 = true ∧ isNan 0xFFF0000000000000 = false ∧
    isFinite 0x7FEFFFFFFFFFFFFF = true ∧ val 0x7FEFFFFFFFFFFFFF ≠ val 0x0000000000000000 := by decide +kernel

/-- `ScalePrimitiveRoundsOnce`: each clause at its bound, 0.5 scaled to the smallest subnormal, to half of it, and to
`2^1024`. -/
theorem witness_ScalePrimitiveRoundsOnce :
    val 0x0000000000000001 = val 0x3FE0000000000000 * (2 : ℚ) ^ (-1073 : ℤ) ∧
    |val 0x3FE0000000000000| * (2 : ℚ) ^ (-1074 : ℤ) ≤ (2 : ℚ) ^ (-1075 : ℤ) ∧
    (2 : ℚ) ^ 1024 - 2 ^ 970 ≤ |val 0x3FE0000000000000| * (2 : ℚ) ^ (1025 : ℤ) := by decide +kernel

/-- `SplitIsExact`, `ProductPairIsErrorFree` and `PrintedSplitAndProductBounds`: both ends of ±[0.5, 1). -/
theorem witness_SignificandOperands :
    (isFinite 0x3FE0000000000000 = true ∧ 1 / 2 ≤ |val 0x3FE0000000000000| ∧ |val 0x3FE0000000000000| < 1) ∧
    (isFinite 0xBFEFFFFFFFFFFFFF = true ∧ 1 / 2 ≤ |val 0xBFEFFFFFFFFFFFFF| ∧ |val 0xBFEFFFFFFFFFFFFF| < 1) := by
  decide +kernel

/-- `SumPairIsErrorFree`: the largest pattern below the bound, and the smallest subnormal. -/
theorem witness_SumPairIsErrorFree :
    isFinite 0x7FCFFFFFFFFFFFFF = true ∧ |val 0x7FCFFFFFFFFFFFFF| < 2 ^ 1022 ∧
    isFinite 0x8000000000000001 = true ∧ |val 0x8000000000000001| < 2 ^ 1022 := by decide +kernel

/-- `FarAddendIsReturned` at its boundary, spread -55, and far below it (the addend `2^53` of spec/95_test_vectors.md). -/
theorem witness_FarAddendIsReturned :
    (isFinite 0x3FE0000000000000 = true ∧ isZero 0x3FE0000000000000 = false ∧ isFinite 0x3C88000000000000 = true ∧
      isZero 0x3C88000000000000 = false ∧ isFinite 0xBFF0000000000000 = true ∧ isZero 0xBFF0000000000000 = false ∧
      (ddFrexp 0x3FE0000000000000).2 + (ddFrexp 0x3C88000000000000).2 - (ddFrexp 0xBFF0000000000000).2 = -55) ∧
    (ddFrexp 0x3FF0000000000000).2 + (ddFrexp 0x0010000000000000).2 - (ddFrexp 0x4340000000000000).2 ≤ -55 := by
  decide +kernel

end Sys2Proof.Tests
end

section
/-! PROOFS. The block's state (spec/10_state.md): the reset state, the handshake invariant, the delivery of a response,
and the result as a function of the latched command. -/

namespace Sys2Proof.Machine

/-! ### What a step leaves in the latches -/

/-- Rule R24 is kept by every step: only COMPUTE raises `RVALID`, and it does so with `BUSY` set. -/
theorem step_keeps_rvalid_imp_busy {s t : State} (h : step s = .next t)
    (hs : s.block.rvalid = true → s.block.busy = true) : t.block.rvalid = true → t.block.busy = true := by
  obtain ⟨-, rfl⟩ | ⟨-, -, -, -, rfl⟩ | ⟨-, -, -, rfl⟩ | ⟨-, hb, -, -, c, r, -, -, rfl⟩ | ⟨-, -, -, -, rfl⟩ |
    ⟨-, -, -, -, r, -, rfl⟩ | ⟨-, -, -, -, rfl⟩ := step_next_cases h
  · simp -- reset
  · simp -- ACCEPT
  · simpa using hs -- nothing offered
  · simp [hb] -- COMPUTE
  · simpa using hs -- waiting
  · simp -- DELIVER
  · simpa using hs -- response standing

/-- A step that raises `RVALID` is COMPUTE, so `R` is then the response of the command in the latches (rule R31). -/
theorem step_r_of_rvalid_raised {s t : State} (h : step s = .next t) (hs : s.block.rvalid = false)
    (ht : t.block.rvalid = true) : t.block.r = s.block.command?.bind commandResponse := by
  obtain ⟨-, rfl⟩ | ⟨-, -, -, -, rfl⟩ | ⟨-, -, -, rfl⟩ | ⟨-, -, -, -, c, r, hc, hr, rfl⟩ | ⟨-, -, -, -, rfl⟩ |
    ⟨-, -, hv, -⟩ | ⟨-, -, hv, -⟩ := step_next_cases h
  · simp at ht -- reset
  · simp [hs] at ht -- ACCEPT
  · simp [hs] at ht -- nothing offered
  · simp [hc, hr] -- COMPUTE
  · simp [hs] at ht -- waiting
  · simp [hs] at hv -- DELIVER
  · simp [hs] at hv -- response standing

/-- The command in flight is read from `SEL`, `X`, `Y` and `Z` alone (rule R23). -/
theorem Block.command?_congr {a b : Block} (hsel : a.sel = b.sel) (hx : a.x = b.x) (hy : a.y = b.y) (hz : a.z = b.z) :
    a.command? = b.command? := by
  simp only [Block.command?, hsel, hx, hy, hz]

/-- DELIVER happens whenever a valid response meets a ready host outside reset (rule R32). -/
theorem step_eq_deliver {s : State} {r : Word} (hrst : s.host.now.rst = false) (hbusy : s.block.busy = true)
    (hvalid : s.block.rvalid = true) (hready : s.host.now.rspReady = true) (hr : s.block.r = some r) :
    step s = .next (s.advance.deliver r) := by
  simp [step, react, responseSide, hrst, hbusy, hvalid, hready, hr]

/-! ### The obligations -/

/-- Settles O6: `RVALID` is 0 at reset, and each of the seven steps keeps the implication. -/
theorem validImpliesBusyIsInvariant : Obligations.ValidImpliesBusyIsInvariant :=
  ⟨by simp, fun _ _ hs h => step_keeps_rvalid_imp_busy h hs⟩

/-- Settles O20: both results are the response of the command in the latches, and the two commands are the same. -/
theorem resultDependsOnlyOnTheCommand : Obligations.ResultDependsOnlyOnTheCommand := by
  intro s₁ s₂ t₁ t₂ hsel hx hy hz hv₁ hv₂ h₁ h₂ hr₁ hr₂
  calc t₁.block.r
      = s₁.block.command?.bind commandResponse := step_r_of_rvalid_raised h₁ hv₁ hr₁
    _ = s₂.block.command?.bind commandResponse := by rw [Block.command?_congr hsel hx hy hz]
    _ = t₂.block.r := (step_r_of_rvalid_raised h₂ hv₂ hr₂).symm

/-- Settles O4: the block after reset is the idle one, whose ports offer to accept and show no response. -/
theorem resetStateIsIdle : Obligations.ResetStateIsIdle := by
  simp [Obligations.ResetStateIsIdle, Block.rspResult]

/-- Settles O17: the step is DELIVER, which appends `R` to what the host received and leaves the idle block. -/
theorem deliverHandsOverTheResult : Obligations.DeliverHandsOverTheResult := by
  intro s r hrst hbusy hvalid hready hr
  refine ⟨s.advance.deliver r, step_eq_deliver hrst hbusy hvalid hready hr, ?_⟩
  simp

end Sys2Proof.Machine
end

section
/-! PROOFS. The order of the responses (spec/20_memory.md rule R46): what every step keeps along a run without reset, and
the account of the responses received, owed and still to come. -/

namespace Sys2Proof.Machine

/-! ### What a correct state knows of a valid result -/

/-- A valid result is there and is the response of the command in flight (rule R22, `RVALID`). -/
theorem Block.holdsResult_iff {b : Block} : b.holdsResult = true ↔
    (b.rvalid = true → b.r.isSome = true ∧ b.r = b.command?.bind commandResponse) := by
  cases hv : b.rvalid <;> simp [Block.holdsResult, hv]

/-- A legal block with a valid result is busy (rule R24). -/
theorem Block.busy_of_wf {b : Block} (h : b.wf = true) (hv : b.rvalid = true) : b.busy = true := by
  cases hb : b.busy
  · simp [Block.wf, hv, hb] at h
  · rfl

/-- Every step keeps "a valid `R` is the response of the command in flight", where rule R24 holds: ACCEPT replaces the
command only while no result is valid. -/
theorem step_keeps_holdsResult {s t : State} (h : step s = .next t)
    (hbusy : s.block.rvalid = true → s.block.busy = true) (hs : s.block.holdsResult = true) :
    t.block.holdsResult = true := by
  rw [Block.holdsResult_iff] at hs ⊢
  obtain ⟨-, rfl⟩ | ⟨-, hb, -, -, rfl⟩ | ⟨-, -, -, rfl⟩ | ⟨-, -, -, -, c, r, hc, hr, rfl⟩ | ⟨-, -, -, -, rfl⟩ |
    ⟨-, -, -, -, r, -, rfl⟩ | ⟨-, -, -, -, rfl⟩ := step_next_cases h
  · simp -- reset
  · have hv : s.block.rvalid = false := by simpa [hb] using hbusy -- ACCEPT
    simp [hv]
  · simpa using hs -- nothing offered
  · simp [hc, hr] -- COMPUTE
  · simpa using hs -- waiting
  · simp -- DELIVER
  · simpa using hs -- response standing

/-! ### The host's script in a step -/

/-- In every step the input ports move on as the host's script says, whatever the block does (rule R25). -/
theorem step_now_later {s t : State} (h : step s = .next t) :
    t.host.now = s.advance.host.now ∧ t.host.later = s.advance.host.later := by
  obtain ⟨-, rfl⟩ | ⟨-, -, -, -, rfl⟩ | ⟨-, -, -, rfl⟩ | ⟨-, -, -, -, c, r, -, -, rfl⟩ | ⟨-, -, -, -, rfl⟩ |
    ⟨-, -, -, -, r, -, rfl⟩ | ⟨-, -, -, -, rfl⟩ := step_next_cases h <;> exact ⟨rfl, rfl⟩

theorem State.resetFree_iff {s : State} :
    s.resetFree = true ↔ s.host.now.rst = false ∧ ∀ i ∈ s.host.later, i.rst = false := by
  simp [State.resetFree]

/-- A script without reset has none after its next entry either. -/
theorem State.resetFree_advance {s : State} (h : s.resetFree = true) : s.advance.resetFree = true := by
  cases hl : s.host.later with
  | nil => rwa [State.advance_of_nil hl]
  | cons i is =>
    obtain ⟨-, hlater⟩ := State.resetFree_iff.mp h
    simpa [State.resetFree_iff, State.advance_now_of_cons hl, hl] using hlater

/-- A step keeps the host free of reset. -/
theorem step_keeps_resetFree {s t : State} (h : step s = .next t) (hs : s.resetFree = true) : t.resetFree = true := by
  obtain ⟨hnow, hlater⟩ := step_now_later h
  rw [State.resetFree, hnow, hlater]
  exact State.resetFree_advance hs

/-! ### What a state owes and accepts -/

theorem State.owed_of_idle {s : State} (h : s.block.busy = false) : s.owed = [] := by simp [State.owed, h]

theorem State.owed_of_busy {s : State} (h : s.block.busy = true) :
    s.owed = [s.block.command?.bind commandResponse] := by simp [State.owed, h]

/-- One command in flight at most (rule R8, decision D5). -/
theorem State.owed_length_le_one (s : State) : s.owed.length ≤ 1 := by
  cases hb : s.block.busy
  · simp [State.owed_of_idle hb]
  · simp [State.owed_of_busy hb]

@[simp] theorem State.owed_accept (c : Command) (s : State) : (s.accept c).owed = [commandResponse c] := rfl
@[simp] theorem State.owed_complete (r : Word) (s : State) : (s.complete r).owed = s.owed := rfl
@[simp] theorem State.owed_wait (s : State) : s.wait.owed = s.owed := rfl
@[simp] theorem State.owed_deliver (r : Word) (s : State) : (s.deliver r).owed = [] := rfl
@[simp] theorem State.owed_advance (s : State) : s.advance.owed = s.owed := by simp [State.owed]

/-- ACCEPT's enabling condition (rules R30 and R66), and the command it takes. -/
theorem State.accepts_eq_some_iff {s : State} {c : Command} : s.accepts = some c ↔
    s.host.now.rst = false ∧ s.block.busy = false ∧ s.host.now.reqValid = true ∧
      (Command.ofWord s.host.now.reqCmd).sel ≠ 0b11#2 ∧ c = Command.ofWord s.host.now.reqCmd := by
  rw [eq_comm (a := c)]
  simp [State.accepts, Command.wf, and_assoc]

theorem State.accepts_of_busy {s : State} (h : s.block.busy = true) : s.accepts = none := by
  simp [State.accepts, h]

theorem State.accepts_of_not_reqValid {s : State} (h : s.host.now.reqValid = false) : s.accepts = none := by
  simp [State.accepts, h]

/-! ### The account of the responses -/

/-- The responses a state accounts for: those the host has received, then the one still owed. -/
def State.responses (s : State) : List (Option Word) := s.host.received.map some ++ s.owed

/-- A step without reset adds to the account exactly the response of the command it accepts: DELIVER moves the one owed to
those received, and it is the one due because `R` holds it. -/
theorem step_responses {s t : State} (h : step s = .next t) (hrst : s.host.now.rst = false)
    (hs : s.block.holdsResult = true) :
    t.responses = s.responses ++ s.accepts.toList.map commandResponse := by
  obtain ⟨hr, -⟩ | ⟨-, hb, hv, hsel, rfl⟩ | ⟨-, -, hv, rfl⟩ | ⟨-, hb, -, -, c, r, -, -, rfl⟩ | ⟨-, hb, -, -, rfl⟩ |
    ⟨-, hb, hv, -, r, hr, rfl⟩ | ⟨-, hb, -, -, rfl⟩ := step_next_cases h
  · simp [hrst] at hr -- reset
  · have ha := State.accepts_eq_some_iff.mpr ⟨hrst, hb, hv, hsel, rfl⟩ -- ACCEPT
    simp [State.responses, ha, State.owed_of_idle hb]
  · simp [State.responses, State.accepts_of_not_reqValid hv] -- nothing offered
  · simp [State.responses, State.accepts_of_busy hb] -- COMPUTE
  · simp [State.responses, State.accepts_of_busy hb] -- waiting
  · obtain ⟨-, hdue⟩ := Block.holdsResult_iff.mp hs hv -- DELIVER
    simp [State.responses, State.accepts_of_busy hb, State.owed_of_busy hb, ← hdue, hr]
  · simp [State.responses, State.accepts_of_busy hb] -- response standing

/-! ### Runs -/

/-- A run of `n + 1` steps that does not stop is a step and a run of `n`. -/
theorem runSteps_succ_eq_next {n : Nat} {s t : State} :
    runSteps (n + 1) s = .next t ↔ ∃ u, step s = .next u ∧ runSteps n u = .next t := by
  simp only [runSteps, Host.Core.run]
  constructor
  · intro h
    split at h
    · next u hu => exact ⟨u, hu, h⟩
    · cases h
    · cases h
  · rintro ⟨u, hu, hrun⟩
    rw [show Sys2Proof.core.step s = .next u from hu]
    exact hrun

theorem acceptedIn_succ_of_next {n : Nat} {s u : State} (h : step s = .next u) :
    acceptedIn (n + 1) s = s.accepts.toList ++ acceptedIn n u := by
  simp [acceptedIn, h]

/-- Along a run without reset the account grows by the responses of the accepted commands, in the order of acceptance. -/
theorem runSteps_responses {n : Nat} {s t : State} (hbusy : s.block.rvalid = true → s.block.busy = true)
    (hres : s.block.holdsResult = true) (hfree : s.resetFree = true) (h : runSteps n s = .next t) :
    t.responses = s.responses ++ (acceptedIn n s).map commandResponse := by
  induction n generalizing s with
  | zero =>
    cases h
    simp [acceptedIn]
  | succ n ih =>
    obtain ⟨u, hstep, hrun⟩ := runSteps_succ_eq_next.mp h
    have hu := ih (step_keeps_rvalid_imp_busy hstep hbusy) (step_keeps_holdsResult hstep hbusy hres)
      (step_keeps_resetFree hstep hfree) hrun
    obtain ⟨hrst, -⟩ := State.resetFree_iff.mp hfree
    rw [hu, step_responses hstep hrst hres, acceptedIn_succ_of_next hstep, List.map_append, List.append_assoc]

/-! ### The obligation -/

/-- Settles O21, by induction on the number of steps: the account of the responses is kept by each, and a command is
accepted only by an idle block, which owes none. -/
theorem responsesComeInCommandOrder : Obligations.ResponsesComeInCommandOrder := by
  refine ⟨fun n s t hs hfree hrun => ⟨?_, t.owed_length_le_one⟩, fun s c hacc => ?_⟩
  · obtain ⟨hwf, hres⟩ : s.block.wf = true ∧ s.block.holdsResult = true := by simpa [State.correct] using hs
    exact runSteps_responses (Block.busy_of_wf hwf) hres hfree hrun
  · obtain ⟨-, hidle, -, -, hc⟩ := State.accepts_eq_some_iff.mp hacc
    exact ⟨State.owed_of_idle hidle, hc⟩

end Sys2Proof.Machine
end

section
/-! PROOFS. Decoding and encoding of the command word (spec/30_encoding.md rules R60 to R69): a word is its four fields,
a command is its instruction, and the mask and match of the opcode table read the selection. -/

namespace Sys2Proof

/-! ### A command word is its four fields -/

theorem Command.toNat_ofWord_sel (w : CmdWord) : (Command.ofWord w).sel.toNat = w.toNat / 2 ^ 192 := by
  have := w.isLt
  simp only [Command.ofWord, BitVec.extractLsb'_toNat, Nat.shiftRight_eq_div_pow]
  omega

theorem Command.toNat_ofWord_x (w : CmdWord) : (Command.ofWord w).x.toNat = w.toNat / 2 ^ 128 % 2 ^ 64 := by
  simp only [Command.ofWord, BitVec.extractLsb'_toNat, Nat.shiftRight_eq_div_pow]

theorem Command.toNat_ofWord_y (w : CmdWord) : (Command.ofWord w).y.toNat = w.toNat / 2 ^ 64 % 2 ^ 64 := by
  simp only [Command.ofWord, BitVec.extractLsb'_toNat, Nat.shiftRight_eq_div_pow]

theorem Command.toNat_ofWord_z (w : CmdWord) : (Command.ofWord w).z.toNat = w.toNat % 2 ^ 64 := by
  simp [Command.ofWord]

/-- A field of `k` bits placed at bit `n` of a command word that has room for it loses nothing. -/
theorem toNat_field_shiftLeft {k n : Nat} (v : BitVec k) (h : k + n ≤ 194) :
    (v.setWidth 194 <<< n).toNat = v.toNat <<< n := by
  have hv : v.toNat <<< n < 2 ^ 194 := by
    rw [Nat.shiftLeft_eq]
    calc v.toNat * 2 ^ n < 2 ^ k * 2 ^ n := Nat.mul_lt_mul_of_pos_right v.isLt (Nat.two_pow_pos n)
      _ = 2 ^ (k + n) := (pow_add ..).symm
      _ ≤ 2 ^ 194 := Nat.pow_le_pow_right (by norm_num) h
  rw [BitVec.toNat_shiftLeft, BitVec.toNat_setWidth_of_le (by omega), Nat.mod_eq_of_lt hv]

/-- The fields do not overlap, so their OR is their sum (rule R69). -/
theorem Command.toNat_toWord (c : Command) :
    c.toWord.toNat = c.sel.toNat * 2 ^ 192 + c.x.toNat * 2 ^ 128 + c.y.toNat * 2 ^ 64 + c.z.toNat := by
  have hx := c.x.isLt
  have hy := c.y.isLt
  have hz := c.z.isLt
  have hyz := Nat.shiftLeft_add_eq_or_of_lt hz c.y.toNat
  have hxyz := Nat.shiftLeft_add_eq_or_of_lt (i := 128) (b := c.y.toNat <<< 64 + c.z.toNat)
    (by rw [Nat.shiftLeft_eq]; omega) c.x.toNat
  have hall := Nat.shiftLeft_add_eq_or_of_lt (i := 192) (b := c.x.toNat <<< 128 + (c.y.toNat <<< 64 + c.z.toNat))
    (by simp only [Nat.shiftLeft_eq]; omega) c.sel.toNat
  simp only [Command.toWord, BitVec.toNat_or]
  rw [toNat_field_shiftLeft _ (by omega), toNat_field_shiftLeft _ (by omega), toNat_field_shiftLeft _ (by omega),
    BitVec.toNat_setWidth_of_le (by omega), Nat.or_assoc, Nat.or_assoc, ← hyz, ← hxyz, ← hall]
  simp only [Nat.shiftLeft_eq]
  omega

/-- Two commands with the same fields are the same. -/
theorem Command.ext {c d : Command} (hsel : c.sel = d.sel) (hx : c.x = d.x) (hy : c.y = d.y) (hz : c.z = d.z) :
    c = d := by
  cases c
  cases d
  simp_all

/-- The four fields read back from the word built of them (rule R69). -/
@[simp] theorem Command.ofWord_toWord (c : Command) : Command.ofWord c.toWord = c := by
  have hw := c.toNat_toWord
  have hx := c.x.isLt
  have hy := c.y.isLt
  have hz := c.z.isLt
  apply Command.ext
  · exact Laws.sel_toWord c
  · exact BitVec.eq_of_toNat_eq (by rw [Command.toNat_ofWord_x]; omega)
  · exact BitVec.eq_of_toNat_eq (by rw [Command.toNat_ofWord_y]; omega)
  · exact BitVec.eq_of_toNat_eq (by rw [Command.toNat_ofWord_z]; omega)

/-- The four fields are all of a command word (rule R60). -/
@[simp] theorem Command.toWord_ofWord (w : CmdWord) : (Command.ofWord w).toWord = w := by
  apply BitVec.eq_of_toNat_eq
  rw [Command.toNat_toWord, Command.toNat_ofWord_sel, Command.toNat_ofWord_x, Command.toNat_ofWord_y,
    Command.toNat_ofWord_z]
  omega

/-! ### A command that is not reserved is its instruction -/

/-- A command decodes to an instruction exactly when it is that instruction's command (rule R62). -/
theorem Command.decode_eq_instr_iff {c : Command} {i : Instr} : c.decode = .instr i ↔ c = i.toCommand := by
  constructor
  · obtain ⟨sel, x, y, z⟩ := c
    intro h
    simp only [Command.decode] at h
    split at h
    · next hs => cases h; rw [hs]; rfl
    · split at h
      · next hs => cases h; rw [hs]; rfl
      · split at h
        · next hs => cases h; rw [hs]; rfl
        · cases h
  · rintro rfl
    cases i <;> rfl

/-- The same for command words. -/
theorem decode_eq_instr_iff {w : CmdWord} {i : Instr} : decode w = .instr i ↔ Command.ofWord w = i.toCommand :=
  Command.decode_eq_instr_iff

/-- Decode after encode is the identity (rule R69). -/
@[simp] theorem decode_encode (i : Instr) : decode (encode i) = .instr i := by
  rw [decode_eq_instr_iff, encode, Command.ofWord_toWord]

/-- Encode after decode is the identity (rule R69). -/
theorem encode_of_decode {w : CmdWord} {i : Instr} (h : decode w = .instr i) : encode i = w := by
  rw [encode, ← decode_eq_instr_iff.mp h, Command.toWord_ofWord]

/-- A word with the reserved selection is rejected by name (rules R66 and R69). -/
theorem decode_of_sel_reserved {w : CmdWord} (h : w.extractLsb' 192 2 = 0b11#2) :
    decode w = .rejected .reservedSelection :=
  (Machine.command_decode_rejected_iff (Command.ofWord w)).mpr h

/-- A word decodes to `FMA.INT` exactly when its selection is `0b00`. -/
theorem decode_eq_fmaInt_iff {w : CmdWord} {x y z : Word} : decode w = .instr (.fmaInt x y z) ↔
    w.extractLsb' 192 2 = 0b00#2 ∧ w.extractLsb' 128 64 = x ∧ w.extractLsb' 64 64 = y ∧ w.extractLsb' 0 64 = z := by
  simp [decode_eq_instr_iff, Command.ofWord, Instr.toCommand]

/-- A word decodes to `FMA.DD` exactly when its selection is `0b01`. -/
theorem decode_eq_fmaDd_iff {w : CmdWord} {x y z : Word} : decode w = .instr (.fmaDd x y z) ↔
    w.extractLsb' 192 2 = 0b01#2 ∧ w.extractLsb' 128 64 = x ∧ w.extractLsb' 64 64 = y ∧ w.extractLsb' 0 64 = z := by
  simp [decode_eq_instr_iff, Command.ofWord, Instr.toCommand]

/-- A word decodes to `FMA.BIT` exactly when its selection is `0b10`. -/
theorem decode_eq_fmaBit_iff {w : CmdWord} {x y z : Word} : decode w = .instr (.fmaBit x y z) ↔
    w.extractLsb' 192 2 = 0b10#2 ∧ w.extractLsb' 128 64 = x ∧ w.extractLsb' 64 64 = y ∧ w.extractLsb' 0 64 = z := by
  simp [decode_eq_instr_iff, Command.ofWord, Instr.toCommand]

/-! ### The mask of the opcode table -/

/-- The table's mask keeps the selection field and clears all 192 operand bits (rule R63). -/
theorem and_selMask (w : CmdWord) :
    w &&& (3#194 <<< 192) = (w.extractLsb' 192 2).setWidth 194 <<< 192 := by
  apply BitVec.eq_of_getLsbD_eq
  intro i hi
  rw [BitVec.getLsbD_and, BitVec.getLsbD_shiftLeft, BitVec.getLsbD_shiftLeft]
  by_cases h : i < 192
  · simp [h]
  · obtain rfl | rfl : i = 192 ∨ i = 193 := by omega
    all_goals simp

/-- A masked word is a row's match exactly when its selection is the row's. -/
theorem and_selMask_eq_iff (w : CmdWord) (m : Sel) :
    w &&& (3#194 <<< 192) = m.setWidth 194 <<< 192 ↔ w.extractLsb' 192 2 = m := by
  rw [and_selMask]
  refine ⟨fun h => ?_, fun h => by rw [h]⟩
  have h := congrArg BitVec.toNat h
  rw [toNat_field_shiftLeft _ (by omega), toNat_field_shiftLeft _ (by omega), Nat.shiftLeft_eq, Nat.shiftLeft_eq] at h
  exact BitVec.eq_of_toNat_eq (by omega)

/-! ### The obligations -/

/-- Settles O1: the decoder reads the four fields, which are all of a word, and an instruction is the command of its
selection. -/
theorem decodeAndEncodeAreInverse : Obligations.DecodeAndEncodeAreInverse :=
  ⟨fun _ => ⟨fun h => decode_eq_fmaInt_iff.mpr ⟨h, rfl, rfl, rfl⟩, fun h => decode_eq_fmaDd_iff.mpr ⟨h, rfl, rfl, rfl⟩,
      fun h => decode_eq_fmaBit_iff.mpr ⟨h, rfl, rfl, rfl⟩, decode_of_sel_reserved⟩,
    Command.toNat_toWord, fun i _ => decode_encode i, fun _ _ => encode_of_decode⟩

/-- Settles O2: a masked word equals a row's match exactly when its selection is the row's, and every operand triple is
encoded in each row. -/
theorem matchAndMaskSelectThePath : Obligations.MatchAndMaskSelectThePath := by
  refine fun w => ⟨?_, ?_, ?_, fun x y z => ⟨encode (.fmaInt x y z), encode (.fmaDd x y z), encode (.fmaBit x y z),
    decode_encode _, decode_encode _, decode_encode _⟩⟩
  · simpa [decode_eq_fmaInt_iff] using and_selMask_eq_iff w 0b00#2
  · simpa [decode_eq_fmaDd_iff] using and_selMask_eq_iff w 0b01#2
  · simpa [decode_eq_fmaBit_iff] using and_selMask_eq_iff w 0b10#2

end Sys2Proof
end

section
/-! PROOFS. The NaN results (spec/30_encoding.md rule R58): what makes a pattern a NaN, and when a rounded and packed
result is none. -/

namespace Sys2Proof.Machine

/-! ### The fields of a pattern as numbers -/

theorem toNat_expf (b : Word) : (expf b).toNat = b.toNat / 2 ^ 52 % 2 ^ 11 := by
  simp [expf, Nat.shiftRight_eq_div_pow]

theorem toNat_frac (b : Word) : (frac b).toNat = b.toNat % 2 ^ 52 := by
  simp [frac]

/-- A pattern is no NaN when, without its sign bit, it is at most infinity's (rule R56). -/
theorem not_isNan_of_toNat_le {b : Word} (h : b.toNat % 2 ^ 63 ≤ 2047 * 2 ^ 52) : isNan b = false := by
  by_contra hnan
  obtain ⟨he, hf⟩ : expf b = 0x7FF#11 ∧ frac b ≠ 0#52 := by simpa [isNan] using hnan
  have he : (expf b).toNat = 2047 := by rw [he]; rfl
  have hf : (frac b).toNat ≠ 0 := fun h0 => hf (BitVec.eq_of_toNat_eq h0)
  rw [toNat_expf] at he
  rw [toNat_frac] at hf
  omega

theorem isNan_of_expf_ne {b : Word} (h : expf b ≠ 0x7FF#11) : isNan b = false := by simp [isNan, h]

@[simp] theorem isNan_zero (s : Bool) : isNan (zero s) = false := by simp [isNan]
@[simp] theorem isNan_inf (s : Bool) : isNan (inf s) = false := by simp [isNan]

/-- Finite is neither infinity nor NaN (rule R56). -/
theorem isFinite_eq (b : Word) : isFinite b = (!isNan b && !isInf b) := by
  cases he : expf b == 0x7FF#11 <;> cases hf : frac b == 0#52 <;> simp [isFinite, isNan, isInf, bne, he, hf]

theorem isNan_of_isFinite {b : Word} (h : isFinite b = true) : isNan b = false := by
  simp only [isFinite_eq, Bool.and_eq_true, Bool.not_eq_true'] at h
  exact h.1

theorem isNan_of_isInf {b : Word} (h : isInf b = true) : isNan b = false := by
  simp only [isInf, Bool.and_eq_true, beq_iff_eq] at h
  simp [isNan, h.2]

/-! ### Results that are no NaN but the canonical one -/

/-- If the pattern is a NaN, it is the canonical quiet NaN (rule R58). -/
def QuietNanOnly (r : Word) : Prop := isNan r = true → r = qnan

theorem quietNanOnly_qnan : QuietNanOnly qnan := fun _ => rfl

theorem quietNanOnly_of_not_nan {r : Word} (h : isNan r = false) : QuietNanOnly r := fun hr => by simp [h] at hr

theorem quietNanOnly_zero (s : Bool) : QuietNanOnly (zero s) := quietNanOnly_of_not_nan (isNan_zero s)

theorem quietNanOnly_inf (s : Bool) : QuietNanOnly (inf s) := quietNanOnly_of_not_nan (isNan_inf s)

/-! ### The integer path -/

/-- The rounded significand has 53 bits, or is the one carry beyond them (rule R131). -/
theorem toNat_intRound_le (m : Word) : (intRound m).toNat ≤ 2 ^ 53 := by
  have hk := (m.extractLsb' 11 53).isLt
  simp only [intRound, BitVec.toNat_add, BitVec.toNat_setWidth, BitVec.toNat_ofBool]
  generalize (_ && _ : Bool) = inc
  cases inc <;> simp only [Bool.toNat_true, Bool.toNat_false] <;> omega

/-- Adding a significand of at most `2^53` to an exponent field of at most 2046 less one gives at most infinity's fields
(rule R133). -/
theorem isNan_intPack {s : Bool} {be : Int} {k : BitVec 54} (h0 : 0 ≤ be) (hbe : be ≤ 2046) (hk : k.toNat ≤ 2 ^ 53) :
    isNan (intPack s be k) = false := by
  apply not_isNan_of_toNat_le
  have hlow (r : Word) : (BitVec.ofBool s ++ r.extractLsb' 0 63 : Word).toNat % 2 ^ 63 = r.toNat % 2 ^ 63 := by
    rw [BitVec.toNat_append, Nat.shiftLeft_eq, Nat.mul_comm,
      ← Nat.two_pow_add_eq_or_of_lt (r.extractLsb' 0 63).isLt, Nat.mul_add_mod, BitVec.extractLsb'_toNat]
    simp
  simp only [intPack, hlow]
  split
  · rw [BitVec.toNat_setWidth]
    omega
  · obtain ⟨n, hn⟩ := Int.eq_ofNat_of_zero_le (show 0 ≤ be - 1 by omega)
    rw [hn, BitVec.ofInt_natCast, BitVec.toNat_add, BitVec.toNat_shiftLeft, BitVec.toNat_setWidth,
      BitVec.toNat_ofNat, Nat.shiftLeft_eq]
    omega

theorem isNan_intRoundPack (s : Bool) (e : Int) (m : Word) : isNan (intRoundPack s e m) = false := by
  unfold intRoundPack
  dsimp only
  split
  · exact isNan_inf s
  · split
    · exact isNan_intPack (by omega) (by omega) (toNat_intRound_le _)
    · exact isNan_intPack (by omega) (by omega) (toNat_intRound_le _)

/-- Step 1 gives every NaN operand the class NaN (rule R121). -/
theorem isNan_of_cls_intUnpack {b : Word} (h : (intUnpack b).cls ≠ .nan) : isNan b = false := by
  by_contra hb
  obtain ⟨he, hf⟩ : expf b = 0x7FF#11 ∧ frac b ≠ 0#52 := by simpa [isNan] using hb
  exact h (by simp [intUnpack, he, hf, NormOp.cls, expNan, expZero, expInf])

/-- The special rows of the integer path give a NaN only as the canonical one: a row that returns `z` has no NaN
operand (rule R123). -/
theorem quietNanOnly_intSpecial {x y z r : Word} (h : intSpecial (intUnpack x) (intUnpack y) (intUnpack z) z = some r) :
    QuietNanOnly r := by
  unfold intSpecial at h
  dsimp only at h
  split at h
  · cases h
    exact quietNanOnly_qnan
  · next hnan =>
    have hz : QuietNanOnly z := quietNanOnly_of_not_nan (isNan_of_cls_intUnpack fun hc => hnan (.inr (.inr hc)))
    split_ifs at h <;> cases h
    · exact quietNanOnly_qnan
    · exact quietNanOnly_qnan
    · exact quietNanOnly_inf _
    · exact hz
    · exact quietNanOnly_zero _
    · exact hz

/-- `FMA.INT` gives no NaN but the canonical one. -/
theorem quietNanOnly_fmaInteger (x y z : Word) : QuietNanOnly (fmaInteger x y z) := by
  unfold fmaInteger
  dsimp only
  split
  · next r hr => exact quietNanOnly_intSpecial hr
  · split
    · exact quietNanOnly_zero false
    · exact quietNanOnly_of_not_nan (isNan_intRoundPack ..)

end Sys2Proof.Machine
end

section
/-! PROOFS. No NaN but the canonical one comes out of the bit-packed path (spec/30_encoding.md rule R58): the
significand that reaches `bit_roundpack` is below `2^63` on every way to it. -/

namespace Sys2Proof.Machine

/-! ### The integer primitives -/

theorem toNat_mul32_le (a b : U32) : (mul32 a b).toNat ≤ (2 ^ 32 - 1) * (2 ^ 32 - 1) := by
  rw [toNat_mul32]
  exact Nat.mul_le_mul (Nat.le_sub_one_of_lt a.isLt) (Nat.le_sub_one_of_lt b.isLt)

theorem toNat_lowHalf (v : Word) : (v.extractLsb' 0 32).toNat = v.toNat % 2 ^ 32 := by simp

theorem toNat_highHalf (v : Word) : (v.extractLsb' 32 32).toNat = v.toNat / 2 ^ 32 := by
  rw [BitVec.extractLsb'_toNat, Nat.shiftRight_eq_div_pow]
  exact Nat.mod_eq_of_lt (Nat.div_lt_of_lt_mul v.isLt)

/-- A half-word carried into a column of the split multiply does not overflow it (rule R101). -/
theorem toNat_add_half {p : Word} (c : U32) (hp : p.toNat ≤ (2 ^ 32 - 1) * (2 ^ 32 - 1)) :
    (p + c.setWidth 64).toNat = p.toNat + c.toNat := by
  have hc := c.isLt
  rw [BitVec.toNat_add, BitVec.toNat_setWidth_of_le (by norm_num)]
  exact Nat.mod_eq_of_lt (by omega)

/-- The split multiply is the exact product (rule R101): each column is its two halves, and no column overflows. -/
theorem toNat_mul64to128 (a b : Word) : (mul64to128 a b).toNat = a.toNat * b.toNat := by
  unfold mul64to128
  extract_lets a1 a0 b1 b0 p00 p01 p10 p11 mid mid2 lo hi
  have hsplit (v : Word) : v.toNat = 2 ^ 32 * (v.extractLsb' 32 32).toNat + (v.extractLsb' 0 32).toNat := by
    rw [toNat_lowHalf, toNat_highHalf, Nat.div_add_mod]
  have hmid : mid.toNat = p01.toNat + (p00.extractLsb' 32 32).toNat := toNat_add_half _ (toNat_mul32_le _ _)
  have hmid2 : mid2.toNat = p10.toNat + (mid.extractLsb' 0 32).toNat := toNat_add_half _ (toNat_mul32_le _ _)
  have hlo : lo.toNat = 2 ^ 32 * (mid2.extractLsb' 0 32).toNat + (p00.extractLsb' 0 32).toNat := by
    simp only [lo]
    rw [BitVec.toNat_append, Nat.shiftLeft_eq, Nat.mul_comm, Nat.two_pow_add_eq_or_of_lt (BitVec.isLt _)]
  have hhi : hi.toNat = p11.toNat + (mid.extractLsb' 32 32).toNat + (mid2.extractLsb' 32 32).toNat := by
    have h11 : p11.toNat ≤ (2 ^ 32 - 1) * (2 ^ 32 - 1) := toNat_mul32_le _ _
    have hm := (mid.extractLsb' 32 32).isLt
    have hm2 := (mid2.extractLsb' 32 32).isLt
    simp only [hi]
    rw [BitVec.toNat_add, toNat_add_half _ h11, BitVec.toNat_setWidth_of_le (by norm_num)]
    exact Nat.mod_eq_of_lt (by omega)
  have hcolumns : hi.toNat * 2 ^ 64 + lo.toNat =
      p11.toNat * 2 ^ 64 + (p01.toNat + p10.toNat) * 2 ^ 32 + p00.toNat := by
    linarith [hsplit mid, hsplit mid2, hsplit p00]
  calc (pair hi lo).toNat
      = p11.toNat * 2 ^ 64 + (p01.toNat + p10.toNat) * 2 ^ 32 + p00.toNat := by rw [toNat_pair, hcolumns]
    _ = (2 ^ 32 * a1.toNat + a0.toNat) * (2 ^ 32 * b1.toNat + b0.toNat) := by
      simp only [p00, p01, p10, p11, toNat_mul32]
      ring
    _ = a.toNat * b.toNat := by rw [hsplit a, hsplit b]

theorem nz_lt_two_pow {w n k : Nat} (v : BitVec w) (hk : 0 < k) (hn : 0 < n) : (nz k v).toNat < 2 ^ n := by
  have : 1 < 2 ^ n := Nat.one_lt_two_pow (by omega)
  rw [toNat_nz hk]
  split <;> omega

/-- A jam does not reach above the bits of its word. -/
theorem toNat_or_nz_lt {w n : Nat} {h : Word} (l : BitVec w) (hn : 0 < n) (hh : h.toNat < 2 ^ n) :
    (h ||| nz 64 l).toNat < 2 ^ n := by
  rw [BitVec.toNat_or]
  exact Nat.or_lt_two_pow hh (nz_lt_two_pow l (by norm_num) hn)

/-- A right shift with jam does not make a word longer (rule R102). -/
theorem toNat_srj64_lt {v : Word} {k : Nat} (n : Nat) (hk : 0 < k) (hv : v.toNat < 2 ^ k) :
    (srj64 v n).toNat < 2 ^ k := by
  unfold srj64
  split
  · exact hv
  · split
    · refine toNat_or_nz_lt _ hk ?_
      rw [BitVec.toNat_ushiftRight]
      exact lt_of_le_of_lt (Nat.shiftRight_le _ _) hv
    · exact nz_lt_two_pow v (by norm_num) hk

/-- The same for 128 bits (rule R103). -/
theorem toNat_srj128_lt {v : U128} {k : Nat} (n : Nat) (hk : 0 < k) (hv : v.toNat < 2 ^ k) :
    (srj128 v n).toNat < 2 ^ k := by
  unfold srj128
  split
  · exact hv
  · split
    · rw [BitVec.toNat_or, BitVec.toNat_ushiftRight]
      exact Nat.or_lt_two_pow (lt_of_le_of_lt (Nat.shiftRight_le _ _) hv) (nz_lt_two_pow _ (by norm_num) hk)
    · exact nz_lt_two_pow v (by norm_num) hk

theorem clz64_le (v : Word) : clz64 v ≤ 64 := by
  by_cases h : v = 0#64
  · simp [h]
  · have := clz64_spec h
    omega

/-- A left shift moves the highest set bit up by its distance at most (rule R100). -/
theorem toNat_shiftLeft_lt (v : Word) (n : Nat) : (v <<< n).toNat < 2 ^ (64 - clz64 v + n) := by
  by_cases hv : v = 0#64
  · simp [hv]
  · obtain ⟨-, -, hlt⟩ := clz64_spec hv
    rw [BitVec.toNat_shiftLeft, Nat.shiftLeft_eq, pow_add]
    exact lt_of_le_of_lt (Nat.mod_le _ _) (Nat.mul_lt_mul_of_pos_right hlt (Nat.two_pow_pos n))

/-! ### The fields of an operand -/

theorem bitFields_e (v : Word) : (bitFields v).e = (expf v).toNat := by
  have h : (0x7FF#64 : Word).toNat = 2 ^ 11 - 1 := rfl
  simp only [bitFields, BitVec.toNat_and, BitVec.toNat_ushiftRight, h, Nat.and_two_pow_sub_one_eq_mod,
    Nat.shiftRight_eq_div_pow, toNat_expf]

theorem toNat_bitFields_f (v : Word) : (bitFields v).f.toNat = (frac v).toNat := by
  have h : (0x000FFFFFFFFFFFFF#64 : Word).toNat = 2 ^ 52 - 1 := rfl
  simp only [bitFields, BitVec.toNat_and, h, Nat.and_two_pow_sub_one_eq_mod, toNat_frac]

theorem bitFields_f_lt (v : Word) : (bitFields v).f.toNat < 2 ^ 52 := by
  rw [toNat_bitFields_f]
  exact (frac v).isLt

/-- The masks of rule R191 tell a NaN as the fields of rule R55 do. -/
theorem isNan_iff_bitFields (v : Word) : isNan v = true ↔ (bitFields v).e = 0x7FF ∧ (bitFields v).f ≠ 0#64 := by
  have he : expf v = 0x7FF#11 ↔ (bitFields v).e = 0x7FF := by
    rw [bitFields_e, ← BitVec.toNat_inj, show (0x7FF#11).toNat = 2047 from rfl]
    omega
  have hf : frac v = 0#52 ↔ (bitFields v).f = 0#64 := by
    rw [← BitVec.toNat_inj, ← BitVec.toNat_inj, toNat_bitFields_f]
    rfl
  rw [isNan, Bool.and_eq_true, beq_iff_eq, bne_iff_ne, he, ne_eq, hf]

/-- The fraction of a normalized operand stays below bit 53 (rule R193). -/
theorem BitFields.norm_f_lt {v : BitFields} (h : v.f.toNat < 2 ^ 52) : v.norm.f.toNat < 2 ^ 53 := by
  unfold BitFields.norm
  split
  · have hc : 12 ≤ clz64 v.f := by
      by_cases hf : v.f = 0#64
      · simp [hf]
      · obtain ⟨-, hle, -⟩ := clz64_spec hf
        have := (Nat.pow_lt_pow_iff_right (by norm_num : 1 < 2)).mp (lt_of_le_of_lt hle h)
        omega
    have := toNat_shiftLeft_lt v.f (clz64 v.f - 11)
    rwa [show 64 - clz64 v.f + (clz64 v.f - 11) = 53 by have := clz64_le v.f; omega] at this
  · omega

theorem BitFields.norm_sig53_lt {v : BitFields} (h : v.f.toNat < 2 ^ 52) : v.norm.sig53.toNat < 2 ^ 53 := by
  rw [BitFields.sig53, BitVec.toNat_or]
  exact Nat.or_lt_two_pow (BitFields.norm_f_lt h) (by norm_num)

/-! ### The significand on its way to `bit_roundpack` -/

theorem toNat_bitProductNorm_lt {p : Int × U128} (h : p.2.toNat < 2 ^ 126) : (bitProductNorm p).2.toNat < 2 ^ 126 := by
  unfold bitProductNorm
  split
  · next hlt =>
    rw [BitVec.lt_def, toNat_hiWord, show (0x2000000000000000#64).toNat = 2 ^ 61 from rfl] at hlt
    rw [BitVec.toNat_shiftLeft, Nat.shiftLeft_eq]
    omega
  · exact h

/-- The product of two normalized operands stays below bit 126 (rules R195 and R196). -/
theorem toNat_bitProduct_lt {A B : BitFields} (hA : A.f.toNat < 2 ^ 52) (hB : B.f.toNat < 2 ^ 52) :
    (bitProduct A.norm B.norm).2.toNat < 2 ^ 126 := by
  have hshift {v : BitFields} (h : v.f.toNat < 2 ^ 52) : (v.norm.sig53 <<< 10).toNat < 2 ^ 63 := by
    have := BitFields.norm_sig53_lt h
    rw [BitVec.toNat_shiftLeft, Nat.shiftLeft_eq]
    omega
  apply toNat_bitProductNorm_lt
  rw [bitProductRaw, toNat_mul64to128]
  calc _ < 2 ^ 63 * 2 ^ 63 := Nat.mul_lt_mul'' (hshift hA) (hshift hB)
    _ = 2 ^ 126 := by norm_num

/-- The addend's significand word stays below bit 62 (rule R198). -/
theorem toNat_addend_lt {C : BitFields} (hC : C.f.toNat < 2 ^ 52) : (C.norm.sig53 <<< 9).toNat < 2 ^ 62 := by
  have := BitFields.norm_sig53_lt hC
  rw [BitVec.toNat_shiftLeft, Nat.shiftLeft_eq]
  omega

theorem toNat_hiWord_lt {v : U128} {n : Nat} (h : v.toNat < 2 ^ (n + 64)) : (hiWord v).toNat < 2 ^ n := by
  rw [toNat_hiWord, Nat.div_lt_iff_lt_mul (by norm_num), ← pow_add]
  exact h

/-- A word with bits 62 and 63 clear has room for one place to the left (rules R197 and R200). -/
theorem toNat_double_lt {v : Word} (h : v.toNat < 2 ^ 62) : (v <<< 1).toNat < 2 ^ 63 := by
  rw [BitVec.toNat_shiftLeft, Nat.shiftLeft_eq]
  omega

/-- Alignment makes no word longer (rules R198 and R199). -/
theorem bitAlign_lt {same : Bool} {eZ eC : Int} {p : U128} {gC : Word} (hp : p.toNat < 2 ^ 126)
    (hC : gC.toNat < 2 ^ 62) :
    (bitAlign same eZ p eC gC).p.toNat < 2 ^ 126 ∧ (bitAlign same eZ p eC gC).c.toNat < 2 ^ 126 := by
  have hpair {h l : Word} (hh : h.toNat < 2 ^ 62) : (pair h l).toNat < 2 ^ 126 := by
    rw [toNat_pair]
    have := l.isLt
    omega
  unfold bitAlign
  dsimp only
  split_ifs
  · exact ⟨hpair (toNat_srj64_lt _ (by norm_num) (toNat_hiWord_lt hp)), hpair hC⟩
  · exact ⟨toNat_srj128_lt _ (by norm_num) hp, hpair hC⟩
  · exact ⟨hp, toNat_srj128_lt _ (by norm_num) (hpair hC)⟩
  · exact ⟨hp, hpair hC⟩

theorem bitAdd_sig_lt {sZ : Bool} {d : Int} {gC : Word} {a : BitAligned} (hC : gC.toNat < 2 ^ 62)
    (hap : a.p.toNat < 2 ^ 126) (hac : a.c.toNat < 2 ^ 126) : (bitAdd sZ d gC a).sig.toNat < 2 ^ 63 := by
  unfold bitAdd
  extract_lets t sig
  have hsum : sig.toNat < 2 ^ 63 := by
    simp only [sig, t]
    split
    · refine toNat_or_nz_lt _ (by norm_num) ?_
      rw [BitVec.toNat_add, toNat_hiWord]
      omega
    · refine toNat_or_nz_lt _ (by norm_num) (toNat_hiWord_lt ?_)
      rw [BitVec.toNat_add]
      omega
  split
  · next hlt => exact toNat_double_lt hlt
  · exact hsum

/-- Moving the leading 1 of the high word to bit 62 leaves bit 63 clear (rule R204). -/
theorem toNat_shl128_clz64_lt {h : Word} (l : Word) (hh : h ≠ 0#64) (hc : 1 ≤ clz64 h) :
    (shl128 (pair h l) (clz64 h - 1)).toNat < 2 ^ 127 := by
  obtain ⟨hc63, -, hlt⟩ := clz64_spec hh
  have hpair : (pair h l).toNat < 2 ^ (64 - clz64 h) * 2 ^ 64 := by
    have := l.isLt
    have := Nat.mul_le_mul_right (2 ^ 64) (Nat.succ_le_of_lt hlt)
    rw [toNat_pair]
    omega
  rw [shl128, BitVec.toNat_shiftLeft, Nat.shiftLeft_eq]
  calc _ ≤ (pair h l).toNat * 2 ^ (clz64 h - 1) := Nat.mod_le _ _
    _ < 2 ^ (64 - clz64 h) * 2 ^ 64 * 2 ^ (clz64 h - 1) := Nat.mul_lt_mul_of_pos_right hpair (Nat.two_pow_pos _)
    _ = 2 ^ 127 := by rw [← pow_add, ← pow_add]; congr 1; omega

/-- `bit_normalize2` leaves bit 63 clear whatever it is given (rule R204). -/
theorem bitNormalize2_sig_lt (s : Bool) (t : U128) (e : Int) : (bitNormalize2 s t e).sig.toNat < 2 ^ 63 := by
  unfold bitNormalize2
  extract_lets moved h l e' sd v
  split
  · refine toNat_or_nz_lt _ (by norm_num) ?_
    rw [BitVec.toNat_or, BitVec.toNat_and, BitVec.toNat_ushiftRight, Nat.shiftRight_eq_div_pow]
    exact Nat.or_lt_two_pow (by have := h.isLt; omega) (lt_of_le_of_lt Nat.and_le_right (by norm_num))
  · next hsd =>
    refine toNat_or_nz_lt _ (by norm_num) (toNat_hiWord_lt ?_)
    by_cases hh : h = 0#64
    · have hl : l = 0#64 := by
        by_cases ht : hiWord t = 0#64
        · simp [l, moved, ht]
        · simp [h, moved, ht] at hh
      simp [v, shl128, hh, hl, pair]
    · have hn : sd.toNat = clz64 h - 1 := by omega
      simp only [v, hn]
      exact toNat_shl128_clz64_lt l hh (by omega)

theorem bitSub_sig_lt {sZ sC : Bool} {d : Int} {gC : Word} {a : BitAligned} {r : BitSig}
    (h : bitSub sZ sC d gC a = some r) : r.sig.toNat < 2 ^ 63 := by
  unfold bitSub at h
  dsimp only at h
  split_ifs at h <;> cases h <;> exact bitNormalize2_sig_lt ..

/-- Whatever reaches `bit_roundpack` has bit 63 clear (rule R205). -/
theorem bitSum_sig_lt {A B C : BitFields} {r : BitSig} (hA : A.f.toNat < 2 ^ 52) (hB : B.f.toNat < 2 ^ 52)
    (hC : C.f.toNat < 2 ^ 52) (h : bitSum A B C = some r) : r.sig.toNat < 2 ^ 63 := by
  have hp := toNat_bitProduct_lt hA hB
  have hg := toNat_addend_lt hC
  unfold bitSum at h
  dsimp only at h
  split_ifs at h
  · cases h
    exact toNat_or_nz_lt _ (by norm_num) (toNat_double_lt (toNat_hiWord_lt hp))
  · cases h
    obtain ⟨hap, hac⟩ := bitAlign_lt hp hg
    exact bitAdd_sig_lt hg hap hac
  · exact bitSub_sig_lt h

/-! ### Rounding and packing -/

/-- Ten bits dropped, at most one unit added (rule R206). -/
theorem toNat_bitRound_le {sig : Word} (h : sig.toNat < 2 ^ 63) :
    (bitRound sig).toNat ≤ (sig.toNat + 0x200) / 2 ^ 10 := by
  have hk : ((sig + 0x200#64) >>> 10).toNat = (sig.toNat + 0x200) / 2 ^ 10 := by
    rw [BitVec.toNat_ushiftRight, Nat.shiftRight_eq_div_pow, BitVec.toNat_add, BitVec.toNat_ofNat]
    omega
  unfold bitRound
  dsimp only
  split
  · rw [BitVec.toNat_and, hk]
    exact Nat.and_le_left
  · exact hk.le

/-- The packed word without its sign bit is the sum of the fields, where they leave room for it (rule R206). -/
theorem isNan_bitPack {s : Bool} {e : Int} {k : Word} (h0 : 0 ≤ e) (h : e.toNat * 2 ^ 52 + k.toNat ≤ 2047 * 2 ^ 52) :
    isNan (bitPack s e k) = false := by
  apply not_isNan_of_toNat_le
  obtain ⟨n, rfl⟩ := Int.eq_ofNat_of_zero_le h0
  rw [Int.toNat_natCast] at h
  simp only [bitPack, BitVec.ofInt_natCast, BitVec.toNat_add, BitVec.toNat_shiftLeft, BitVec.toNat_setWidth,
    BitVec.toNat_ofNat, BitVec.toNat_ofBool, Nat.shiftLeft_eq]
  cases s <;> simp only [Bool.toNat_true, Bool.toNat_false] <;> omega

theorem isNan_bitRoundPack {s : Bool} {e : Int} {sig : Word} (h : sig.toNat < 2 ^ 63) :
    isNan (bitRoundPack s e sig) = false := by
  unfold bitRoundPack
  dsimp only
  split
  · have hj := toNat_srj64_lt (-e).toNat (by norm_num) h
    have hk := toNat_bitRound_le hj
    exact isNan_bitPack le_rfl (by omega)
  · split
    · exact isNan_inf s
    · have hk := toNat_bitRound_le h
      split
      · next hk0 => exact isNan_bitPack le_rfl (by simp [hk0])
      · exact isNan_bitPack (by omega) (by omega)

/-! ### The special values and the path -/

theorem quietNanOnly_bitInfProd (s : Bool) (mag : Word) (C : BitFields) : QuietNanOnly (bitInfProd s mag C) := by
  unfold bitInfProd
  split_ifs
  · exact quietNanOnly_inf s
  · exact quietNanOnly_qnan
  · exact quietNanOnly_inf s
  · exact quietNanOnly_qnan
  · exact quietNanOnly_qnan

/-- `bit_special` returns `c` only where its fraction field is zero (rule R192). -/
theorem quietNanOnly_bitSpecial (A B : BitFields) (c : Word) : QuietNanOnly (bitSpecial A B (bitFields c) c) := by
  unfold bitSpecial
  dsimp only
  split_ifs with _ _ _ _ hf
  · exact quietNanOnly_qnan
  · exact quietNanOnly_bitInfProd _ _ _
  · exact quietNanOnly_qnan
  · exact quietNanOnly_bitInfProd _ _ _
  · exact quietNanOnly_qnan
  · intro hnan
    exact absurd ((isNan_iff_bitFields c).mp hnan).2 hf

/-- `FMA.BIT` gives no NaN but the canonical one. -/
theorem quietNanOnly_fmaDirect (a b c : Word) : QuietNanOnly (fmaDirect a b c) := by
  unfold fmaDirect
  dsimp only
  split_ifs with hspecial hzero
  · exact quietNanOnly_bitSpecial _ _ c
  · have hc : QuietNanOnly c := fun hnan => absurd (.inr (.inr ((isNan_iff_bitFields c).mp hnan).1)) hspecial
    unfold bitZeroProd
    split
    · exact quietNanOnly_zero false
    · exact hc
  · split
    · exact quietNanOnly_zero false
    · next r hr =>
      exact quietNanOnly_of_not_nan
        (isNan_bitRoundPack (bitSum_sig_lt (bitFields_f_lt a) (bitFields_f_lt b) (bitFields_f_lt c) hr))

end Sys2Proof.Machine
end

section
/-! PROOFS. The rounding of a whole number of units (spec/40_common_arithmetic.md rule R82): it gives no NaN, no zero in
units `2^(-1074)`, and a finite pattern's own value back as that pattern. -/

namespace Sys2Proof.Machine

/-! ### A rounding gives no NaN, and a zero only by underflow (rule R82) -/

theorem quantumExp_ge (e : Int) : -1074 ≤ quantumExp e := by
  unfold quantumExp
  omega

/-- The exponent field that a normal result is packed with is never zero, and all ones only at infinity. -/
theorem packNormal_eq_inf_or {s : Bool} {k : Nat} {q : Int} (hq : -1074 ≤ q) :
    packNormal s k q = inf s ∨ expf (packNormal s k q) ≠ 0x7FF#11 ∧ expf (packNormal s k q) ≠ 0#11 := by
  unfold packNormal
  dsimp only
  split
  · exact .inl rfl
  · have he : (BitVec.ofInt 11 (q + 52 + 1023)).toNat = (q + 52 + 1023).toNat := by
      rw [BitVec.toNat_ofInt]
      omega
    right
    rw [expf_pattern, ← BitVec.toNat_ne_iff_ne, ← BitVec.toNat_ne_iff_ne, he]
    constructor <;> simp <;> omega

theorem isNan_packNormal {s : Bool} {k : Nat} {q : Int} (hq : -1074 ≤ q) : isNan (packNormal s k q) = false := by
  obtain h | ⟨h, -⟩ := packNormal_eq_inf_or (s := s) (k := k) hq
  · rw [h, isNan_inf]
  · exact isNan_of_expf_ne h

theorem isZero_packNormal {s : Bool} {k : Nat} {q : Int} (hq : -1074 ≤ q) : isZero (packNormal s k q) = false := by
  obtain h | ⟨-, h⟩ := packNormal_eq_inf_or (s := s) (k := k) hq
  · simp [h, isZero]
  · simp [isZero, h]

theorem isNan_packRounded {s : Bool} {k : Nat} {q : Int} (hq : -1074 ≤ q) : isNan (packRounded s k q) = false := by
  unfold packRounded
  split_ifs
  · exact isNan_zero s
  · exact isNan_packNormal (by omega)
  · exact isNan_of_expf_ne (by simp)
  · exact isNan_packNormal hq

theorem isZero_packRounded {s : Bool} {k : Nat} {q : Int} (hk : k ≠ 0) (hq : -1074 ≤ q) :
    isZero (packRounded s k q) = false := by
  rw [packRounded, if_neg hk]
  split_ifs with _ hsub
  · exact isZero_packNormal (by omega)
  · have hf : BitVec.ofNat 52 k ≠ 0#52 := by
      intro h
      have := congrArg BitVec.toNat h
      rw [BitVec.toNat_ofNat, BitVec.toNat_ofNat] at this
      omega
    rw [isZero, frac_pattern, beq_eq_false_iff_ne.mpr hf, Bool.and_false]
  · exact isZero_packNormal hq

theorem packRounded_of_subnormal {s : Bool} {k : Nat} {q : Int} (h0 : k ≠ 0) (h : k < 2 ^ 52) :
    packRounded s k q = pattern s 0#11 (BitVec.ofNat 52 k) := by
  rw [packRounded, if_neg h0, if_neg (by omega), if_pos h]

theorem packRounded_of_normal {s : Bool} {k : Nat} {q : Int} (hlo : 2 ^ 52 ≤ k) (hhi : k < 2 ^ 53) :
    packRounded s k q = packNormal s k q := by
  rw [packRounded, if_neg (by omega), if_neg (by omega), if_neg (by omega)]

@[simp] theorem isNan_roundScaled (n e : Int) : isNan (roundScaled n e) = false := by
  unfold roundScaled
  dsimp only
  split
  · exact isNan_packRounded (quantumExp_ge _)
  · exact isNan_packRounded (quantumExp_ge _)

/-- Nothing of a whole number of units `2^(-1074)` underflows: the shift drops nothing, or leaves 53 bits. -/
theorem isZero_roundScaled_units {n : Int} (hn : n ≠ 0) : isZero (roundScaled n (-1074)) = false := by
  have ha : n.natAbs ≠ 0 := Int.natAbs_ne_zero.mpr hn
  have hround {k : Nat} (half : Ordering) (hk : k ≠ 0) : roundUp k half ≠ 0 := by
    have := roundUp_bounds k half
    omega
  obtain h | h := le_or_gt (quantumExp (-1074 + (n.natAbs.log2 : Int))) (-1074)
  · rw [roundScaled_of_le h]
    exact isZero_packRounded (hround _ (by simpa [Nat.shiftLeft_eq] using ha)) (quantumExp_ge _)
  · rw [roundScaled_of_lt h]
    refine isZero_packRounded (hround _ ?_) (quantumExp_ge _)
    have hsh : (quantumExp (-1074 + (n.natAbs.log2 : Int)) - -1074).toNat ≤ n.natAbs.log2 := by
      unfold quantumExp at h ⊢
      omega
    rw [Nat.shiftRight_eq_div_pow]
    have : 2 ^ (quantumExp (-1074 + (n.natAbs.log2 : Int)) - -1074).toNat ≤ n.natAbs :=
      (Nat.pow_le_pow_right (by norm_num) hsh).trans (Nat.log2_self_le ha)
    exact (Nat.div_pos this (Nat.two_pow_pos _)).ne'

theorem log2_shiftLeft_of_binade {m n : Nat} (hlo : 2 ^ 52 ≤ m) (hhi : m < 2 ^ 53) : (m <<< n).log2 = 52 + n := by
  rw [Nat.log2_eq_iff (by rw [Nat.shiftLeft_eq]; positivity), Nat.shiftLeft_eq]
  constructor
  · rw [pow_add]
    exact Nat.mul_le_mul_right _ hlo
  · rw [show 52 + n + 1 = 53 + n by omega, pow_add]
    exact Nat.mul_lt_mul_of_pos_right hhi (Nat.two_pow_pos n)

/-- A whole number of units in a normal binade is rounded without loss. -/
theorem roundScaled_units_normal {x : Int} {m n : Nat} (hlo : 2 ^ 52 ≤ m) (hhi : m < 2 ^ 53)
    (hx : x.natAbs = m <<< n) :
    roundScaled x (-1074) = packNormal (decide (x < 0)) m (n - 1074) := by
  have hq : quantumExp (-1074 + (x.natAbs.log2 : Int)) = n - 1074 := by
    rw [hx, log2_shiftLeft_of_binade hlo hhi]
    unfold quantumExp
    omega
  have hpack (s : Bool) : finishRound s m .lt (n - 1074) = packNormal s m (n - 1074) := by
    rw [finishRound, roundUp_lt, packRounded_of_normal hlo hhi]
  rw [← hpack]
  obtain hn | hn := Nat.eq_zero_or_pos n
  · rw [roundScaled_of_le (by rw [hq]; omega), hq, hx, hn]
    simp
  · rw [roundScaled_of_lt (by rw [hq]; omega), hq, hx, show ((n : Int) - 1074 - -1074).toNat = n by omega,
      Nat.shiftLeft_shiftRight, Nat.shiftLeft_eq, Nat.mul_mod_left]
    congr 1
    rw [Nat.mul_zero, Nat.compare_eq_lt]
    exact Nat.two_pow_pos n

/-- A whole number of units below the normal range is rounded without loss. -/
theorem roundScaled_units_subnormal {x : Int} (h0 : x ≠ 0) (hx : x.natAbs < 2 ^ 52) :
    roundScaled x (-1074) = pattern (decide (x < 0)) 0#11 (BitVec.ofNat 52 x.natAbs) := by
  have h0 : x.natAbs ≠ 0 := Int.natAbs_ne_zero.mpr h0
  have hlog := (Nat.log2_lt h0).mpr hx
  have hq : quantumExp (-1074 + (x.natAbs.log2 : Int)) = -1074 := by
    unfold quantumExp
    omega
  rw [roundScaled_of_le hq.le, hq, finishRound, roundUp_lt, sub_self, Int.toNat_zero, Nat.shiftLeft_zero,
    packRounded_of_subnormal h0 hx]

theorem decide_valUnits_neg {b : Word} (h : isZero b = false) : decide (valUnits b < 0) = sign b := by
  have hpos : magUnits b ≠ 0 := fun h0 => by simp [(magUnits_eq_zero_iff b).mp h0] at h
  unfold valUnits
  cases sign b
  · simp
  · simp
    omega

/-- A finite nonzero pattern is the rounding of its own value (rule R83 (b)). -/
theorem roundScaled_valUnits {b : Word} (hfin : isFinite b = true) (hb : isZero b = false) :
    roundScaled (valUnits b) (-1074) = b := by
  have hv : valUnits b ≠ 0 := fun h0 => by simp [(valUnits_eq_zero_iff b).mp h0] at hb
  have hf := (frac b).isLt
  have hmag := natAbs_valUnits b
  by_cases he : expf b = 0#11
  · rw [magUnits, if_pos he] at hmag
    rw [roundScaled_units_subnormal hv (by omega), hmag, decide_valUnits_neg hb, BitVec.ofNat_toNat, BitVec.setWidth_eq,
      ← he, pattern_eta]
  · rw [magUnits, if_neg he] at hmag
    have he0 : (expf b).toNat ≠ 0 := fun h0 => he (BitVec.eq_of_toNat_eq h0)
    have he1 : (expf b).toNat ≠ 2047 := fun h1 => by
      have : expf b = 0x7FF#11 := BitVec.eq_of_toNat_eq h1
      simp [isFinite, this] at hfin
    have hle := expf_le b
    have hexp : (((expf b).toNat - 1 : Nat) : Int) - 1074 + 52 + 1023 = (expf b).toNat := by omega
    rw [roundScaled_units_normal (by omega) (by omega) hmag, decide_valUnits_neg hb]
    simp only [packNormal, hexp]
    rw [if_neg (by omega), BitVec.ofInt_natCast, BitVec.ofNat_toNat, BitVec.setWidth_eq]
    have hfrac : BitVec.ofNat 52 (2 ^ 52 + (frac b).toNat) = frac b :=
      BitVec.eq_of_toNat_eq (by rw [BitVec.toNat_ofNat]; omega)
    rw [hfrac, pattern_eta]

end Sys2Proof.Machine
end

section
/-! PROOFS. No NaN but the canonical one comes out of the double-double path (spec/30_encoding.md rule R58): the
primitives give only the canonical one, and the pattern step of rule R170 is taken only from a small nonzero value. Then
the obligation, for all three paths. -/

namespace Sys2Proof.Machine

/-! ### The binary64 primitives (rules R152 to R157) -/

@[simp] theorem isFinite_zero (s : Bool) : isFinite (zero s) = true := by simp [isFinite]
@[simp] theorem valUnits_zero (s : Bool) : valUnits (zero s) = 0 := (valUnits_eq_zero_iff _).mpr (isZero_zero s)
@[simp] theorem isFinite_flipSign (b : Word) : isFinite (flipSign b) = isFinite b := by simp [isFinite]
@[simp] theorem isZero_flipSign (b : Word) : isZero (flipSign b) = isZero b := by simp [isZero]
@[simp] theorem flipSign_flipSign (b : Word) : flipSign (flipSign b) = b := pattern_ext (by simp) (by simp) (by simp)

theorem isInf_of_isFinite {b : Word} (h : isFinite b = true) : isInf b = false := by
  simp only [isFinite_eq, Bool.and_eq_true, Bool.not_eq_true'] at h
  exact h.2

theorem quietNanOnly_fadd (a b : Word) : QuietNanOnly (fadd a b) := by
  unfold fadd
  split_ifs with _ ha _ hb
  · exact quietNanOnly_qnan
  · exact quietNanOnly_qnan
  · exact quietNanOnly_of_not_nan (isNan_of_isInf ha)
  · exact quietNanOnly_of_not_nan (isNan_of_isInf hb)
  · exact quietNanOnly_zero _
  · exact quietNanOnly_zero _
  · exact quietNanOnly_of_not_nan (isNan_roundScaled _ _)

theorem quietNanOnly_fmul (a b : Word) : QuietNanOnly (fmul a b) := by
  unfold fmul
  split_ifs
  · exact quietNanOnly_qnan
  · exact quietNanOnly_qnan
  · exact quietNanOnly_inf _
  · exact quietNanOnly_zero _
  · exact quietNanOnly_of_not_nan (isNan_roundScaled _ _)

/-- Scaling gives a NaN only where it is given one (rule R157). -/
theorem quietNanOnly_ddScale {b : Word} (k : Int) (h : QuietNanOnly b) : QuietNanOnly (ddScale b k) := by
  unfold ddScale
  split
  · exact h
  · exact quietNanOnly_of_not_nan (isNan_roundScaled _ _)

/-- On finite operands addition is the exact sum, rounded unless it is zero (rule R152). -/
theorem fadd_of_finite {a b : Word} (ha : isFinite a = true) (hb : isFinite b = true) : fadd a b =
    if valUnits a + valUnits b = 0 then (if isZero a && isZero b then zero (sign a && sign b) else zero false)
    else roundScaled (valUnits a + valUnits b) (-1074) := by
  simp [fadd, isNan_of_isFinite ha, isNan_of_isFinite hb, isInf_of_isFinite ha, isInf_of_isFinite hb]

theorem fsub_of_finite {a b : Word} (ha : isFinite a = true) (hb : isFinite b = true) :
    fsub a b = fadd a (flipSign b) := by
  simp [fsub, isNan_of_isFinite ha, isNan_of_isFinite hb]

theorem fadd_zero_left (s : Bool) {b : Word} (hb : isFinite b = true) (hb0 : isZero b = false) :
    fadd (zero s) b = b := by
  have hv : valUnits b ≠ 0 := fun h0 => by simp [(valUnits_eq_zero_iff b).mp h0] at hb0
  rw [fadd_of_finite (isFinite_zero s) hb, valUnits_zero, zero_add, if_neg hv, roundScaled_valUnits hb hb0]

theorem fadd_flipSign {a : Word} (ha : isFinite a = true) (ha0 : isZero a = false) :
    fadd a (flipSign a) = zero false := by
  rw [fadd_of_finite ha (by simpa using ha)]
  simp [ha0]

/-- A sum whose first operand is not zero is zero only by exact cancellation (rule R152). -/
theorem eq_flipSign_of_isZero_fadd {a b : Word} (ha0 : isZero a = false) (h : isZero (fadd a b) = true) :
    isFinite a = true ∧ b = flipSign a := by
  have hinf {c : Word} (hc : isInf c = true) : isZero c = false := by
    simp only [isInf, Bool.and_eq_true, beq_iff_eq] at hc
    simp [isZero, hc.1]
  have hqnan : isZero qnan = false := by decide
  unfold fadd at h
  split_ifs at h with hnan hia hib hib hsum hzero
  · simp [hqnan] at h
  · simp [hqnan] at h
  · simp [hinf hia] at h
  · simp [hinf hib] at h
  · simp [ha0] at hzero
  · simp only [Bool.or_eq_true, not_or, Bool.not_eq_true] at hnan hia hib
    have ha : isFinite a = true := by simp [isFinite_eq, hnan.1, hia]
    have hb : isFinite b = true := by simp [isFinite_eq, hnan.2, hib]
    have hval : valUnits b = valUnits (flipSign a) := by
      rw [valUnits_flipSign]
      omega
    have hb0 : isZero b = false := by
      rw [← Bool.not_eq_true, ← valUnits_eq_zero_iff, hval, valUnits_eq_zero_iff]
      simp [ha0]
    refine ⟨ha, ?_⟩
    calc b = roundScaled (valUnits b) (-1074) := (roundScaled_valUnits hb hb0).symm
      _ = roundScaled (valUnits (flipSign a)) (-1074) := by rw [hval]
      _ = flipSign a := roundScaled_valUnits (by simpa using ha) (by simpa using ha0)
  · simp [isZero_roundScaled_units hsum] at h

/-- When the sum pair's high part cancels, its low part is zero too (rule R160). -/
theorem ddAdd_lo_of_cancel {a b : Word} (ha0 : isZero a = false) (h : isZero (ddAdd a b).1 = true) :
    isZero (ddAdd a b).2 = true := by
  obtain ⟨ha, rfl⟩ := eq_flipSign_of_isZero_fadd ha0 h
  have hfa : isFinite (flipSign a) = true := by simpa using ha
  have hfa0 : isZero (flipSign a) = false := by simpa using ha0
  have hself {c : Word} (hc : isFinite c = true) (hc0 : isZero c = false) : fsub c c = zero false := by
    rw [fsub_of_finite hc hc, fadd_flipSign hc hc0]
  have hs : fsub (zero false) a = flipSign a := by
    rw [fsub_of_finite (isFinite_zero _) ha, fadd_zero_left _ hfa hfa0]
  have hback : fsub (zero false) (flipSign a) = a := by
    rw [fsub_of_finite (isFinite_zero _) hfa, flipSign_flipSign, fadd_zero_left _ ha ha0]
  simp only [ddAdd, fadd_flipSign ha ha0, hs, hback, hself ha ha0, hself hfa hfa0]
  decide

/-! ### The final fold and scaling (rules R156 and R170) -/

/-- A pattern step from a nonzero pattern below the top binades stays a number. -/
theorem isNan_stepToward {hi : Word} (lo : Word) (h0 : isZero hi = false) (he : (expf hi).toNat ≤ 2045) :
    isNan (stepToward hi lo) = false := by
  have hlt := hi.isLt
  have hmag : hi.toNat % 2 ^ 63 ≠ 0 := by
    intro hm
    have hexp : expf hi = 0#11 := BitVec.eq_of_toNat_eq (by rw [toNat_expf]; simp; omega)
    have hfrac : frac hi = 0#52 := BitVec.eq_of_toNat_eq (by rw [toNat_frac]; simp; omega)
    simp [isZero, hexp, hfrac] at h0
  rw [toNat_expf] at he
  apply not_isNan_of_toNat_le
  unfold stepToward
  split
  · rw [BitVec.toNat_add, BitVec.toNat_ofNat]
    omega
  · rw [BitVec.toNat_sub, BitVec.toNat_ofNat]
    omega

/-- The pattern step of rule R170 is taken only where the result falls below the normal range, and never from a zero, whose
low part is zero. -/
theorem quietNanOnly_ddRoundScale {a : Word} (b : Word) {scale : Int} (ha0 : isZero a = false)
    (hscale : -1128 ≤ scale) : QuietNanOnly (ddRoundScale a b scale) := by
  unfold ddRoundScale
  dsimp only
  apply quietNanOnly_ddScale
  split
  · next hstep =>
    obtain ⟨hlost, hlo, -⟩ := hstep
    have hhi : isZero (ddAdd a b).1 = false := by
      by_contra hz
      simp [ddAdd_lo_of_cancel ha0 (by simpa using hz)] at hlo
    exact quietNanOnly_of_not_nan (isNan_stepToward _ hhi (by omega))
  · exact quietNanOnly_fadd a b

/-- The smallest exponent is that of the smallest subnormal (rule R156). -/
theorem ddFrexp_exponent_ge (b : Word) : -1074 ≤ (ddFrexp b).2 := by
  unfold ddFrexp
  split
  · have := clz64_le ((frac b).setWidth 64)
    dsimp only
    omega
  · dsimp only
    omega

theorem quietNanOnly_ddCombine (xs ys zs : Word) {scale : Int} (hscale : -1128 ≤ scale) :
    QuietNanOnly (ddCombine xs ys zs scale) := by
  unfold ddCombine
  dsimp only
  split_ifs with hrh
  · exact quietNanOnly_zero false
  · exact quietNanOnly_ddScale _ (quietNanOnly_fadd _ _)
  · exact quietNanOnly_ddRoundScale _ (by simpa using hrh) hscale

/-- `FMA.DD` gives no NaN but the canonical one: past the early-outs the scale is at least `z`'s exponent less 54, so
that a NaN or an infinity is never stepped (rules R164 and R170). -/
theorem quietNanOnly_fmaExtended (x y z : Word) : QuietNanOnly (fmaExtended x y z) := by
  unfold fmaExtended
  dsimp only
  split_ifs with _ _ _ hfin hnan hspread
  · exact quietNanOnly_fadd _ _
  · exact quietNanOnly_fmul _ _
  · exact quietNanOnly_fadd _ _
  · exact quietNanOnly_qnan
  · exact quietNanOnly_of_not_nan (by simpa using hnan)
  · exact quietNanOnly_of_not_nan (isNan_of_isFinite (by simpa using hfin))
  · have hz := ddFrexp_exponent_ge z
    have hlow : tLow = -54 := rfl
    exact quietNanOnly_ddCombine _ _ _ (by omega)

/-! ### The obligation -/

theorem quietNanOnly_instrResponse (i : Instr) : QuietNanOnly (instrResponse i) := by
  cases i with
  | fmaInt x y z => exact quietNanOnly_fmaInteger x y z
  | fmaDd x y z => exact quietNanOnly_fmaExtended x y z
  | fmaBit x y z => exact quietNanOnly_fmaDirect x y z

/-- Settles O30: `R` is the response of the instruction, and each path gives no NaN but the canonical one. -/
theorem onlyTheCanonicalNanComesOut : Obligations.OnlyTheCanonicalNanComesOut := by
  intro i s t r hexec hr hnan
  rw [exec_eq_complete] at hexec
  cases hexec
  rw [State.complete_r] at hr
  cases hr
  exact quietNanOnly_instrResponse i hnan

end Sys2Proof.Machine
end

section
/-! PROOFS. The integer primitives as numbers (spec/40_common_arithmetic.md rules R101 to R106): the split multiply, the
jamming shifts, and the arithmetic on pairs of words. -/

namespace Sys2Proof.Machine

/-! ### Shift right with jam (rules R102 and R103) -/

/-- The quotient by `2^n` with bit 0 ORed with whether any dropped bit was set. -/
def jam (m n : Nat) : Nat := m / 2 ^ n ||| (if m % 2 ^ n = 0 then 0 else 1)

set_option Elab.async false in -- the proofs before this one are checked first: it bounds the threads, and so the memory
@[simp] theorem jam_zero (m : Nat) : jam m 0 = m := by simp [jam, Nat.mod_one]

/-- A shift by the word's width or more leaves only whether the word was nonzero. -/
theorem jam_of_lt_two_pow {m n : Nat} (h : m < 2 ^ n) : jam m n = if m = 0 then 0 else 1 := by
  rw [jam, Nat.div_eq_of_lt h, Nat.mod_eq_of_lt h, Nat.zero_or]

theorem toNat_nz_eq_ite {w k : Nat} (hk : 0 < k) (v : BitVec w) : (nz k v).toNat = if v.toNat = 0 then 0 else 1 := by
  have hv : v = 0#w ↔ v.toNat = 0 := by rw [← BitVec.toNat_inj, BitVec.toNat_ofNat, Nat.zero_mod]
  simp only [toNat_nz hk, hv]

theorem toNat_ushiftRight_or_nz {w n : Nat} (hn : n < w) (v : BitVec w) :
    ((v >>> n) ||| nz w (v &&& lowMask w n)).toNat = jam v.toNat n := by
  rw [BitVec.toNat_or, BitVec.toNat_ushiftRight, Nat.shiftRight_eq_div_pow, toNat_nz_eq_ite (by omega),
    toNat_and_lowMask hn]
  rfl

theorem toNat_nz_eq_jam {w n : Nat} (hw : 0 < w) (hn : w ≤ n) (v : BitVec w) : (nz w v).toNat = jam v.toNat n := by
  rw [jam_of_lt_two_pow (v.isLt.trans_le (Nat.pow_le_pow_right (by norm_num) hn)), toNat_nz_eq_ite hw]

/-- Rule R102, at every distance. -/
theorem toNat_srj64 (v : Word) (n : Nat) : (srj64 v n).toNat = jam v.toNat n := by
  unfold srj64
  split_ifs with h0 h63
  · rw [h0, jam_zero]
  · exact toNat_ushiftRight_or_nz (by omega) v
  · exact toNat_nz_eq_jam (by norm_num) (by omega) v

/-- Rule R103, at every distance. -/
theorem toNat_srj128 (v : U128) (n : Nat) : (srj128 v n).toNat = jam v.toNat n := by
  unfold srj128
  split_ifs with h0 h127
  · rw [h0, jam_zero]
  · exact toNat_ushiftRight_or_nz (by omega) v
  · exact toNat_nz_eq_jam (by norm_num) (by omega) v

/-! ### Sums and differences of pairs (rule R106) -/

theorem toNat_add128 (a b : U128) : (add128 a b).toNat = a.toNat + b.toNat := by
  have ha := a.isLt
  have hb := b.isLt
  rw [add128, BitVec.toNat_add, BitVec.toNat_setWidth, BitVec.toNat_setWidth]
  omega

theorem toNat_sub128 (a b : U128) : (sub128 a b).toNat = (a.toNat + 2 ^ 128 - b.toNat) % 2 ^ 128 := by
  have hb := b.isLt
  rw [sub128, BitVec.toNat_sub]
  congr 1
  omega

theorem toNat_ite_one (p : Prop) [Decidable p] : (if p then 1#64 else 0#64 : Word).toNat = if p then 1 else 0 := by
  split <;> rfl

/-- The low words' sum wraps exactly when it is below its first operand: that is the carry. -/
theorem add128_extract_pair (ah al bh bl : Word) :
    (add128 (pair ah al) (pair bh bl)).extractLsb' 0 128
      = pair (ah + bh + (if al + bl < al then 1#64 else 0#64)) (al + bl) := by
  have := ah.isLt
  have := al.isLt
  have := bh.isLt
  have := bl.isLt
  apply BitVec.eq_of_toNat_eq
  rw [BitVec.extractLsb'_toNat, Nat.shiftRight_zero, toNat_add128, toNat_pair, toNat_pair, toNat_pair,
    BitVec.toNat_add, BitVec.toNat_add, toNat_ite_one]
  simp only [BitVec.lt_def, BitVec.toNat_add]
  split <;> omega

/-- The low words' difference wraps exactly when the first is below the second: that is the borrow. -/
theorem sub128_pair (ah al bh bl : Word) :
    sub128 (pair ah al) (pair bh bl) = pair (ah - bh - (if al < bl then 1#64 else 0#64)) (al - bl) := by
  have := ah.isLt
  have := al.isLt
  have := bh.isLt
  have := bl.isLt
  apply BitVec.eq_of_toNat_eq
  rw [toNat_sub128, toNat_pair, toNat_pair, toNat_pair, BitVec.toNat_sub, BitVec.toNat_sub, BitVec.toNat_sub,
    toNat_ite_one]
  simp only [BitVec.lt_def]
  split <;> omega

/-! ### The obligations -/

/-- Settles O39: no column of the four products overflows. -/
theorem splitMultiplyIsExact : Obligations.SplitMultiplyIsExact := toNat_mul64to128

/-- Settles O40: both jamming shifts are the jam of the number, at every distance. -/
theorem jammingShiftsKeepASticky : Obligations.JammingShiftsKeepASticky := ⟨toNat_srj64, toNat_srj128⟩

/-- Settles O42: the sums and differences as numbers, then word by word. -/
theorem pairArithmeticCarriesAndBorrows : Obligations.PairArithmeticCarriesAndBorrows := fun ah al bh bl =>
  ⟨toNat_add128 _ _, add128_extract_pair ah al bh bl, toNat_sub128 _ _, sub128_pair ah al bh bl⟩

end Sys2Proof.Machine
end

section
/-! PROOFS. Dyadic grids: the multiples of a power of two, and the pairs of numbers that no multiple of it separates. A
jam replaces a number by another one of its cell, and the rounding cannot tell two numbers of one cell apart. -/

namespace Sys2Proof.Machine

/-! ### Powers of two -/

theorem two_zpow_pos (g : ℤ) : (0 : ℚ) < 2 ^ g := by positivity

theorem two_zpow_add (g h : ℤ) : (2 : ℚ) ^ (g + h) = 2 ^ g * 2 ^ h := zpow_add₀ (by norm_num) g h

theorem two_zpow_mul_neg (g : ℤ) : (2 : ℚ) ^ g * 2 ^ (-g) = 1 := by rw [← two_zpow_add, add_neg_cancel, zpow_zero]

theorem two_zpow_le {g h : ℤ} (hgh : g ≤ h) : (2 : ℚ) ^ g ≤ 2 ^ h := zpow_le_zpow_right₀ (by norm_num) hgh

theorem two_zpow_lt {g h : ℤ} (hgh : g < h) : (2 : ℚ) ^ g < 2 ^ h := zpow_lt_zpow_right₀ (by norm_num) hgh

theorem two_zpow_lt_iff {g h : ℤ} : (2 : ℚ) ^ g < 2 ^ h ↔ g < h := zpow_lt_zpow_iff_right₀ (by norm_num)

theorem two_zpow_sub_natCast (g : ℤ) (n : ℕ) : (2 : ℚ) ^ (g - n) = 2 ^ g / 2 ^ n := by
  rw [zpow_sub₀ (by norm_num), zpow_natCast]

theorem two_zpow_add_natCast (g : ℤ) (n : ℕ) : (2 : ℚ) ^ (g + n) = 2 ^ g * 2 ^ n := by
  rw [two_zpow_add, zpow_natCast]

/-! ### Multiples of a power of two -/

/-- `c` is a multiple of `2^g`. -/
def OnGrid (g : ℤ) (c : ℚ) : Prop := ∃ m : ℤ, c = m * (2 : ℚ) ^ g

theorem onGrid_zero (g : ℤ) : OnGrid g 0 := ⟨0, by simp⟩

theorem onGrid_zpow {g k : ℤ} (h : g ≤ k) : OnGrid g ((2 : ℚ) ^ k) := by
  obtain ⟨n, rfl⟩ := Int.le.dest h
  exact ⟨2 ^ n, by rw [two_zpow_add_natCast, mul_comm]; push_cast; rfl⟩

theorem OnGrid.neg {g : ℤ} {c : ℚ} (h : OnGrid g c) : OnGrid g (-c) := by
  obtain ⟨m, rfl⟩ := h
  exact ⟨-m, by push_cast; ring⟩

theorem OnGrid.abs {g : ℤ} {c : ℚ} (h : OnGrid g c) : OnGrid g |c| := by
  obtain hc | hc := abs_choice c
  · rwa [hc]
  · rw [hc]
    exact h.neg

theorem OnGrid.add {g : ℤ} {c d : ℚ} (hc : OnGrid g c) (hd : OnGrid g d) : OnGrid g (c + d) := by
  obtain ⟨m, rfl⟩ := hc
  obtain ⟨n, rfl⟩ := hd
  exact ⟨m + n, by push_cast; ring⟩

theorem OnGrid.sub {g : ℤ} {c d : ℚ} (hc : OnGrid g c) (hd : OnGrid g d) : OnGrid g (c - d) := by
  rw [sub_eq_add_neg]
  exact hc.add hd.neg

theorem OnGrid.mul {g h : ℤ} {c d : ℚ} (hc : OnGrid g c) (hd : OnGrid h d) : OnGrid (g + h) (c * d) := by
  obtain ⟨m, rfl⟩ := hc
  obtain ⟨n, rfl⟩ := hd
  exact ⟨m * n, by rw [two_zpow_add]; push_cast; ring⟩

theorem onGrid_intCast (m : ℤ) : OnGrid 0 (m : ℚ) := ⟨m, by simp⟩

theorem onGrid_natCast (m : ℕ) : OnGrid 0 (m : ℚ) := onGrid_intCast m

theorem onGrid_intCast_mul (m g : ℤ) : OnGrid g (m * (2 : ℚ) ^ g) := ⟨m, rfl⟩

theorem onGrid_natCast_mul (m : ℕ) (g : ℤ) : OnGrid g (m * (2 : ℚ) ^ g) := ⟨m, by simp⟩

theorem OnGrid.scale {g : ℤ} {c : ℚ} (h : OnGrid g c) (k : ℤ) : OnGrid (g + k) (c * 2 ^ k) :=
  h.mul (onGrid_zpow le_rfl)

theorem OnGrid.mono {g h : ℤ} {c : ℚ} (hc : OnGrid g c) (hle : h ≤ g) : OnGrid h c := by
  obtain ⟨m, rfl⟩ := hc
  have := (onGrid_intCast m).mul (onGrid_zpow hle)
  rwa [zero_add] at this

/-- A nonzero multiple of `2^g` is at least `2^g` away from zero. -/
theorem OnGrid.le_abs {g : ℤ} {c : ℚ} (h : OnGrid g c) (hc : c ≠ 0) : (2 : ℚ) ^ g ≤ |c| := by
  obtain ⟨m, rfl⟩ := h
  have hm : m ≠ 0 := by rintro rfl; simp at hc
  have : (1 : ℚ) ≤ |(m : ℚ)| := by exact_mod_cast Int.one_le_abs hm
  rw [abs_mul, abs_of_pos (two_zpow_pos g)]
  exact le_mul_of_one_le_left (two_zpow_pos g).le this

theorem OnGrid.eq_zero_of_abs_lt {g : ℤ} {c : ℚ} (h : OnGrid g c) (hc : |c| < (2 : ℚ) ^ g) : c = 0 := by
  by_contra h0
  exact absurd (h.le_abs h0) (not_le.mpr hc)

/-- The multiple of a multiple `m * 2^g` below `2^(g+n)` has an `n`-bit multiplier. -/
theorem OnGrid.exists_abs_le {g : ℤ} {c : ℚ} {n : ℕ} (h : OnGrid g c) (hc : |c| ≤ (2 : ℚ) ^ (g + n)) :
    ∃ m : ℤ, |m| ≤ 2 ^ n ∧ c = m * (2 : ℚ) ^ g := by
  obtain ⟨m, rfl⟩ := h
  refine ⟨m, ?_, rfl⟩
  rw [abs_mul, abs_of_pos (two_zpow_pos g), two_zpow_add_natCast, mul_comm ((2 : ℚ) ^ g)] at hc
  exact_mod_cast le_of_mul_le_mul_right hc (two_zpow_pos g)

/-! ### Numbers that no multiple separates -/

/-- `a` and `b` are equal or lie strictly between the same two neighbouring multiples of `2^g`. -/
def SameCell (g : ℤ) (a b : ℚ) : Prop :=
  a = b ∨ ∃ n : ℤ, (n * (2 : ℚ) ^ g < a ∧ a < (n + 1) * 2 ^ g) ∧ (n * (2 : ℚ) ^ g < b ∧ b < (n + 1) * 2 ^ g)

theorem SameCell.refl (g : ℤ) (a : ℚ) : SameCell g a a := .inl rfl

theorem SameCell.symm {g : ℤ} {a b : ℚ} (h : SameCell g a b) : SameCell g b a := by
  obtain rfl | ⟨n, ha, hb⟩ := h
  · exact .refl g a
  · exact .inr ⟨n, hb, ha⟩

/-- A multiple that is at most one of the two is at most the other. -/
theorem SameCell.le_of_le {g : ℤ} {a b c : ℚ} (h : SameCell g a b) (hc : OnGrid g c) (hca : c ≤ a) : c ≤ b := by
  obtain rfl | ⟨n, ⟨-, ha⟩, hb, -⟩ := h
  · exact hca
  · obtain ⟨m, rfl⟩ := hc
    have hmn : m ≤ n := by
      have : (m : ℚ) < n + 1 := lt_of_mul_lt_mul_right (hca.trans_lt ha) (two_zpow_pos g).le
      exact Int.lt_add_one_iff.mp (by exact_mod_cast this)
    have : (m : ℚ) ≤ n := by exact_mod_cast hmn
    exact (mul_le_mul_of_nonneg_right this (two_zpow_pos g).le).trans hb.le

theorem SameCell.neg {g : ℤ} {a b : ℚ} (h : SameCell g a b) : SameCell g (-a) (-b) := by
  obtain rfl | ⟨n, ⟨ha, ha'⟩, hb, hb'⟩ := h
  · exact .refl g _
  · refine .inr ⟨-n - 1, ⟨?_, ?_⟩, ?_, ?_⟩ <;> push_cast <;> linarith

theorem SameCell.le_iff {g : ℤ} {a b c : ℚ} (h : SameCell g a b) (hc : OnGrid g c) : c ≤ a ↔ c ≤ b :=
  ⟨h.le_of_le hc, h.symm.le_of_le hc⟩

theorem SameCell.lt_iff {g : ℤ} {a b c : ℚ} (h : SameCell g a b) (hc : OnGrid g c) : a < c ↔ b < c := by
  rw [← not_le, ← not_le, h.le_iff hc]

theorem SameCell.gt_iff {g : ℤ} {a b c : ℚ} (h : SameCell g a b) (hc : OnGrid g c) : c < a ↔ c < b := by
  rw [← neg_lt_neg_iff, h.neg.lt_iff hc.neg, neg_lt_neg_iff]

theorem SameCell.eq_iff {g : ℤ} {a b c : ℚ} (h : SameCell g a b) (hc : OnGrid g c) : a = c ↔ b = c := by
  rw [eq_comm, eq_iff_le_not_lt, h.le_iff hc, h.gt_iff hc, ← eq_iff_le_not_lt, eq_comm]

theorem SameCell.abs {g : ℤ} {a b : ℚ} (h : SameCell g a b) : SameCell g |a| |b| := by
  by_cases ha : a < 0
  · rw [abs_of_neg ha, abs_of_neg ((h.lt_iff (onGrid_zero g)).mp ha)]
    exact h.neg
  · have hb : ¬ b < 0 := fun hb => ha ((h.lt_iff (onGrid_zero g)).mpr hb)
    rwa [abs_of_nonneg (not_lt.mp ha), abs_of_nonneg (not_lt.mp hb)]

theorem SameCell.add {g : ℤ} {a b c : ℚ} (h : SameCell g a b) (hc : OnGrid g c) : SameCell g (c + a) (c + b) := by
  obtain rfl | ⟨n, ⟨ha, ha'⟩, hb, hb'⟩ := h
  · exact .refl g _
  · obtain ⟨m, rfl⟩ := hc
    refine .inr ⟨m + n, ⟨?_, ?_⟩, ?_, ?_⟩ <;> push_cast <;> linarith

theorem SameCell.scale {g : ℤ} {a b : ℚ} (h : SameCell g a b) (k : ℤ) : SameCell (g + k) (a * 2 ^ k) (b * 2 ^ k) := by
  obtain rfl | ⟨n, ⟨ha, ha'⟩, hb, hb'⟩ := h
  · exact .refl _ _
  · have hk := two_zpow_pos k
    refine .inr ⟨n, ⟨?_, ?_⟩, ?_, ?_⟩ <;> rw [two_zpow_add, ← mul_assoc] <;> gcongr

/-- Two numbers of one cell are in one cell of every coarser grid. -/
theorem SameCell.mono {g h : ℤ} {a b : ℚ} (hab : SameCell g a b) (hle : g ≤ h) : SameCell h a b := by
  obtain rfl | ⟨n, ⟨ha, ha'⟩, hb, hb'⟩ := hab
  · exact .refl h a
  · have hcell : SameCell g a b := .inr ⟨n, ⟨ha, ha'⟩, hb, hb'⟩
    by_cases hga : OnGrid h a
    · exact .inl ((hcell.eq_iff (hga.mono hle)).mp rfl).symm
    have hh := two_zpow_pos h
    have hlo : (⌊a / 2 ^ h⌋ : ℚ) * 2 ^ h ≤ a := (le_div_iff₀ hh).mp (Int.floor_le _)
    have hup : a < (⌊a / 2 ^ h⌋ + 1 : ℚ) * 2 ^ h := (div_lt_iff₀ hh).mp (Int.lt_floor_add_one _)
    have hlo' : (⌊a / 2 ^ h⌋ : ℚ) * 2 ^ h < a := lt_of_le_of_ne hlo fun heq => hga ⟨_, heq.symm⟩
    have hgrid (m : ℤ) : OnGrid g (m * (2 : ℚ) ^ h) := OnGrid.mono ⟨m, rfl⟩ hle
    refine .inr ⟨⌊a / 2 ^ h⌋, ⟨hlo', hup⟩, (hcell.gt_iff (hgrid _)).mp hlo', ?_⟩
    have := hgrid (⌊a / 2 ^ h⌋ + 1)
    push_cast at this
    exact (hcell.lt_iff this).mp hup

theorem SameCell.trans {g : ℤ} {a b c : ℚ} (hab : SameCell g a b) (hbc : SameCell g b c) : SameCell g a c := by
  obtain rfl | ⟨n, ha, hb⟩ := hab
  · exact hbc
  · have hn : OnGrid g (n * (2 : ℚ) ^ g) := ⟨n, rfl⟩
    have hn' : OnGrid g ((n + 1) * (2 : ℚ) ^ g) := ⟨n + 1, by push_cast; rfl⟩
    exact .inr ⟨n, ha, (hbc.gt_iff hn).mp hb.1, (hbc.lt_iff hn').mp hb.2⟩

/-- Two numbers strictly less than `2^g` from the same multiple of `2^g`, and on one side of it, are in one cell. -/
theorem sameCell_of_mem_Ioo {g : ℤ} {a b c : ℚ} (hc : OnGrid g c) (ha : c < a) (ha' : a < c + 2 ^ g) (hb : c < b)
    (hb' : b < c + 2 ^ g) : SameCell g a b := by
  obtain ⟨m, rfl⟩ := hc
  exact .inr ⟨m, ⟨ha, by linarith⟩, hb, by linarith⟩

/-- A number strictly within `2^g` of an odd multiple of `2^g` is in that multiple's cell of the next coarser grid. -/
theorem sameCell_of_odd {g m : ℤ} {a : ℚ} (hm : m % 2 = 1) (hlo : (m - 1) * (2 : ℚ) ^ g < a)
    (hup : a < (m + 1) * (2 : ℚ) ^ g) : SameCell (g + 1) a (m * 2 ^ g) := by
  obtain ⟨n, rfl⟩ : ∃ n, m = 2 * n + 1 := ⟨m / 2, by omega⟩
  have hg := two_zpow_pos g
  push_cast at hlo hup ⊢
  refine .inr ⟨n, ⟨?_, ?_⟩, ?_, ?_⟩ <;> rw [two_zpow_add, zpow_one] <;> linarith

/-! ### A jam stays in the cell (rules R102 to R104) -/

theorem or_one_eq (k : Nat) : k ||| 1 = if k % 2 = 1 then k else k + 1 := by
  have h1 := Nat.or_mod_two_pow (a := k) (b := 1) (n := 1)
  have h2 := Nat.or_div_two_pow (a := k) (b := 1) (n := 1)
  have h3 : k % 2 ||| 1 = 1 := by
    obtain h | h := Nat.mod_two_eq_zero_or_one k <;> simp [h]
  norm_num at h1 h2
  rw [h3] at h1
  split <;> omega

/-- Nothing dropped, the jam is the exact quotient; otherwise it is the odd one of the quotient's two neighbours. -/
theorem jam_cases (m n : Nat) :
    (m = jam m n * 2 ^ n) ∨
    (jam m n % 2 = 1 ∧ jam m n * 2 ^ n < m + 2 ^ n ∧ m < (jam m n + 1) * 2 ^ n) := by
  have hdiv := Nat.div_add_mod m (2 ^ n)
  have hlt := Nat.mod_lt m (Nat.two_pow_pos n)
  unfold jam
  rw [Nat.mul_comm] at hdiv
  split
  · next h0 => left; rw [Nat.or_zero]; omega
  · next h0 =>
    right
    rw [or_one_eq, add_mul]
    split
    · omega
    · rw [add_mul]
      omega

/-- A jam by `n` places stays in the cell of twice the weight of its bit 0. -/
theorem sameCell_jam (m n : Nat) : SameCell (n + 1) m (jam m n * (2 : ℚ) ^ n) := by
  obtain h | ⟨hodd, hlo, hup⟩ := jam_cases m n
  · left
    exact_mod_cast h
  · have hlo : (jam m n : ℚ) * 2 ^ n < m + 2 ^ n := by exact_mod_cast hlo
    have hup : (m : ℚ) < (jam m n + 1) * 2 ^ n := by exact_mod_cast hup
    have := sameCell_of_odd (g := n) (m := jam m n) (a := m) (by omega)
      (by rw [zpow_natCast]; push_cast; linarith) (by rw [zpow_natCast]; push_cast; linarith)
    rwa [zpow_natCast, Int.cast_natCast] at this

theorem jam_eq_zero_iff (m n : Nat) : jam m n = 0 ↔ m = 0 := by
  have h := (sameCell_jam m n).eq_iff (onGrid_zero _)
  have h2 : (2 : ℚ) ^ n ≠ 0 := by positivity
  simpa [h2] using h.symm

end Sys2Proof.Machine
end

section
/-! PROOFS. `RoundRNE` (spec/40_common_arithmetic.md rule R82) as one formula: the value in quanta, rounded to the nearest
integer with ties to even, then packed. What the packed word is as a number and as a value; that the rounding cannot tell
the numbers of one cell apart; and that `roundScaled` is the same rounding. -/

namespace Sys2Proof.Machine

/-! ### Nearest integer, ties to even -/

/-- The integer nearest to `t ≥ 0`, the even one on a tie: the decision of rule R82 on a value in quanta. -/
def nearestEven (t : ℚ) : Nat :=
  roundUp ⌊t⌋.toNat
    (if t - ⌊t⌋.toNat < 1 / 2 then .lt else if t - ⌊t⌋.toNat = 1 / 2 then .eq else .gt)

theorem nearestEven_spec {t : ℚ} (ht : 0 ≤ t) :
    |t - nearestEven t| ≤ 1 / 2 ∧ (|t - nearestEven t| = 1 / 2 → nearestEven t % 2 = 0) := by
  have hlo : (⌊t⌋.toNat : ℚ) ≤ t := Nat.floor_le ht
  have hup : t < ⌊t⌋.toNat + 1 := Nat.lt_floor_add_one t
  unfold nearestEven
  generalize ⌊t⌋.toNat = f at *
  obtain h | h | h := lt_trichotomy (t - f) (1 / 2)
  · rw [if_pos h, roundUp_lt, abs_of_nonneg (by linarith)]
    exact ⟨h.le, fun heq => absurd heq h.ne⟩
  · rw [if_neg h.not_lt, if_pos h]
    unfold roundUp
    split
    · push_cast
      rw [abs_of_nonpos (by linarith)]
      exact ⟨by linarith, fun _ => by simp_all; omega⟩
    · rw [abs_of_nonneg (by linarith)]
      exact ⟨h.le, fun _ => by simp_all⟩
  · rw [if_neg h.not_gt, if_neg h.ne', show roundUp f .gt = f + 1 from rfl]
    push_cast
    rw [abs_of_nonpos (by linarith)]
    exact ⟨by linarith, fun heq => by linarith⟩

theorem nearestEven_eq_of_abs_lt {t : ℚ} {k : Nat} (ht : 0 ≤ t) (h : |t - k| < 1 / 2) : nearestEven t = k := by
  have hne := abs_le.mp (nearestEven_spec ht).1
  have hk := abs_lt.mp h
  have h1 : (nearestEven t : ℚ) < k + 1 := by linarith
  have h2 : (k : ℚ) < nearestEven t + 1 := by linarith
  have h1 : nearestEven t < k + 1 := by exact_mod_cast h1
  have h2 : k < nearestEven t + 1 := by exact_mod_cast h2
  omega

@[simp] theorem nearestEven_natCast (k : Nat) : nearestEven k = k :=
  nearestEven_eq_of_abs_lt (by positivity) (by simp)

@[simp] theorem nearestEven_zero : nearestEven 0 = 0 := nearestEven_natCast 0

/-- The decision needs the value only to its half quantum: it is the same throughout a cell of halves. -/
theorem nearestEven_congr {t u : ℚ} (ht : 0 ≤ t) (h : SameCell (-1) t u) : nearestEven t = nearestEven u := by
  have hu : 0 ≤ u := h.le_of_le (onGrid_zero _) ht
  obtain rfl | ⟨n, ⟨htl, htu⟩, hul, huu⟩ := h
  · rfl
  rw [zpow_neg, zpow_one] at htl htu hul huu
  have hn : 0 ≤ n := by
    by_contra hn
    have : (n : ℚ) + 1 ≤ 0 := by exact_mod_cast Int.add_one_le_of_lt (not_le.mp hn)
    linarith
  obtain ⟨k, hk⟩ := Int.eq_ofNat_of_zero_le (show 0 ≤ (n + 1) / 2 by omega)
  have hnk : n = 2 * (k : ℤ) ∨ n = 2 * (k : ℤ) - 1 := by omega
  have hnk : (n : ℚ) = 2 * k ∨ (n : ℚ) = 2 * k - 1 := by exact_mod_cast hnk
  have hnear (v : ℚ) (hl : (n : ℚ) * 2⁻¹ < v) (hu : v < (n + 1) * 2⁻¹) : |v - k| < 1 / 2 := by
    rw [abs_lt]
    obtain h | h := hnk <;> rw [h] at hl hu <;> constructor <;> linarith
  rw [nearestEven_eq_of_abs_lt ht (hnear t htl htu), nearestEven_eq_of_abs_lt hu (hnear u hul huu)]

/-- The decision on a whole number with `sh` bits dropped, as `roundScaled` takes it. -/
theorem nearestEven_div_two_pow (a sh : Nat) :
    nearestEven (a / 2 ^ sh) = roundUp (a / 2 ^ sh) (compare (2 * (a % 2 ^ sh)) (2 ^ sh)) := by
  have hpos := Nat.two_pow_pos sh
  have hposQ : (0 : ℚ) < 2 ^ sh := by positivity
  have hfloor : ⌊(a : ℚ) / 2 ^ sh⌋.toNat = a / 2 ^ sh := by
    have := Nat.floor_div_eq_div (K := ℚ) a (2 ^ sh)
    push_cast at this
    exact this
  have hrem : (a : ℚ) / 2 ^ sh - (a / 2 ^ sh : Nat) = (a % 2 ^ sh : Nat) / 2 ^ sh := by
    have : ((2 ^ sh * (a / 2 ^ sh) + a % 2 ^ sh : Nat) : ℚ) = a := by rw [Nat.div_add_mod]
    push_cast at this
    field_simp
    linarith
  have hlt : ((a % 2 ^ sh : Nat) : ℚ) / 2 ^ sh < 1 / 2 ↔ 2 * (a % 2 ^ sh) < 2 ^ sh := by
    rw [div_lt_div_iff₀ hposQ (by norm_num), one_mul, mul_comm]
    exact_mod_cast Iff.rfl
  have heq : ((a % 2 ^ sh : Nat) : ℚ) / 2 ^ sh = 1 / 2 ↔ 2 * (a % 2 ^ sh) = 2 ^ sh := by
    rw [div_eq_div_iff hposQ.ne' (by norm_num), one_mul, mul_comm]
    exact_mod_cast Iff.rfl
  rw [nearestEven, hfloor, hrem]
  simp only [hlt, heq, compare, compareOfLessAndEq]

/-! ### The quantum at a value -/

/-- The exponent of the quantum rule R82 rounds `v` to. -/
def quantumAt (v : ℚ) : ℤ := quantumExp (floorLog2 |v|)

theorem quantumAt_ge (v : ℚ) : -1074 ≤ quantumAt v := quantumExp_ge _

@[simp] theorem quantumAt_neg (v : ℚ) : quantumAt (-v) = quantumAt v := by rw [quantumAt, quantumAt, abs_neg]

theorem abs_lt_of_quantumAt {v : ℚ} (hv : v ≠ 0) : |v| < (2 : ℚ) ^ (quantumAt v + 53) := by
  refine (floorLog2_spec (abs_pos.mpr hv)).2.trans_le (two_zpow_le ?_)
  unfold quantumAt quantumExp
  omega

theorem le_abs_of_quantumAt {v : ℚ} (hv : v ≠ 0) (hq : quantumAt v ≠ -1074) : (2 : ℚ) ^ (quantumAt v + 52) ≤ |v| := by
  refine le_trans (two_zpow_le ?_) (floorLog2_spec (abs_pos.mpr hv)).1
  unfold quantumAt quantumExp at hq ⊢
  omega

theorem quantumAt_eq {v : ℚ} {q : ℤ} (hv : v ≠ 0) (hq : -1074 ≤ q) (hup : |v| < (2 : ℚ) ^ (q + 53))
    (hlo : q ≠ -1074 → (2 : ℚ) ^ (q + 52) ≤ |v|) : quantumAt v = q := by
  have h1 := two_zpow_lt_iff.mp ((floorLog2_spec (abs_pos.mpr hv)).1.trans_lt hup)
  by_cases hq0 : q = -1074
  · unfold quantumAt quantumExp
    omega
  · have h2 := two_zpow_lt_iff.mp ((hlo hq0).trans_lt (floorLog2_spec (abs_pos.mpr hv)).2)
    unfold quantumAt quantumExp
    omega

/-- Below `2^(q+53)` the quantum is at most `2^q`. -/
theorem quantumAt_le {v : ℚ} {q : ℤ} (hv : v ≠ 0) (hq : -1074 ≤ q) (hup : |v| < (2 : ℚ) ^ (q + 53)) :
    quantumAt v ≤ q := by
  by_cases h0 : quantumAt v = -1074
  · omega
  · have := two_zpow_lt_iff.mp ((le_abs_of_quantumAt hv h0).trans_lt hup)
    omega

/-- From `2^(q+52)` on the quantum is at least `2^q`. -/
theorem le_quantumAt {v : ℚ} {q : ℤ} (hlo : (2 : ℚ) ^ (q + 52) ≤ |v|) : q ≤ quantumAt v := by
  have hv : v ≠ 0 := abs_pos.mp ((two_zpow_pos _).trans_le hlo)
  have := two_zpow_lt_iff.mp (hlo.trans_lt (abs_lt_of_quantumAt hv))
  omega

/-! ### Signs -/

/-- The sign bit as a factor. -/
def signQ (s : Bool) : ℚ := if s then -1 else 1

@[simp] theorem abs_signQ (s : Bool) : |signQ s| = 1 := by cases s <;> simp [signQ]

theorem signQ_ne_zero (s : Bool) : signQ s ≠ 0 := by cases s <;> simp [signQ]

theorem signQ_not (s : Bool) : signQ (!s) = -signQ s := by cases s <;> simp [signQ]

theorem signQ_xor (s t : Bool) : signQ (s ^^ t) = signQ s * signQ t := by cases s <;> cases t <;> simp [signQ]

theorem signQ_mul_lt_zero {a : ℚ} (ha : 0 < a) (s : Bool) : signQ s * a < 0 ↔ s = true := by
  cases s <;> simp [signQ, ha, ha.le]

theorem signQ_mul_abs {v : ℚ} {s : Bool} (h : s = decide (v < 0)) : signQ s * |v| = v := by
  by_cases hv : v < 0
  · simp [h, hv, signQ, abs_of_neg hv]
  · simp [h, hv, signQ, abs_of_nonneg (not_lt.mp hv)]

theorem OnGrid.signQ_mul {g : ℤ} {c : ℚ} (h : OnGrid g c) (s : Bool) : OnGrid g (signQ s * c) := by
  cases s
  · simpa [signQ] using h
  · simpa [signQ] using h.neg

theorem SameCell.signQ_mul {g : ℤ} {v w : ℚ} (h : SameCell g v w) (s : Bool) :
    SameCell g (signQ s * v) (signQ s * w) := by
  cases s
  · simpa [signQ] using h
  · simpa [signQ] using h.neg

/-! ### Packing -/

/-- A rounded significand and its quantum as rule R82 hands them to its last lines. -/
def PackReady (k : Nat) (q : ℤ) : Prop := -1074 ≤ q ∧ k ≤ 2 ^ 53 ∧ (k < 2 ^ 52 → q = -1074)

theorem toNat_pattern (s : Bool) (e : BitVec 11) (f : BitVec 52) :
    (pattern s e f).toNat = s.toNat * 2 ^ 63 + e.toNat * 2 ^ 52 + f.toNat := by
  have he := e.isLt
  have hf := f.isLt
  rw [pattern, BitVec.toNat_append, Nat.shiftLeft_eq, Nat.mul_comm, ← Nat.two_pow_add_eq_or_of_lt hf,
    BitVec.toNat_append, Nat.shiftLeft_eq, Nat.mul_comm _ (2 ^ 11), ← Nat.two_pow_add_eq_or_of_lt he,
    BitVec.toNat_ofBool]
  ring

theorem toNat_zero (s : Bool) : (zero s).toNat = s.toNat * 2 ^ 63 := by
  simp [zero, toNat_pattern]

theorem toNat_inf (s : Bool) : (inf s).toNat = s.toNat * 2 ^ 63 + 2047 * 2 ^ 52 := by
  simp [inf, toNat_pattern]

theorem toNat_packNormal {s : Bool} {k : Nat} {q : ℤ} (hq : -1074 ≤ q) (hlo : 2 ^ 52 ≤ k) (hhi : k < 2 ^ 53) :
    (packNormal s k q).toNat = s.toNat * 2 ^ 63 + min ((q + 1074).toNat * 2 ^ 52 + k) (2047 * 2 ^ 52) := by
  unfold packNormal
  dsimp only
  split
  · rw [toNat_inf]
    omega
  · rw [toNat_pattern, BitVec.toNat_ofInt, BitVec.toNat_ofNat]
    omega

/-- The packed pattern as a number: the significand added to the exponent, up to infinity's pattern. -/
theorem toNat_packRounded {s : Bool} {k : Nat} {q : ℤ} (h : PackReady k q) :
    (packRounded s k q).toNat = s.toNat * 2 ^ 63 + min ((q + 1074).toNat * 2 ^ 52 + k) (2047 * 2 ^ 52) := by
  obtain ⟨hq, hk, hsub⟩ := h
  unfold packRounded
  split_ifs with h0 hcarry hlt
  · rw [toNat_zero]
    have := hsub (by omega)
    omega
  · rw [toNat_packNormal (by omega) le_rfl (by norm_num)]
    omega
  · rw [toNat_pattern, BitVec.toNat_ofNat, BitVec.toNat_ofNat]
    have := hsub hlt
    omega
  · exact toNat_packNormal hq (by omega) (by omega)

theorem val_packNormal {s : Bool} {k : Nat} {q : ℤ} (hq : -1074 ≤ q) (hfin : q ≤ 971) (hlo : 2 ^ 52 ≤ k)
    (hhi : k < 2 ^ 53) : isFinite (packNormal s k q) = true ∧
      val (packNormal s k q) = signQ s * k * (2 : ℚ) ^ q := by
  have he : (BitVec.ofInt 11 (q + 52 + 1023)).toNat = (q + 1075).toNat := by
    rw [BitVec.toNat_ofInt]
    omega
  have hne0 : BitVec.ofInt 11 (q + 52 + 1023) ≠ 0#11 := by
    rw [← BitVec.toNat_ne_iff_ne, he]
    simp
    omega
  have hne1 : BitVec.ofInt 11 (q + 52 + 1023) ≠ 0x7FF#11 := by
    rw [← BitVec.toNat_ne_iff_ne, he]
    simp
    omega
  have hk : ((BitVec.ofNat 52 k).toNat : ℚ) = k - 2 ^ 52 := by
    rw [BitVec.toNat_ofNat, eq_sub_iff_add_eq]
    exact_mod_cast (show k % 2 ^ 52 + 2 ^ 52 = k by omega)
  have hexp : ((q + 1075).toNat : ℤ) - 1075 = q := by omega
  unfold packNormal
  dsimp only
  rw [if_neg (by omega)]
  refine ⟨by simpa [isFinite] using hne1, ?_⟩
  rw [val, expf_pattern, sign_pattern, frac_pattern, signQ]
  simp only [hne0, if_false, he, hk, hexp]
  ring

/-- The packed pattern as a value, where it is finite. -/
theorem val_packRounded {s : Bool} {k : Nat} {q : ℤ} (h : PackReady k q) (hfin : k * (2 : ℚ) ^ q < 2 ^ 1024) :
    isFinite (packRounded s k q) = true ∧ val (packRounded s k q) = signQ s * k * (2 : ℚ) ^ q := by
  obtain ⟨hq, hk, hsub⟩ := h
  have hbound {n : ℕ} (hn : 2 ^ n ≤ k) : q + n < 1024 := by
    rw [← two_zpow_lt_iff, two_zpow_add_natCast, mul_comm]
    refine lt_of_le_of_lt ?_ (hfin.trans_eq (by rw [← zpow_natCast]; rfl))
    gcongr
    exact_mod_cast hn
  obtain hlt | hge := lt_or_ge k (2 ^ 52)
  · obtain rfl | h0 := eq_or_ne k 0
    · simp [packRounded, (val_eq_zero_iff (zero s)).mpr]
    · rw [packRounded_of_subnormal h0 hlt, hsub hlt]
      refine ⟨by simp [isFinite], ?_⟩
      rw [val, expf_pattern, sign_pattern, frac_pattern, BitVec.toNat_ofNat, Nat.mod_eq_of_lt hlt, if_pos rfl, signQ]
  · obtain hlt53 | hcarry := lt_or_eq_of_le hk
    · have hq' : q + 52 < 1024 := hbound hge
      rw [packRounded_of_normal hge hlt53]
      exact val_packNormal hq (by omega) hge hlt53
    · have hq' : q + 53 < 1024 := hbound hcarry.symm.le
      obtain ⟨hf, hv⟩ := val_packNormal (s := s) (show -1074 ≤ q + 1 by omega) (by omega) le_rfl (by norm_num)
      rw [packRounded, if_neg (by omega), if_pos hcarry]
      refine ⟨hf, hv.trans ?_⟩
      rw [hcarry, two_zpow_add]
      push_cast
      ring

/-! ### The rounding -/

theorem roundRNE_eq (v : ℚ) :
    roundRNE v = packRounded (decide (v < 0)) (nearestEven (|v| / (2 : ℚ) ^ quantumAt v)) (quantumAt v) := rfl

theorem packReady_nearestEven {v : ℚ} (hv : v ≠ 0) :
    PackReady (nearestEven (|v| / (2 : ℚ) ^ quantumAt v)) (quantumAt v) := by
  have hpos := two_zpow_pos (quantumAt v)
  have ht : |v| / (2 : ℚ) ^ quantumAt v < 2 ^ 53 := by
    rw [div_lt_iff₀ hpos, mul_comm]
    exact (abs_lt_of_quantumAt hv).trans_eq (two_zpow_add_natCast _ 53)
  have hspec := abs_le.mp (nearestEven_spec (show 0 ≤ |v| / (2 : ℚ) ^ quantumAt v by positivity)).1
  refine ⟨quantumAt_ge v, ?_, ?_⟩
  · have : (nearestEven (|v| / (2 : ℚ) ^ quantumAt v) : ℚ) < (2 ^ 53 + 1 : ℕ) := by push_cast; linarith
    have := Nat.cast_lt.mp this
    omega
  · intro hlt
    by_contra hq
    have ht : (2 : ℚ) ^ 52 ≤ |v| / (2 : ℚ) ^ quantumAt v := by
      rw [le_div_iff₀ hpos, mul_comm]
      exact (two_zpow_add_natCast _ 52).symm.trans_le (le_abs_of_quantumAt hv hq)
    have : ((2 ^ 52 : ℕ) : ℚ) < nearestEven (|v| / (2 : ℚ) ^ quantumAt v) + 1 := by push_cast; linarith
    have : 2 ^ 52 < nearestEven (|v| / (2 : ℚ) ^ quantumAt v) + 1 := by exact_mod_cast this
    omega

/-- `RoundRNE(v)` as a number. -/
theorem toNat_roundRNE {v : ℚ} (hv : v ≠ 0) : (roundRNE v).toNat = (decide (v < 0)).toNat * 2 ^ 63 +
    min ((quantumAt v + 1074).toNat * 2 ^ 52 + nearestEven (|v| / (2 : ℚ) ^ quantumAt v)) (2047 * 2 ^ 52) :=
  toNat_packRounded (packReady_nearestEven hv)

@[simp] theorem sign_roundRNE (v : ℚ) : sign (roundRNE v) = decide (v < 0) := sign_packRounded ..

theorem isNan_roundRNE (v : ℚ) : isNan (roundRNE v) = false := isNan_packRounded (quantumAt_ge v)

/-- Rounding a negated value flips the sign bit (rule R83 (a)). -/
theorem roundRNE_neg {v : ℚ} (hv : v ≠ 0) : roundRNE (-v) = flipSign (roundRNE v) := by
  have hnat : (roundRNE (-v)).toNat % 2 ^ 63 = (roundRNE v).toNat % 2 ^ 63 := by
    rw [toNat_roundRNE hv, toNat_roundRNE (neg_ne_zero.mpr hv), quantumAt_neg, abs_neg]
    omega
  refine pattern_ext ?_ ?_ ?_
  · have hneg : -v < 0 ↔ ¬ v < 0 := by
      rw [neg_lt_zero, not_lt]
      exact ⟨le_of_lt, fun h => lt_of_le_of_ne h hv.symm⟩
    simp only [sign_roundRNE, sign_flipSign, hneg, decide_not]
  · rw [expf_flipSign, ← BitVec.toNat_inj, toNat_expf, toNat_expf]
    omega
  · rw [frac_flipSign, ← BitVec.toNat_inj, toNat_frac, toNat_frac]
    omega

theorem quantumAt_congr {g : ℤ} {v w : ℚ} (h : SameCell g v w) (hv : v ≠ 0) (hg : g ≤ quantumAt v) :
    quantumAt w = quantumAt v := by
  have hw : w ≠ 0 := fun hw => hv ((h.eq_iff (onGrid_zero g)).mpr hw)
  have := quantumAt_ge v
  refine quantumAt_eq hw (quantumAt_ge v) ?_ fun hq => ?_
  · exact (h.abs.lt_iff (onGrid_zpow (by omega))).mp (abs_lt_of_quantumAt hv)
  · exact (h.abs.le_iff (onGrid_zpow (by omega))).mp (le_abs_of_quantumAt hv hq)

/-- The rounding cannot tell two numbers of one cell apart, when the cells are no wider than half a quantum. -/
theorem roundRNE_congr {g : ℤ} {v w : ℚ} (h : SameCell g v w) (hv : v ≠ 0) (hg : g ≤ quantumAt v - 1) :
    roundRNE v = roundRNE w := by
  have hcell := (h.abs.scale (-quantumAt v)).mono (show g + -quantumAt v ≤ -1 by omega)
  simp only [zpow_neg, ← div_eq_mul_inv] at hcell
  rw [roundRNE_eq v, roundRNE_eq w, quantumAt_congr h hv (by omega), nearestEven_congr (by positivity) hcell]
  simp only [h.lt_iff (onGrid_zero g)]

/-- The same, for cells 53 binary places below a lower bound of the value. -/
theorem roundRNE_congr_of_le {g e : ℤ} {v w : ℚ} (h : SameCell g v w) (hv : (2 : ℚ) ^ e ≤ |v|) (hg : g + 53 ≤ e) :
    roundRNE v = roundRNE w := by
  have hq : e - 52 ≤ quantumAt v := le_quantumAt (by rwa [sub_add_cancel])
  exact roundRNE_congr h (abs_pos.mp ((two_zpow_pos e).trans_le hv)) (by omega)

/-- `RoundRNE` of a magnitude with a sign, as a number. -/
theorem toNat_roundRNE_signQ {a : ℚ} (ha : 0 < a) (s : Bool) : (roundRNE (signQ s * a)).toNat = s.toNat * 2 ^ 63 +
    min ((quantumAt a + 1074).toNat * 2 ^ 52 + nearestEven (a / (2 : ℚ) ^ quantumAt a)) (2047 * 2 ^ 52) := by
  have habs : |signQ s * a| = a := by rw [abs_mul, abs_signQ, one_mul, abs_of_pos ha]
  have hq : quantumAt (signQ s * a) = quantumAt a := by rw [quantumAt, quantumAt, habs, abs_of_pos ha]
  have hs : decide (signQ s * a < 0) = s := by simp only [signQ_mul_lt_zero ha, Bool.decide_eq_true]
  rw [toNat_roundRNE (mul_ne_zero (signQ_ne_zero s) ha.ne'), hq, hs, habs]

/-! ### Whole numbers of units -/

theorem abs_intCast_mul_zpow (n e : ℤ) : |(n : ℚ) * (2 : ℚ) ^ e| = n.natAbs * (2 : ℚ) ^ e := by
  rw [abs_mul, abs_of_pos (two_zpow_pos e), Nat.cast_natAbs, Int.cast_abs]

theorem quantumAt_intCast_mul {n : ℤ} (hn : n ≠ 0) (e : ℤ) :
    quantumAt (n * (2 : ℚ) ^ e) = quantumExp (e + (n.natAbs.log2 : ℤ)) := by
  have ha : n.natAbs ≠ 0 := Int.natAbs_ne_zero.mpr hn
  have hlo : ((2 ^ n.natAbs.log2 : ℕ) : ℚ) ≤ n.natAbs := by exact_mod_cast Nat.log2_self_le ha
  have hup : (n.natAbs : ℚ) < ((2 ^ (n.natAbs.log2 + 1) : ℕ) : ℚ) := by exact_mod_cast Nat.lt_log2_self
  push_cast at hlo hup
  rw [quantumAt, abs_intCast_mul_zpow]
  congr 1
  apply floorLog2_eq_of
  · rw [two_zpow_add_natCast, mul_comm]
    gcongr
  · rw [add_assoc, two_zpow_add, mul_comm (n.natAbs : ℚ)]
    gcongr
    exact_mod_cast hup

/-- The rounding by shifts is `RoundRNE` of the value it stands for. -/
theorem roundScaled_eq_roundRNE {n : ℤ} (hn : n ≠ 0) (e : ℤ) : roundScaled n e = roundRNE (n * (2 : ℚ) ^ e) := by
  have hsign : decide ((n : ℚ) * (2 : ℚ) ^ e < 0) = decide (n < 0) := by
    rw [decide_eq_decide, ← zero_mul ((2 : ℚ) ^ e), mul_lt_mul_iff_left₀ (two_zpow_pos e), Int.cast_lt_zero]
  have hscale (q : ℤ) : (n.natAbs : ℚ) * 2 ^ e / 2 ^ q = n.natAbs * (2 : ℚ) ^ (e - q) := by
    rw [zpow_sub₀ (by norm_num), mul_div_assoc]
  rw [roundRNE_eq, hsign, quantumAt_intCast_mul hn, abs_intCast_mul_zpow, hscale]
  obtain h | h := le_or_gt (quantumExp (e + (n.natAbs.log2 : ℤ))) e
  · obtain ⟨d, hd⟩ := Int.le.dest h
    rw [roundScaled_of_le h, finishRound, roundUp_lt, show e - quantumExp (e + n.natAbs.log2) = (d : ℤ) by omega,
      zpow_natCast, Int.toNat_natCast, Nat.shiftLeft_eq]
    congr 1
    exact_mod_cast (nearestEven_natCast (n.natAbs * 2 ^ d)).symm
  · obtain ⟨d, hd⟩ := Int.le.dest h.le
    rw [roundScaled_of_lt h, finishRound, show e - quantumExp (e + n.natAbs.log2) = -(d : ℤ) by omega,
      show quantumExp (e + n.natAbs.log2) - e = (d : ℤ) by omega, zpow_neg, zpow_natCast, Int.toNat_natCast,
      Nat.shiftRight_eq_div_pow, ← div_eq_mul_inv, nearestEven_div_two_pow]

/-- A representable nonzero value rounds to its own pattern (rule R83 (b)). -/
theorem roundRNE_val {b : Word} (hfin : isFinite b = true) (hb : isZero b = false) : roundRNE (val b) = b := by
  have hv : valUnits b ≠ 0 := fun h0 => by simp [(valUnits_eq_zero_iff b).mp h0] at hb
  rw [val_eq_valUnits, ← roundScaled_eq_roundRNE hv, roundScaled_valUnits hfin hb]

end Sys2Proof.Machine
end

section
/-! PROOFS. The contract (spec/40_common_arithmetic.md rules R84 to R89): when its rows apply and what they give, then its
symmetries and the signs of its zero results. -/

namespace Sys2Proof.Machine

/-! ### Classes of patterns -/

@[simp] theorem isNan_flipSign (b : Word) : isNan (flipSign b) = isNan b := by simp [isNan]
@[simp] theorem isInf_flipSign (b : Word) : isInf (flipSign b) = isInf b := by simp [isInf]
@[simp] theorem isInf_zero (s : Bool) : isInf (zero s) = false := by simp [isInf]
@[simp] theorem isZero_inf (s : Bool) : isZero (inf s) = false := by simp [isZero]
@[simp] theorem isZero_qnan : isZero qnan = false := by simp [isZero, qnan, expf]

theorem isFinite_of_isZero {b : Word} (h : isZero b = true) : isFinite b = true := (isFinite_iff b).mpr (.inl h)

theorem isZero_of_isInf {b : Word} (h : isInf b = true) : isZero b = false := by
  simp only [isInf, Bool.and_eq_true, beq_iff_eq] at h
  simp [isZero, h.1]

/-- A zero is its sign (rule R13). -/
theorem eq_zero_of_isZero {b : Word} (h : isZero b = true) : b = zero (sign b) := by
  simp only [isZero, Bool.and_eq_true, beq_iff_eq] at h
  exact pattern_ext (by simp) (by simp [h.1]) (by simp [h.2])

/-- An infinity is its sign (rule R13). -/
theorem eq_inf_of_isInf {b : Word} (h : isInf b = true) : b = inf (sign b) := by
  simp only [isInf, Bool.and_eq_true, beq_iff_eq] at h
  exact pattern_ext (by simp) (by simp [h.1]) (by simp [h.2])

@[simp] theorem zero_inj {s t : Bool} : zero s = zero t ↔ s = t :=
  ⟨fun h => by simpa using congrArg sign h, congrArg zero⟩

theorem flipSign_zero (s : Bool) : flipSign (zero s) = zero (!s) := pattern_ext (by simp) (by simp) (by simp)

theorem flipSign_inf (s : Bool) : flipSign (inf s) = inf (!s) := pattern_ext (by simp) (by simp) (by simp)

@[simp] theorem val_zero (s : Bool) : val (zero s) = 0 := (val_eq_zero_iff _).mpr (isZero_zero s)

theorem val_ne_zero {b : Word} (h : isZero b = false) : val b ≠ 0 := fun h0 => by
  simp [(val_eq_zero_iff b).mp h0] at h

/-! ### The rows (rule R85) -/

/-- Past the rows of NaNs and infinities the operands are finite. -/
theorem isFinite_of_no_row {x y z : Word} (hnan : ¬ (isNan x || isNan y || isNan z) = true)
    (hxy : ¬ (isInf x || isInf y) = true) (hz : ¬ isInf z = true) :
    isFinite x = true ∧ isFinite y = true ∧ isFinite z = true := by
  simp only [Bool.or_eq_true, not_or, Bool.not_eq_true] at hnan hxy hz
  simp only [isFinite_eq, hnan, hxy, hz, Bool.not_false, Bool.and_self, and_self]

/-- The rows and what each gives: a NaN, an infinity, the infinite addend, a zero, the addend of a zero product; past them
the operands are finite and the multiplicands nonzero. -/
theorem specialRow_cases (x y z : Word) :
    specialRow x y z = some qnan ∨
    ((isInf x = true ∨ isInf y = true) ∧ specialRow x y z = some (inf (sign x ^^ sign y))) ∨
    (isInf z = true ∧ specialRow x y z = some z) ∨
    (isFinite x = true ∧ isFinite y = true ∧ (isZero x = true ∨ isZero y = true) ∧ isZero z = true ∧
      specialRow x y z = some (zero ((sign x ^^ sign y) && sign z))) ∨
    (isFinite x = true ∧ isFinite y = true ∧ (isZero x = true ∨ isZero y = true) ∧ isFinite z = true ∧
      isZero z = false ∧ specialRow x y z = some z) ∨
    (isFinite x = true ∧ isFinite y = true ∧ isFinite z = true ∧ isZero x = false ∧ isZero y = false ∧
      specialRow x y z = none) := by
  unfold specialRow
  dsimp only
  by_cases hnan : (isNan x || isNan y || isNan z) = true
  · exact .inl (if_pos hnan)
  by_cases hinv : (isInf x && isZero y || isZero x && isInf y) = true
  · exact .inl (by rw [if_neg hnan, if_pos hinv])
  by_cases hinf : ((isInf x || isInf y) && isInf z && (sign z != (sign x ^^ sign y))) = true
  · exact .inl (by rw [if_neg hnan, if_neg hinv, if_pos hinf])
  rw [if_neg hnan, if_neg hinv, if_neg hinf]
  by_cases hxy : (isInf x || isInf y) = true
  · exact .inr (.inl ⟨(Bool.or_eq_true _ _).mp hxy, if_pos hxy⟩)
  by_cases hz : isInf z = true
  · exact .inr (.inr (.inl ⟨hz, by rw [if_neg hxy, if_pos hz]⟩))
  rw [if_neg hxy, if_neg hz]
  obtain ⟨hfx, hfy, hfz⟩ := isFinite_of_no_row hnan hxy hz
  by_cases h0 : (isZero x || isZero y) = true
  · have h0' := (Bool.or_eq_true _ _).mp h0
    rw [h0, Bool.true_and, if_pos rfl]
    by_cases hz0 : isZero z = true
    · exact .inr (.inr (.inr (.inl ⟨hfx, hfy, h0', hz0, if_pos hz0⟩)))
    · exact .inr (.inr (.inr (.inr (.inl ⟨hfx, hfy, h0', hfz, Bool.eq_false_iff.mpr hz0, if_neg hz0⟩))))
  · rw [Bool.not_eq_true] at h0
    obtain ⟨hx0, hy0⟩ := Bool.or_eq_false_iff.mp h0
    refine .inr (.inr (.inr (.inr (.inr ⟨hfx, hfy, hfz, hx0, hy0, ?_⟩))))
    rw [h0, Bool.false_and, if_neg Bool.false_ne_true, if_neg Bool.false_ne_true]

/-- No row applies exactly when the operands are finite and the multiplicands nonzero. -/
theorem specialRow_eq_none_iff {x y z : Word} : specialRow x y z = none ↔
    isFinite x = true ∧ isFinite y = true ∧ isFinite z = true ∧ isZero x = false ∧ isZero y = false := by
  constructor
  · intro h
    have hrows := specialRow_cases x y z
    simp only [h, reduceCtorEq, and_false, false_or, and_true] at hrows
    exact hrows
  · rintro ⟨hx, hy, hz, hx0, hy0⟩
    simp [specialRow, isNan_of_isFinite, isInf_of_isFinite, hx, hy, hz, hx0, hy0]

/-- What a row that applies gives. -/
theorem specialRow_eq_some {x y z r : Word} (h : specialRow x y z = some r) :
    r = qnan ∨
    ((isInf x = true ∨ isInf y = true) ∧ r = inf (sign x ^^ sign y)) ∨
    (isInf z = true ∧ r = z) ∨
    (isFinite x = true ∧ isFinite y = true ∧ (isZero x = true ∨ isZero y = true) ∧ isZero z = true ∧
      r = zero ((sign x ^^ sign y) && sign z)) ∨
    (isFinite x = true ∧ isFinite y = true ∧ (isZero x = true ∨ isZero y = true) ∧ isFinite z = true ∧
      isZero z = false ∧ r = z) := by
  have hrows := specialRow_cases x y z
  simp only [h, Option.some.injEq, reduceCtorEq, and_false, or_false] at hrows
  exact hrows

/-- Row S6. -/
theorem specialRow_of_zeros {x y z : Word} (hx : isFinite x = true) (hy : isFinite y = true)
    (hxy : isZero x = true ∨ isZero y = true) (hz : isZero z = true) :
    specialRow x y z = some (zero ((sign x ^^ sign y) && sign z)) := by
  have hzf := isFinite_of_isZero hz
  simp [specialRow, isNan_of_isFinite, isInf_of_isFinite, hx, hy, hzf, hxy, hz]

theorem specialRow_comm (x y z : Word) : specialRow x y z = specialRow y x z := by
  have hinv : (isInf x && isZero y || isZero x && isInf y) = (isInf y && isZero x || isZero y && isInf x) := by
    rw [Bool.or_comm, Bool.and_comm (isZero x), Bool.and_comm (isInf x)]
  unfold specialRow
  simp only [hinv, Bool.xor_comm (sign x), Bool.or_comm (isNan x), Bool.or_comm (isInf x), Bool.or_comm (isZero x)]

theorem specialRow_flipSign_flipSign (x y z : Word) : specialRow (flipSign x) (flipSign y) z = specialRow x y z := by
  unfold specialRow
  simp

/-! ### The contract by its cases (rule R86) -/

theorem fmaContract_of_some {x y z r : Word} (h : specialRow x y z = some r) : fmaContract x y z = r := by
  simp [fmaContract, h]

theorem fmaContract_of_none {x y z : Word} (h : specialRow x y z = none) : fmaContract x y z =
    if exactValue x y z = 0 then zero false else roundRNE (exactValue x y z) := by
  simp [fmaContract, h]

theorem fmaContract_of_exact_ne_zero {x y z : Word} (h : specialRow x y z = none) (hv : exactValue x y z ≠ 0) :
    fmaContract x y z = roundRNE (exactValue x y z) := by
  rw [fmaContract_of_none h, if_neg hv]

/-! ### Symmetries (rule R89) -/

theorem exactValue_comm (x y z : Word) : exactValue x y z = exactValue y x z := by
  rw [exactValue, exactValue, mul_comm]

theorem fmaContract_comm (x y z : Word) : fmaContract x y z = fmaContract y x z := by
  rw [fmaContract, fmaContract, specialRow_comm, exactValue_comm]

theorem fmaContract_flipSign_flipSign (x y z : Word) :
    fmaContract (flipSign x) (flipSign y) z = fmaContract x y z := by
  have hv : exactValue (flipSign x) (flipSign y) z = exactValue x y z := by simp [exactValue]
  rw [fmaContract, fmaContract, specialRow_flipSign_flipSign, hv]

/-- With a multiplicand and the addend negated the same row applies; its result is negated, unless it is a NaN or the
zero of two signs that differ. -/
theorem specialRow_flipSign_of_some {x y z r : Word} (h : specialRow x y z = some r) (hnan : isNan r = false)
    (hzero : ¬ (isFinite x = true ∧ isFinite y = true ∧ (isZero x = true ∨ isZero y = true) ∧ isZero z = true ∧
      (sign x ^^ sign y) ≠ sign z)) :
    specialRow (flipSign x) y (flipSign z) = some (flipSign r) := by
  have hsign : ((!sign z) != ((!sign x) ^^ sign y)) = (sign z != (sign x ^^ sign y)) := by
    rw [Bool.not_xor]
    cases sign z <;> simp
  have hqnan : isNan qnan ≠ false := by simp [isNan, qnan, expf, frac]
  unfold specialRow at h ⊢
  dsimp only at h ⊢
  rw [isNan_flipSign, isNan_flipSign, isInf_flipSign, isInf_flipSign, isZero_flipSign, isZero_flipSign, sign_flipSign,
    sign_flipSign, hsign]
  by_cases hn : (isNan x || isNan y || isNan z) = true
  · rw [if_pos hn] at h
    cases h
    exact absurd hnan hqnan
  by_cases hv : (isInf x && isZero y || isZero x && isInf y) = true
  · rw [if_neg hn, if_pos hv] at h
    cases h
    exact absurd hnan hqnan
  by_cases hi : ((isInf x || isInf y) && isInf z && (sign z != (sign x ^^ sign y))) = true
  · rw [if_neg hn, if_neg hv, if_pos hi] at h
    cases h
    exact absurd hnan hqnan
  rw [if_neg hn, if_neg hv, if_neg hi] at h ⊢
  by_cases hxy : (isInf x || isInf y) = true
  · rw [if_pos hxy] at h ⊢
    cases h
    rw [flipSign_inf, Bool.not_xor]
  by_cases hz : isInf z = true
  · rw [if_neg hxy, if_pos hz] at h ⊢
    cases h
    rfl
  rw [if_neg hxy, if_neg hz] at h ⊢
  by_cases h0 : ((isZero x || isZero y) && isZero z) = true
  · obtain ⟨hfx, hfy, -⟩ := isFinite_of_no_row hn hxy hz
    obtain ⟨hxy0, hz0⟩ := (Bool.and_eq_true _ _).mp h0
    have hs : (sign x ^^ sign y) = sign z := by
      by_contra hs
      exact hzero ⟨hfx, hfy, (Bool.or_eq_true _ _).mp hxy0, hz0, hs⟩
    rw [if_pos h0] at h ⊢
    cases h
    rw [flipSign_zero, Bool.not_xor, hs, Bool.and_self, Bool.and_self]
  · rw [if_neg h0] at h ⊢
    by_cases h0' : (isZero x || isZero y) = true
    · rw [if_pos h0'] at h ⊢
      cases h
      rfl
    · rw [if_neg h0'] at h
      cases h

/-- Without the exceptions the result of a negated multiplicand and a negated addend is negated. -/
theorem fmaContract_flipSign {x y z : Word} (hnan : isNan (fmaContract x y z) = false)
    (hzero : ¬ (isFinite x = true ∧ isFinite y = true ∧ isFinite z = true ∧ exactValue x y z = 0 ∧
      ¬ ((isZero x = true ∨ isZero y = true) ∧ isZero z = true ∧ (sign x ^^ sign y) = sign z))) :
    fmaContract (flipSign x) y (flipSign z) = flipSign (fmaContract x y z) := by
  cases hrow : specialRow x y z with
  | some r =>
    rw [fmaContract_of_some hrow] at hnan ⊢
    refine fmaContract_of_some (specialRow_flipSign_of_some hrow hnan fun ⟨hx, hy, hxy, hz, hs⟩ => hzero ?_)
    refine ⟨hx, hy, isFinite_of_isZero hz, ?_, fun ⟨_, _, heq⟩ => hs heq⟩
    have hxy : val x * val y = 0 := by rw [mul_eq_zero, val_eq_zero_iff, val_eq_zero_iff]; exact hxy
    rw [exactValue, hxy, (val_eq_zero_iff z).mpr hz, add_zero]
  | none =>
    obtain ⟨hx, hy, hz, hx0, hy0⟩ := specialRow_eq_none_iff.mp hrow
    have hv : exactValue x y z ≠ 0 := fun hv => hzero ⟨hx, hy, hz, hv, by simp [hx0, hy0]⟩
    have hneg : exactValue (flipSign x) y (flipSign z) = -exactValue x y z := by
      rw [exactValue, exactValue, val_flipSign, val_flipSign]
      ring
    rw [fmaContract_of_exact_ne_zero hrow hv, ← roundRNE_neg hv, ← hneg]
    exact fmaContract_of_exact_ne_zero (specialRow_eq_none_iff.mpr (by simp [*])) (by simp [hneg, hv])

/-- `1.0` is finite, positive and not zero. -/
theorem one_class : isNan 0x3FF0000000000000#64 = false ∧ isInf 0x3FF0000000000000#64 = false ∧
    isZero 0x3FF0000000000000#64 = false ∧ sign 0x3FF0000000000000#64 = false := by
  simp [isNan, isInf, isZero, sign, expf, frac]

theorem val_one : val 0x3FF0000000000000#64 = 1 := by
  have he : expf 0x3FF0000000000000#64 = 1023#11 := by simp [expf]
  have hf : frac 0x3FF0000000000000#64 = 0#52 := by simp [frac]
  have hs : sign 0x3FF0000000000000#64 = false := by simp [sign]
  simp [val, he, hf, hs, zpow_neg]

/-- Multiplying by 1.0 and adding `+0` gives the operand back, `-0` as `+0`. -/
theorem fmaContract_one_zero {x : Word} (hnan : isNan x = false) :
    fmaContract x 0x3FF0000000000000#64 (zero false) = if x = zero true then zero false else x := by
  obtain ⟨h1nan, h1inf, h10, h1s⟩ := one_class
  by_cases hinf : isInf x = true
  · have hrow : specialRow x 0x3FF0000000000000#64 (zero false) = some x := by
      rw [eq_inf_of_isInf hinf]
      simp [specialRow, h1nan, h1inf, h10, h1s]
    have hne : x ≠ zero true := by rintro rfl; simp at hinf
    rw [fmaContract_of_some hrow, if_neg hne]
  by_cases hx : isZero x = true
  · have hrow : specialRow x 0x3FF0000000000000#64 (zero false) = some (zero false) := by
      simp [specialRow, hnan, h1nan, h1inf, hinf, hx]
    rw [fmaContract_of_some hrow]
    rw [eq_zero_of_isZero hx]
    cases sign x <;> simp
  · simp only [Bool.not_eq_true] at hinf hx
    have hfin : isFinite x = true := by simp [isFinite_eq, hnan, hinf]
    have hrow : specialRow x 0x3FF0000000000000#64 (zero false) = none := specialRow_eq_none_iff.mpr
      ⟨hfin, by simp [isFinite_eq, h1nan, h1inf], isFinite_zero _, hx, h10⟩
    have hv : exactValue x 0x3FF0000000000000#64 (zero false) = val x := by simp [exactValue, val_one]
    have hne : x ≠ zero true := by rintro rfl; simp at hx
    rw [fmaContract_of_exact_ne_zero hrow (by rw [hv]; exact val_ne_zero hx), hv, roundRNE_val hfin hx, if_neg hne]

/-- Adding `-0` gives the correctly rounded product. -/
theorem fmaContract_negZero {x y : Word} (hx : isFinite x = true) (hx0 : isZero x = false) (hy : isFinite y = true)
    (hy0 : isZero y = false) : fmaContract x y (zero true) = roundRNE (val x * val y) := by
  have hrow : specialRow x y (zero true) = none := specialRow_eq_none_iff.mpr ⟨hx, hy, isFinite_zero _, hx0, hy0⟩
  have hv : exactValue x y (zero true) = val x * val y := by simp [exactValue]
  rw [fmaContract_of_exact_ne_zero hrow (by rw [hv]; exact mul_ne_zero (val_ne_zero hx0) (val_ne_zero hy0)), hv]

/-! ### Signs of zero results (rule R87) -/

/-- Rows S2 to S5: an infinite addend never gives a zero. -/
theorem isZero_fmaContract_of_isInf {x y z : Word} (hz : isInf z = true) : isZero (fmaContract x y z) = false := by
  have hrow : specialRow x y z ≠ none := fun h => by simp [isFinite_eq, hz, specialRow_eq_none_iff] at h
  obtain ⟨r, hr⟩ := Option.ne_none_iff_exists'.mp hrow
  rw [fmaContract_of_some hr]
  obtain rfl | ⟨-, rfl⟩ | ⟨-, rfl⟩ | ⟨-, -, -, hz0, -⟩ | ⟨-, -, -, hzf, -, -⟩ := specialRow_eq_some hr
  · exact isZero_qnan
  · exact isZero_inf _
  · exact isZero_of_isInf hz
  · simp [isZero_of_isInf hz] at hz0
  · simp [isInf_of_isFinite hzf] at hz

/-- Row S7: a zero product plus a nonzero addend is that addend. -/
theorem isZero_fmaContract_of_zero_product {x y z : Word} (hz0 : isZero z = false)
    (hxy : isZero x = true ∨ isZero y = true) : isZero (fmaContract x y z) = false := by
  have hrow : specialRow x y z ≠ none := fun h => by
    obtain ⟨-, -, -, hx0, hy0⟩ := specialRow_eq_none_iff.mp h
    simp [hx0, hy0] at hxy
  obtain ⟨r, hr⟩ := Option.ne_none_iff_exists'.mp hrow
  rw [fmaContract_of_some hr]
  obtain rfl | ⟨-, rfl⟩ | ⟨-, rfl⟩ | ⟨-, -, -, hz0', -⟩ | ⟨-, -, -, -, -, rfl⟩ := specialRow_eq_some hr
  · exact isZero_qnan
  · exact isZero_inf _
  · exact hz0
  · simp [hz0] at hz0'
  · exact hz0

/-- The result is `-0` exactly in row S6 with both signs negative, and when a negative value rounds to it. -/
theorem fmaContract_eq_negZero_iff (x y z : Word) : fmaContract x y z = zero true ↔
    (isFinite x = true ∧ isFinite y = true ∧ (isZero x = true ∨ isZero y = true) ∧ isZero z = true ∧
      (sign x ^^ sign y) = true ∧ sign z = true) ∨
    (specialRow x y z = none ∧ exactValue x y z < 0 ∧ roundRNE (exactValue x y z) = zero true) := by
  cases hrow : specialRow x y z with
  | some r =>
    rw [fmaContract_of_some hrow]
    constructor
    · rintro rfl
      obtain h | ⟨-, h⟩ | ⟨hz, rfl⟩ | ⟨hx, hy, hxy, hz, h⟩ | ⟨-, -, -, -, hz, rfl⟩ := specialRow_eq_some hrow
      · exact absurd (congrArg isZero h) (by simp)
      · exact absurd (congrArg isZero h) (by simp)
      · simp at hz
      · exact .inl ⟨hx, hy, hxy, hz, by simpa using zero_inj.mp h.symm⟩
      · simp at hz
    · rintro (⟨hx, hy, hxy, hz, hp, hs⟩ | ⟨hnone, -⟩)
      · rw [specialRow_of_zeros hx hy hxy hz, hp, hs] at hrow
        exact (Option.some.inj hrow).symm
      · cases hnone
  | none =>
    obtain ⟨-, -, -, hx0, hy0⟩ := specialRow_eq_none_iff.mp hrow
    by_cases hv : exactValue x y z = 0
    · simp [fmaContract_of_none hrow, hv, hx0, hy0]
    · rw [fmaContract_of_exact_ne_zero hrow hv]
      refine ⟨fun h => .inr ⟨rfl, ?_, h⟩, ?_⟩
      · simpa using congrArg sign h
      · rintro (⟨-, -, hxy, -⟩ | ⟨-, -, h⟩)
        · simp [hx0, hy0] at hxy
        · exact h

/-! ### The obligations -/

/-- Settles O31. -/
theorem contractSymmetries : Obligations.ContractSymmetries := fun x y z =>
  ⟨fmaContract_comm x y z, fmaContract_flipSign_flipSign x y z, fmaContract_flipSign, fmaContract_one_zero,
    fmaContract_negZero⟩

/-- Settles O32. -/
theorem contractZeroSigns : Obligations.ContractZeroSigns := by
  intro x y z
  refine ⟨fun hx hx0 hy hy0 hz _ hv => ?_, fmaContract_eq_negZero_iff x y z, fun _ _ => isZero_fmaContract_of_isInf,
    fun _ _ _ => isZero_fmaContract_of_zero_product⟩
  rw [fmaContract_of_none (specialRow_eq_none_iff.mpr ⟨hx, hy, hz, hx0, hy0⟩), exactValue, hv, neg_add_cancel,
    if_pos rfl]

end Sys2Proof.Machine
end

section
/-! PROOFS. The binary64 primitives of the double-double path over exact values (spec/42_fma_double_double_path.md rules
R152 to R157): the sum, the product and the scaled value are whole numbers of units, and the rounding by shifts is
`RoundRNE`. -/

namespace Sys2Proof.Machine

/-! ### Addition and multiplication (rules R152 to R154) -/

theorem val_add_val (a b : Word) : val a + val b = (valUnits a + valUnits b : ℤ) * (2 : ℚ) ^ (-1074 : ℤ) := by
  rw [val_eq_valUnits, val_eq_valUnits, Int.cast_add, add_mul]

theorem val_mul_val (a b : Word) : val a * val b = (valUnits a * valUnits b : ℤ) * (2 : ℚ) ^ (-2148 : ℤ) := by
  rw [val_eq_valUnits, val_eq_valUnits, show (-2148 : ℤ) = -1074 + -1074 by norm_num, two_zpow_add, Int.cast_mul,
    mul_mul_mul_comm]

theorem intCast_mul_zpow_eq_zero_iff (n e : ℤ) : (n : ℚ) * (2 : ℚ) ^ e = 0 ↔ n = 0 := by
  rw [mul_eq_zero, Int.cast_eq_zero, or_iff_left (two_zpow_pos e).ne']

/-- Addition over exact values (rule R152). -/
theorem fadd_eq (a b : Word) : fadd a b =
    if isNan a = true ∨ isNan b = true then qnan
    else if isInf a = true then (if isInf b = true ∧ sign a ≠ sign b then qnan else a)
    else if isInf b = true then b
    else if val a + val b = 0 then
      (if isZero a = true ∧ isZero b = true then zero (sign a && sign b) else zero false)
    else roundRNE (val a + val b) := by
  have hround : valUnits a + valUnits b ≠ 0 →
      roundScaled (valUnits a + valUnits b) (-1074) = roundRNE (val a + val b) := fun h => by
    rw [val_add_val, roundScaled_eq_roundRNE h]
  simp only [fadd, Bool.or_eq_true, Bool.and_eq_true, bne_iff_ne, val_add_val, intCast_mul_zpow_eq_zero_iff] at hround ⊢
  by_cases h : valUnits a + valUnits b = 0
  · simp only [h, if_true]
  · simp only [h, if_false, hround h]

/-- Multiplication over exact values (rule R154). -/
theorem fmul_eq (a b : Word) : fmul a b =
    if isNan a = true ∨ isNan b = true then qnan
    else if isInf a = true ∨ isInf b = true then
      (if isZero a = true ∨ isZero b = true then qnan else inf (sign a ^^ sign b))
    else if val a * val b = 0 then zero (sign a ^^ sign b)
    else roundRNE (val a * val b) := by
  have hround : valUnits a * valUnits b ≠ 0 →
      roundScaled (valUnits a * valUnits b) (-2148) = roundRNE (val a * val b) := fun h => by
    rw [val_mul_val, roundScaled_eq_roundRNE h]
  simp only [fmul, Bool.or_eq_true, val_mul_val, intCast_mul_zpow_eq_zero_iff] at hround ⊢
  by_cases h : valUnits a * valUnits b = 0
  · simp only [h, if_true]
  · simp only [h, if_false, hround h]

/-- The sum of finite operands that do not cancel is rounded once. -/
theorem fadd_eq_roundRNE {a b : Word} (ha : isFinite a = true) (hb : isFinite b = true) (h : val a + val b ≠ 0) :
    fadd a b = roundRNE (val a + val b) := by
  simp [fadd_eq, isNan_of_isFinite, isInf_of_isFinite, ha, hb, h]

/-- The product of finite nonzero operands is rounded once. -/
theorem fmul_eq_roundRNE {a b : Word} (ha : isFinite a = true) (hb : isFinite b = true) (h : val a * val b ≠ 0) :
    fmul a b = roundRNE (val a * val b) := by
  simp only [fmul_eq, isNan_of_isFinite, isInf_of_isFinite, ha, hb, h, Bool.false_eq_true, or_self, if_false]

/-- Settles O52: the sum in units is the exact sum, and `fsub` adds the operand with its sign flipped. -/
theorem additionPrimitivesRoundOnce : Obligations.AdditionPrimitivesRoundOnce := by
  intro a b
  refine ⟨fadd_eq a b, fun h => by simp [fsub, h], fun ha hb => by simp [fsub, ha, hb, flipSign], fun ha hb hne => ?_⟩
  rw [fsub_of_finite ha hb, fadd_eq_roundRNE ha (by simpa using hb), val_flipSign, sub_eq_add_neg]
  rw [val_flipSign, ← sub_eq_add_neg]
  exact sub_ne_zero.mpr hne

/-- Settles O53: the product in units `2^(-2148)` is the exact product. -/
theorem multiplicationPrimitiveRoundsOnce : Obligations.MultiplicationPrimitiveRoundsOnce := fmul_eq

/-! ### Unpacking (rule R156) -/

theorem expf_toNat_eq_zero_iff (b : Word) : (expf b).toNat = 0 ↔ expf b = 0#11 := by
  rw [← BitVec.toNat_inj]
  rfl

theorem val_of_fields {b : Word} {s : Bool} {e : BitVec 11} {f : BitVec 52} (hs : sign b = s) (he : expf b = e)
    (hf : frac b = f) (h0 : e ≠ 0#11) : val b = signQ s * (2 ^ 52 + f.toNat) * (2 : ℚ) ^ (e.toNat - 1075 : ℤ) := by
  rw [val, hs, he, hf, if_neg h0, signQ]

/-- A pattern with the exponent field of [0.5, 1). -/
theorem val_pattern_half (s : Bool) (f : BitVec 52) :
    val (pattern s 0x3FE#11 f) = signQ s * (2 ^ 52 + f.toNat) * (2 : ℚ) ^ (-53 : ℤ) := by
  simp [val_of_fields (sign_pattern s _ f) (expf_pattern s _ f) (frac_pattern s _ f)]

theorem abs_val_pattern_half (s : Bool) (f : BitVec 52) :
    1 / 2 ≤ |val (pattern s 0x3FE#11 f)| ∧ |val (pattern s 0x3FE#11 f)| < 1 := by
  have hf : (2 : ℚ) ^ 52 + f.toNat < 2 ^ 53 := by exact_mod_cast Nat.add_lt_add_left f.isLt (2 ^ 52)
  have habs : |val (pattern s 0x3FE#11 f)| = (2 ^ 52 + f.toNat) / 2 ^ 53 := by
    rw [val_pattern_half, mul_assoc, abs_mul, abs_signQ, one_mul, abs_of_nonneg (by positivity), zpow_neg,
      div_eq_mul_inv]
    rfl
  rw [habs, div_lt_one (by norm_num), le_div_iff₀ (by norm_num)]
  exact ⟨(le_add_of_nonneg_right f.toNat.cast_nonneg).trans' (by norm_num), hf⟩

theorem shift_normalizes {m c : ℕ} (hlo : 2 ^ (63 - c) ≤ m) (hup : m < 2 ^ (64 - c)) (hc : 11 ≤ c) (hc' : c ≤ 63) :
    2 ^ 52 ≤ m * 2 ^ (c - 11) ∧ m * 2 ^ (c - 11) < 2 ^ 53 := by
  rw [show 52 = 63 - c + (c - 11) by omega, show 53 = 64 - c + (c - 11) by omega, pow_add, pow_add]
  exact ⟨Nat.mul_le_mul_right _ hlo, Nat.mul_lt_mul_of_pos_right hup (Nat.two_pow_pos _)⟩

/-- The shift that brings a subnormal's leading 1 to the hidden bit (rule R156). -/
theorem frac_shift_spec {b : Word} (h : isZero b = false) (he : expf b = 0#11) :
    ∃ n : ℕ, clz64 ((frac b).setWidth 64) - 11 = n ∧ 1 ≤ n ∧ n ≤ 52 ∧
      2 ^ 52 + (frac b <<< n).toNat = (frac b).toNat * 2 ^ n := by
  have hw : ((frac b).setWidth 64).toNat = (frac b).toNat := BitVec.toNat_setWidth_of_le (by norm_num)
  have hne : (frac b).setWidth 64 ≠ 0#64 := fun h0 => by
    have h0 : (frac b).toNat = 0 := by rw [← hw, h0]; rfl
    have : frac b = 0#52 := BitVec.eq_of_toNat_eq h0
    simp [isZero, he, this] at h
  obtain ⟨hc, hlo, hup⟩ := clz64_spec hne
  rw [hw] at hlo hup
  generalize clz64 ((frac b).setWidth 64) = c at *
  have hc12 : 63 - c < 52 := (Nat.pow_lt_pow_iff_right (by norm_num)).mp (hlo.trans_lt (frac b).isLt)
  obtain ⟨hnorm, hnorm'⟩ := shift_normalizes hlo hup (by omega) (by omega)
  refine ⟨c - 11, by omega, by omega, by omega, ?_⟩
  rw [BitVec.toNat_shiftLeft, Nat.shiftLeft_eq]
  generalize (frac b).toNat * 2 ^ (c - 11) = x at *
  omega

/-- The significand of `dd_frexp` has the operand's sign and the exponent field of [0.5, 1). -/
theorem ddFrexp_fst (b : Word) : ∃ f, (ddFrexp b).1 = pattern (sign b) 0x3FE#11 f := by
  unfold ddFrexp
  split
  · exact ⟨_, rfl⟩
  · exact ⟨_, rfl⟩

/-- `dd_frexp` keeps the value, and its exponent stays in range (rule R156). -/
theorem ddFrexp_val {b : Word} (hfin : isFinite b = true) (h0 : isZero b = false) :
    val b = val (ddFrexp b).1 * (2 : ℚ) ^ (ddFrexp b).2 ∧ -1073 ≤ (ddFrexp b).2 ∧ (ddFrexp b).2 ≤ 1024 := by
  have hscale (m : ℚ) {e k : ℤ} (h : k = -53 + e) :
      signQ (sign b) * m * (2 : ℚ) ^ (-53 : ℤ) * 2 ^ e = signQ (sign b) * m * 2 ^ k := by
    rw [h, two_zpow_add, ← mul_assoc]
  unfold ddFrexp
  by_cases he : expf b = 0#11
  · obtain ⟨n, hclz, hn1, hn52, hsig⟩ := frac_shift_spec h0 he
    have hsig : (2 : ℚ) ^ 52 + (frac b <<< n).toNat = (frac b).toNat * 2 ^ n := by exact_mod_cast hsig
    simp only [if_pos he, hclz, val_pattern_half, hsig]
    refine ⟨?_, by omega, by omega⟩
    rw [hscale _ (show (-1074 : ℤ) - n = -53 + ((1 : ℤ) - n - 1022) by ring), two_zpow_sub_natCast, val, if_pos he,
      signQ, mul_assoc, mul_assoc, mul_assoc, mul_div_cancel₀ _ (by positivity)]
  · have hne : (expf b).toNat ≠ 0 := mt (expf_toNat_eq_zero_iff b).mp he
    have hle : (expf b).toNat ≠ 2047 := fun h => by
      have : expf b = 0x7FF#11 := BitVec.eq_of_toNat_eq h
      simp [isFinite, this] at hfin
    have := expf_le b
    simp only [if_neg he, val_pattern_half]
    refine ⟨?_, by omega, by omega⟩
    rw [hscale _ (show ((expf b).toNat : ℤ) - 1075 = -53 + ((expf b).toNat - 1022) by ring), val, if_neg he, signQ]

/-- Settles O54. -/
theorem frexpIsExact : Obligations.FrexpIsExact := by
  intro b hfin h0
  obtain ⟨hval, hlo, hup⟩ := ddFrexp_val hfin h0
  obtain ⟨f, hf⟩ := ddFrexp_fst b
  obtain ⟨hhalf, hone⟩ := abs_val_pattern_half (sign b) f
  rw [hf] at hval ⊢
  exact ⟨hval, by simp [isFinite], sign_pattern .., hhalf, hone, hlo, hup⟩

/-! ### Scaling (rule R157) -/

theorem val_lt_zero_iff {b : Word} (h : isZero b = false) : val b < 0 ↔ sign b = true := by
  rw [← decide_valUnits_neg h, decide_eq_true_iff, val_eq_valUnits, ← zero_mul ((2 : ℚ) ^ (-1074 : ℤ)),
    mul_lt_mul_iff_left₀ (two_zpow_pos _), Int.cast_lt_zero]

/-- Scaling over exact values. -/
theorem ddScale_eq (b : Word) (k : ℤ) : ddScale b k =
    if isZero b = true ∨ isInf b = true ∨ isNan b = true then b else roundRNE (val b * (2 : ℚ) ^ k) := by
  unfold ddScale
  simp only [Bool.or_eq_true, or_assoc]
  split_ifs with h
  · rfl
  · have hv : valUnits b ≠ 0 := fun h0 => h (.inl ((valUnits_eq_zero_iff b).mp h0))
    rw [roundScaled_eq_roundRNE hv, val_eq_valUnits, mul_assoc, ← two_zpow_add, neg_add_eq_sub]

theorem ddScale_eq_roundRNE {b : Word} (k : ℤ) (hfin : isFinite b = true) (h0 : isZero b = false) :
    ddScale b k = roundRNE (val b * (2 : ℚ) ^ k) := by
  simp [ddScale_eq, h0, isInf_of_isFinite hfin, isNan_of_isFinite hfin]

/-- Up to half a unit above an even number the rounding goes no further than that number. -/
theorem nearestEven_le_of_even {t : ℚ} {k : ℕ} (ht : 0 ≤ t) (hk : k % 2 = 0) (h : t ≤ k + 1 / 2) :
    nearestEven t ≤ k := by
  obtain ⟨hnear, htie⟩ := nearestEven_spec ht
  by_contra hgt
  have hge : (k : ℚ) + 1 ≤ nearestEven t := by exact_mod_cast not_le.mp hgt
  have htop : t + 1 / 2 ≤ k + 1 := (add_le_add_left h _).trans_eq (by rw [add_assoc, add_halves])
  have hhalf : 1 / 2 ≤ nearestEven t - t := le_sub_iff_add_le'.mpr (htop.trans hge)
  have htie := htie (le_antisymm hnear (hhalf.trans (by rw [abs_sub_comm]; exact le_abs_self _)))
  have hle : (nearestEven t : ℚ) ≤ k + 1 := (sub_le_iff_le_add'.mp (abs_sub_le_iff.mp hnear).2).trans htop
  have hle : nearestEven t ≤ k + 1 := by exact_mod_cast hle
  omega

/-- From half a unit above an odd number on the rounding leaves that number. -/
theorem lt_nearestEven_of_odd {t : ℚ} {k : ℕ} (hk : k % 2 = 1) (h : k + 1 / 2 ≤ t) : k < nearestEven t := by
  obtain ⟨hnear, htie⟩ := nearestEven_spec ((by positivity : (0 : ℚ) ≤ k + 1 / 2).trans h)
  by_contra hle
  have hle : (nearestEven t : ℚ) ≤ k := by exact_mod_cast not_lt.mp hle
  have hhalf : 1 / 2 ≤ t - nearestEven t := le_sub_iff_add_le'.mpr ((add_le_add_left hle _).trans h)
  have htie := htie (le_antisymm hnear (hhalf.trans (le_abs_self _)))
  have hge : (k : ℚ) ≤ nearestEven t :=
    le_of_add_le_add_right (h.trans (sub_le_iff_le_add'.mp (abs_sub_le_iff.mp hnear).1))
  have hge : k ≤ nearestEven t := by exact_mod_cast hge
  omega

/-- Up to half the smallest subnormal the rounding underflows to a signed zero (rule R83 (d)). -/
theorem roundRNE_of_underflow {v : ℚ} (hv : v ≠ 0) (h : |v| ≤ (2 : ℚ) ^ (-1075 : ℤ)) :
    roundRNE v = zero (decide (v < 0)) := by
  have hq : quantumAt v = -1074 := quantumAt_eq hv le_rfl (h.trans_lt (two_zpow_lt (by norm_num))) (by simp)
  have ht : |v| / (2 : ℚ) ^ (-1074 : ℤ) ≤ 1 / 2 := by
    rw [div_le_iff₀ (two_zpow_pos _)]
    refine h.trans_eq ?_
    rw [show (-1075 : ℤ) = -1 + -1074 by norm_num, two_zpow_add, zpow_neg_one, one_div]
  have hn : nearestEven (|v| / (2 : ℚ) ^ (-1074 : ℤ)) = 0 :=
    Nat.le_zero.mp (nearestEven_le_of_even (k := 0) (by positivity) rfl (by simpa using ht))
  rw [roundRNE_eq, hq, hn, packRounded, if_pos rfl]

/-- The midpoint above the largest finite value, in its quanta. -/
theorem overflowThreshold_eq : (2 : ℚ) ^ 1024 - 2 ^ 970 = (2 ^ 53 - 1 / 2) * 2 ^ (971 : ℤ) := by
  have hpow (n : ℕ) : (2 : ℚ) ^ (970 + n) = 2 ^ n * 2 ^ 970 := by rw [pow_add, mul_comm]
  rw [show (971 : ℤ) = ((970 + 1 : ℕ) : ℤ) by norm_num, zpow_natCast, hpow 1, hpow 54]
  generalize (2 : ℚ) ^ 970 = w
  ring

/-- From the midpoint above the largest finite value on, the rounding overflows (rule R83 (c)). -/
theorem roundRNE_of_overflow {v : ℚ} (h : 2 ^ 1024 - 2 ^ 970 ≤ |v|) : roundRNE v = inf (decide (v < 0)) := by
  have hlo : (2 : ℚ) ^ ((971 : ℤ) + 52) ≤ |v| := by
    refine le_trans ?_ (overflowThreshold_eq.symm.trans_le h)
    rw [two_zpow_add, mul_comm]
    gcongr
    norm_num
  have hv : v ≠ 0 := abs_pos.mp ((two_zpow_pos _).trans_le hlo)
  have hq := le_quantumAt hlo
  obtain ⟨-, -, hsub⟩ := packReady_nearestEven hv
  have htop : quantumAt v = 971 → 2 ^ 53 - 1 < nearestEven (|v| / (2 : ℚ) ^ quantumAt v) := fun hq => by
    apply lt_nearestEven_of_odd (k := 2 ^ 53 - 1) (by norm_num)
    rw [le_div_iff₀ (two_zpow_pos _), hq]
    refine (overflowThreshold_eq.symm.trans_le h).trans_eq' ?_
    norm_num
  apply BitVec.eq_of_toNat_eq
  rw [toNat_roundRNE hv, toNat_inf]
  congr 1
  apply min_eq_right
  obtain hq971 | hq972 : quantumAt v = 971 ∨ 972 ≤ quantumAt v := by omega
  · rw [hq971] at htop ⊢
    calc 2047 * 2 ^ 52 = 2045 * 2 ^ 52 + (2 ^ 53 - 1 + 1) := by norm_num
      _ ≤ _ := Nat.add_le_add_left (htop rfl) _
  · have hn : 2 ^ 52 ≤ nearestEven (|v| / (2 : ℚ) ^ quantumAt v) := by
      by_contra hlt
      have := hsub (not_le.mp hlt)
      omega
    calc 2047 * 2 ^ 52 = 2046 * 2 ^ 52 + 2 ^ 52 := by norm_num
      _ ≤ _ := Nat.add_le_add (Nat.mul_le_mul_right _ (show 2046 ≤ (quantumAt v + 1074).toNat by omega)) hn

/-- Settles O55: the scaled value in units is the exact scaled value, and the bounds are those of the rounding. -/
theorem scalePrimitiveRoundsOnce : Obligations.ScalePrimitiveRoundsOnce := by
  intro b k
  refine ⟨ddScale_eq b k, fun hfin h0 => ?_⟩
  have hk := two_zpow_pos k
  have hv : val b * (2 : ℚ) ^ k ≠ 0 := mul_ne_zero (val_ne_zero h0) hk.ne'
  have habs : |val b * (2 : ℚ) ^ k| = |val b| * (2 : ℚ) ^ k := by rw [abs_mul, abs_of_pos hk]
  have hsign : decide (val b * (2 : ℚ) ^ k < 0) = sign b := by
    simp only [mul_neg_iff, hk, hk.not_gt, and_false, false_or, and_true, val_lt_zero_iff h0, Bool.decide_eq_true]
  rw [ddScale_eq_roundRNE k hfin h0]
  refine ⟨fun c hc hcv => ?_, fun hle => ?_, fun hge => ?_⟩
  · rw [← hcv] at hv ⊢
    exact roundRNE_val hc (Bool.eq_false_iff.mpr fun hz => hv ((val_eq_zero_iff c).mpr hz))
  · rw [roundRNE_of_underflow hv (habs.trans_le hle), hsign]
  · rw [roundRNE_of_overflow (hge.trans_eq habs.symm), hsign]

end Sys2Proof.Machine
end

section
/-! PROOFS. The rounding as a function on rationals, with no upper bound on the exponent: `rnd v` is the number the
rounded pattern stands for wherever that is finite. The numbers of 53 bits it leaves alone, its distance from the value,
and that nothing of 53 bits is nearer; then the binary64 primitives as operations on values. -/

namespace Sys2Proof.Machine

/-! ### Numbers of 53 bits -/

/-- A multiple of its own quantum: a number of at most 53 bits and no bit below `2^(-1074)`. -/
def Representable (c : ℚ) : Prop := OnGrid (quantumAt c) c

theorem two_zpow_succ (g : ℤ) : (2 : ℚ) ^ (g + 1) = 2 ^ g * 2 := zpow_add_one₀ (by norm_num) g

theorem abs_lt_quantumAt (v : ℚ) : |v| < (2 : ℚ) ^ (quantumAt v + 53) := by
  obtain rfl | hv := eq_or_ne v 0
  · rw [abs_zero]
    exact two_zpow_pos _
  · exact abs_lt_of_quantumAt hv

theorem representable_zero : Representable 0 := onGrid_zero _

theorem ne_zero_of_not_representable {c : ℚ} (h : ¬ Representable c) : c ≠ 0 := by
  rintro rfl
  exact h representable_zero

theorem Representable.neg {c : ℚ} (h : Representable c) : Representable (-c) := by
  rw [Representable, quantumAt_neg]
  exact OnGrid.neg h

theorem OnGrid.of_abs {g : ℤ} {c : ℚ} (h : OnGrid g |c|) : OnGrid g c := by
  have := h.signQ_mul (decide (c < 0))
  rwa [signQ_mul_abs rfl] at this

/-- A multiple of `2^g` of magnitude at most `2^(g+53)` has 53 bits. -/
theorem OnGrid.representable {g : ℤ} {c : ℚ} (h : OnGrid g c) (hg : -1074 ≤ g) (hc : |c| ≤ (2 : ℚ) ^ (g + 53)) :
    Representable c := by
  obtain rfl | h0 := eq_or_ne c 0
  · exact representable_zero
  obtain hlt | heq := lt_or_eq_of_le hc
  · exact h.mono (quantumAt_le h0 hg hlt)
  · have hq : quantumAt c ≤ g + 1 :=
      quantumAt_le h0 (by omega) (heq.trans_lt (two_zpow_lt (by omega)))
    have habs : OnGrid (quantumAt c) |c| := heq ▸ onGrid_zpow (by omega)
    exact habs.of_abs

@[simp] theorem quantumAt_abs (v : ℚ) : quantumAt |v| = quantumAt v := by rw [quantumAt, quantumAt, abs_abs]

theorem Representable.of_abs {c : ℚ} (h : Representable |c|) : Representable c := by
  rw [Representable, quantumAt_abs] at h
  exact h.of_abs

theorem Representable.onGrid_of_le {g : ℤ} {c : ℚ} (h : Representable c) (hc : (2 : ℚ) ^ (g + 52) ≤ |c|) : OnGrid g c :=
  OnGrid.mono h (le_quantumAt hc)

theorem Representable.onGrid_units {c : ℚ} (h : Representable c) : OnGrid (-1074) c := OnGrid.mono h (quantumAt_ge c)

/-- From `2^(g+53)` on a number of 53 bits is a multiple of `2^(g+1)`. -/
theorem Representable.onGrid_succ {g : ℤ} {c : ℚ} (h : Representable c) (hc : (2 : ℚ) ^ (g + 53) ≤ |c|) :
    OnGrid (g + 1) c :=
  h.onGrid_of_le (by rwa [add_assoc, show (1 : ℤ) + 52 = 53 by norm_num])

theorem quantumAt_mono {c d : ℚ} (hc : c ≠ 0) (h : |c| ≤ |d|) : quantumAt c ≤ quantumAt d :=
  quantumAt_le hc (quantumAt_ge d) (h.trans_lt (abs_lt_quantumAt d))

/-- A number of 53 bits lies on the grid of every smaller one. -/
theorem Representable.onGrid_of_abs_le {c d : ℚ} (h : Representable d) (hc : c ≠ 0) (hle : |c| ≤ |d|) :
    OnGrid (quantumAt c) d :=
  OnGrid.mono h (quantumAt_mono hc hle)

theorem representable_zpow {k : ℤ} (hk : -1074 ≤ k) : Representable ((2 : ℚ) ^ k) :=
  (onGrid_zpow le_rfl).representable hk (by rw [abs_of_pos (two_zpow_pos k)]; exact two_zpow_le (by omega))

/-- A multiple of `2^g` above another one is above it by at least `2^g`. -/
theorem OnGrid.add_le_of_lt {g : ℤ} {c d : ℚ} (hc : OnGrid g c) (hd : OnGrid g d) (h : c < d) : c + 2 ^ g ≤ d := by
  have := (hd.sub hc).le_abs (sub_ne_zero.mpr h.ne')
  rw [abs_of_pos (sub_pos.mpr h)] at this
  linarith

/-- What is no number of 53 bits is large in the units of any grid it lies on. -/
theorem OnGrid.lt_abs_of_not_representable {g : ℤ} {c : ℚ} (h : OnGrid g c) (hg : -1074 ≤ g) (hc : ¬ Representable c) :
    (2 : ℚ) ^ (g + 53) < |c| :=
  not_le.mp fun hle => hc (h.representable hg hle)

/-! ### The rounding on rationals -/

/-- The magnitude of a value in its quanta. -/
def quanta (v : ℚ) : ℚ := |v| / (2 : ℚ) ^ quantumAt v

theorem quanta_nonneg (v : ℚ) : 0 ≤ quanta v := div_nonneg (abs_nonneg v) (two_zpow_pos _).le

theorem quanta_lt (v : ℚ) : quanta v < 2 ^ 53 := by
  rw [quanta, div_lt_iff₀ (two_zpow_pos _), mul_comm]
  exact (abs_lt_quantumAt v).trans_eq (two_zpow_add_natCast _ 53)

theorem abs_eq_quanta_mul (v : ℚ) : |v| = quanta v * (2 : ℚ) ^ quantumAt v :=
  (div_mul_cancel₀ _ (two_zpow_pos _).ne').symm

theorem eq_signQ_mul_quanta (v : ℚ) : v = signQ (decide (v < 0)) * (quanta v * (2 : ℚ) ^ quantumAt v) := by
  rw [← abs_eq_quanta_mul, signQ_mul_abs rfl]

theorem packReady_quanta {v : ℚ} (hv : v ≠ 0) : PackReady (nearestEven (quanta v)) (quantumAt v) :=
  packReady_nearestEven hv

/-- The rounded value, the value in quanta taken to the nearest integer. -/
def rnd (v : ℚ) : ℚ := signQ (decide (v < 0)) * (nearestEven (quanta v) * (2 : ℚ) ^ quantumAt v)

theorem sub_rnd_eq (v : ℚ) :
    v - rnd v = signQ (decide (v < 0)) * ((quanta v - nearestEven (quanta v)) * (2 : ℚ) ^ quantumAt v) := by
  rw [sub_mul, mul_sub, ← eq_signQ_mul_quanta, rnd]

theorem abs_rnd (v : ℚ) : |rnd v| = nearestEven (quanta v) * (2 : ℚ) ^ quantumAt v := by
  rw [rnd, abs_mul, abs_signQ, one_mul, abs_mul, Nat.abs_cast, abs_of_pos (two_zpow_pos _)]

@[simp] theorem rnd_zero : rnd 0 = 0 := by simp [rnd, quanta]

theorem onGrid_rnd_quantumAt (v : ℚ) : OnGrid (quantumAt v) (rnd v) := (onGrid_natCast_mul _ _).signQ_mul _

theorem rnd_of_representable {c : ℚ} (h : Representable c) : rnd c = c := by
  obtain ⟨m, hm⟩ := OnGrid.abs h
  have hm0 : 0 ≤ m := by
    have : (0 : ℚ) ≤ m := nonneg_of_mul_nonneg_left (hm ▸ abs_nonneg c) (two_zpow_pos _)
    exact_mod_cast this
  obtain ⟨k, rfl⟩ := Int.eq_ofNat_of_zero_le hm0
  have hdiv : quanta c = k := (div_eq_iff (two_zpow_pos _).ne').mpr hm
  rw [rnd, hdiv, nearestEven_natCast]
  exact (congrArg _ hm.symm).trans (signQ_mul_abs rfl)

/-- The rounding moves a value by at most half its quantum. -/
theorem abs_sub_rnd_le (v : ℚ) : |v - rnd v| ≤ (2 : ℚ) ^ (quantumAt v - 1) := by
  have hnear := (nearestEven_spec (quanta_nonneg v)).1
  rw [sub_rnd_eq, abs_mul, abs_signQ, one_mul, abs_mul, abs_of_pos (two_zpow_pos _), sub_eq_add_neg (quantumAt v),
    two_zpow_add, mul_comm]
  refine mul_le_mul_of_nonneg_left (hnear.trans_eq ?_) (two_zpow_pos _).le
  rw [zpow_neg_one, one_div]

theorem abs_sub_rnd_le_of_le {g : ℤ} {v : ℚ} (hg : -1074 ≤ g) (h : |v| ≤ (2 : ℚ) ^ (g + 53)) :
    |v - rnd v| ≤ (2 : ℚ) ^ (g - 1) := by
  obtain hlt | heq := lt_or_eq_of_le h
  · obtain rfl | hv := eq_or_ne v 0
    · simpa using (two_zpow_pos (g - 1)).le
    · exact (abs_sub_rnd_le v).trans (two_zpow_le (by have := quantumAt_le hv hg hlt; omega))
  · have : Representable v := .of_abs (heq ▸ representable_zpow (by omega))
    rw [rnd_of_representable this, sub_self, abs_zero]
    exact (two_zpow_pos _).le

/-- The rounded value has 53 bits: it is at most `2^53` of the value's quanta. -/
theorem representable_rnd (v : ℚ) : Representable (rnd v) := by
  obtain rfl | hv := eq_or_ne v 0
  · simpa using representable_zero
  refine (onGrid_rnd_quantumAt v).representable (quantumAt_ge v) ?_
  have hk : (nearestEven (quanta v) : ℚ) ≤ 2 ^ 53 := by exact_mod_cast (packReady_quanta hv).2.1
  rw [abs_rnd, two_zpow_add, mul_comm]
  gcongr
  exact_mod_cast hk

/-- The rounding keeps the grids: on one finer than its quantum a value has 53 bits already. -/
theorem onGrid_rnd {g : ℤ} {v : ℚ} (h : OnGrid g v) : OnGrid g (rnd v) := by
  obtain hle | hlt := le_total g (quantumAt v)
  · exact (onGrid_rnd_quantumAt v).mono hle
  · have : Representable v := h.mono hlt
    rwa [rnd_of_representable this]

theorem onGrid_rnd_of_le {g : ℤ} {v : ℚ} (h : (2 : ℚ) ^ (g + 52) ≤ |v|) : OnGrid g (rnd v) :=
  (onGrid_rnd_quantumAt v).mono (le_quantumAt h)

/-- The distance to a number of the value's sign and no larger. -/
theorem abs_sub_signQ_mul {v e : ℚ} (h : e ≤ |v|) : |v - signQ (decide (v < 0)) * e| = |v| - e := by
  calc |v - signQ (decide (v < 0)) * e|
      = |signQ (decide (v < 0)) * (|v| - e)| := by rw [mul_sub, signQ_mul_abs rfl]
    _ = |v| - e := by rw [abs_mul, abs_signQ, one_mul, abs_of_nonneg (sub_nonneg.mpr h)]

/-- No number of 53 bits is nearer to the value than the rounded one: one with bits below the value's quantum lies below
the value's binade, whose end is as near. -/
theorem abs_sub_rnd_le_abs_sub {v c : ℚ} (hc : Representable c) : |v - rnd v| ≤ |v - c| := by
  obtain rfl | hv := eq_or_ne v 0
  · simp
  have hgrid {d : ℚ} (hd : OnGrid (quantumAt v) d) : |v - rnd v| ≤ |v - d| := by
    by_contra hlt
    have hne := OnGrid.le_abs ((onGrid_rnd_quantumAt v).sub hd)
      (sub_ne_zero.mpr fun h => hlt (by rw [h]))
    have htri := abs_sub_le (rnd v) v d
    have hhalf : (2 : ℚ) ^ quantumAt v = 2 ^ (quantumAt v - 1) * 2 := by rw [← two_zpow_succ, sub_add_cancel]
    rw [abs_sub_comm (rnd v) v] at htri
    linarith [abs_sub_rnd_le v, not_le.mp hlt]
  by_cases hcv : OnGrid (quantumAt v) c
  · exact hgrid hcv
  have hq : quantumAt c < quantumAt v := not_le.mp fun hle => hcv (OnGrid.mono hc hle)
  have := quantumAt_ge c
  have hlow := le_abs_of_quantumAt hv (by omega)
  have hup : |c| < (2 : ℚ) ^ (quantumAt v + 52) := (abs_lt_quantumAt c).trans_le (two_zpow_le (by omega))
  have hedge : OnGrid (quantumAt v) ((2 : ℚ) ^ (quantumAt v + 52)) := onGrid_zpow (by omega)
  refine (hgrid (hedge.signQ_mul (decide (v < 0)))).trans ?_
  rw [abs_sub_signQ_mul hlow]
  exact (sub_le_sub_left hup.le _).trans (abs_sub_abs_le_abs_sub v c)

theorem rnd_neg (v : ℚ) : rnd (-v) = -rnd v := by
  obtain rfl | hv := eq_or_ne v 0
  · simp
  have hs : decide (-v < 0) = !decide (v < 0) := by
    rw [← decide_not, decide_eq_decide, neg_lt_zero, not_lt]
    exact ⟨le_of_lt, fun h => lt_of_le_of_ne h hv.symm⟩
  rw [rnd, rnd, quanta, hs, signQ_not, quantumAt_neg, abs_neg, neg_mul, quanta]

theorem rnd_le {v c : ℚ} (hc : Representable c) (h : v ≤ c) : rnd v ≤ c := by
  by_contra hlt
  have hlt := not_le.mp hlt
  have := abs_sub_rnd_le_abs_sub (v := v) hc
  rw [abs_sub_comm, abs_sub_comm v, abs_of_nonneg (sub_nonneg.mpr (h.trans hlt.le)),
    abs_of_nonneg (sub_nonneg.mpr h), sub_le_sub_iff_right] at this
  exact absurd hlt this.not_gt

theorem le_rnd {v c : ℚ} (hc : Representable c) (h : c ≤ v) : c ≤ rnd v := by
  have := rnd_le hc.neg (neg_le_neg h)
  rw [rnd_neg] at this
  exact neg_le_neg_iff.mp this

theorem abs_rnd_le {v c : ℚ} (hc : Representable c) (h : |v| ≤ c) : |rnd v| ≤ c := by
  obtain ⟨hlo, hup⟩ := abs_le.mp h
  exact abs_le.mpr ⟨le_rnd hc.neg hlo, rnd_le hc hup⟩

theorem le_abs_rnd {v c : ℚ} (hc : Representable c) (h : c ≤ |v|) : c ≤ |rnd v| := by
  obtain hneg | hpos := lt_or_ge v 0
  · rw [abs_of_neg hneg] at h
    exact (le_neg.mp (rnd_le hc.neg (le_neg.mp h))).trans (neg_le_abs _)
  · rw [abs_of_nonneg hpos] at h
    exact (le_rnd hc h).trans (le_abs_self _)

/-- The rounded value is at most twice as far from a number of 53 bits as the value is. -/
theorem abs_rnd_sub_le {v c : ℚ} (hc : Representable c) : |rnd v - c| ≤ 2 * |v - c| := by
  have htri := abs_sub_le (rnd v) v c
  rw [abs_sub_comm (rnd v) v] at htri
  exact (htri.trans (add_le_add_left (abs_sub_rnd_le_abs_sub hc) _)).trans_eq (two_mul _).symm

/-! ### Patterns and the primitives on them -/

/-- The finite pattern `b` stands for `c`. -/
def HasVal (b : Word) (c : ℚ) : Prop := isFinite b = true ∧ val b = c

theorem HasVal.isZero_iff {b : Word} {c : ℚ} (h : HasVal b c) : isZero b = true ↔ c = 0 := by
  rw [← val_eq_zero_iff, h.2]

theorem HasVal.isZero_eq_false {b : Word} {c : ℚ} (h : HasVal b c) (hc : c ≠ 0) : isZero b = false :=
  Bool.eq_false_iff.mpr (mt h.isZero_iff.mp hc)

theorem hasVal_zero (s : Bool) : HasVal (zero s) 0 := ⟨isFinite_zero s, val_zero s⟩

theorem HasVal.flipSign {b : Word} {c : ℚ} (h : HasVal b c) : HasVal (flipSign b) (-c) :=
  ⟨by simpa using h.1, by simp [h.2]⟩

/-- A nonzero pattern is the rounding of what it stands for. -/
theorem HasVal.eq_roundRNE {b : Word} {c : ℚ} (h : HasVal b c) (hc : c ≠ 0) : b = roundRNE c := by
  rw [← h.2, roundRNE_val h.1 (h.isZero_eq_false hc)]

/-- A bound, one binade below the overflow, under which every operation of the path stays. -/
def safeBound : ℚ := 2 ^ (1023 : ℤ)

theorem safeBound_lt : safeBound < 2 ^ 1024 :=
  (two_zpow_lt (show (1023 : ℤ) < (1024 : ℕ) by norm_num)).trans_eq (zpow_natCast 2 1024)

theorem two_zpow_le_safeBound {k : ℤ} (hk : k ≤ 1023) : (2 : ℚ) ^ k ≤ safeBound := two_zpow_le hk

/-- Where the rounded value is below the overflow the rounded pattern stands for it. -/
theorem hasVal_roundRNE_of_lt {v : ℚ} (hv : v ≠ 0) (h : |rnd v| < 2 ^ 1024) : HasVal (roundRNE v) (rnd v) := by
  rw [abs_rnd] at h
  obtain ⟨hfin, hval⟩ := val_packRounded (s := decide (v < 0)) (packReady_quanta hv) h
  exact ⟨hfin, hval.trans (mul_assoc _ _ _)⟩

theorem hasVal_roundRNE {v : ℚ} (hv : v ≠ 0) (h : |v| ≤ safeBound) : HasVal (roundRNE v) (rnd v) :=
  hasVal_roundRNE_of_lt hv ((abs_rnd_le (representable_zpow (by norm_num)) h).trans_lt safeBound_lt)

/-- A finite pattern stands for a number of 53 bits. -/
theorem representable_val (b : Word) : Representable (val b) := by
  have hrep {m : ℕ} {g : ℤ} (hm : m < 2 ^ 53) (hg : -1074 ≤ g) :
      Representable (signQ (sign b) * (m * (2 : ℚ) ^ g)) := by
    refine ((onGrid_natCast_mul m g).signQ_mul _).representable hg ?_
    rw [abs_mul, abs_signQ, one_mul, abs_of_nonneg (by positivity), two_zpow_add, mul_comm]
    gcongr
    exact_mod_cast hm.le
  have hf := (frac b).isLt
  by_cases he : expf b = 0#11
  · convert hrep (show (frac b).toNat < 2 ^ 53 by omega) le_rfl using 1
    rw [val, if_pos he, signQ, mul_assoc]
  · have hne : (expf b).toNat ≠ 0 := mt (expf_toNat_eq_zero_iff b).mp he
    convert hrep (show 2 ^ 52 + (frac b).toNat < 2 ^ 53 by omega) (show -1074 ≤ (expf b).toNat - (1075 : ℤ) by omega)
      using 1
    rw [val, if_neg he, signQ, mul_assoc]
    push_cast
    rfl

theorem HasVal.representable {b : Word} {c : ℚ} (h : HasVal b c) : Representable c := h.2 ▸ representable_val b

theorem hasVal_fadd {a b : Word} {c d : ℚ} (ha : HasVal a c) (hb : HasVal b d) (h : |c + d| ≤ safeBound) :
    HasVal (fadd a b) (rnd (c + d)) := by
  obtain ⟨hfa, rfl⟩ := ha
  obtain ⟨hfb, rfl⟩ := hb
  by_cases h0 : val a + val b = 0
  · simp only [fadd_eq, isNan_of_isFinite, isInf_of_isFinite, hfa, hfb, h0, if_true, Bool.false_eq_true, or_self,
      if_false, rnd_zero]
    split <;> exact hasVal_zero _
  · rw [fadd_eq_roundRNE hfa hfb h0]
    exact hasVal_roundRNE h0 h

theorem hasVal_fadd_exact {a b : Word} {c d : ℚ} (ha : HasVal a c) (hb : HasVal b d)
    (h : |c + d| ≤ safeBound) (hr : Representable (c + d)) : HasVal (fadd a b) (c + d) := by
  have := hasVal_fadd ha hb h
  rwa [rnd_of_representable hr] at this

theorem hasVal_fsub {a b : Word} {c d : ℚ} (ha : HasVal a c) (hb : HasVal b d) (h : |c - d| ≤ safeBound) :
    HasVal (fsub a b) (rnd (c - d)) := by
  rw [fsub_of_finite ha.1 hb.1]
  rw [sub_eq_add_neg] at h ⊢
  exact hasVal_fadd ha hb.flipSign h

theorem hasVal_fsub_exact {a b : Word} {c d : ℚ} (ha : HasVal a c) (hb : HasVal b d)
    (h : |c - d| ≤ safeBound) (hr : Representable (c - d)) : HasVal (fsub a b) (c - d) := by
  have := hasVal_fsub ha hb h
  rwa [rnd_of_representable hr] at this

theorem hasVal_fmul {a b : Word} {c d : ℚ} (ha : HasVal a c) (hb : HasVal b d) (h : |c * d| ≤ safeBound) :
    HasVal (fmul a b) (rnd (c * d)) := by
  obtain ⟨hfa, rfl⟩ := ha
  obtain ⟨hfb, rfl⟩ := hb
  by_cases h0 : val a * val b = 0
  · simp only [fmul_eq, isNan_of_isFinite, isInf_of_isFinite, hfa, hfb, h0, if_true, Bool.false_eq_true, or_self,
      if_false, rnd_zero]
    exact hasVal_zero _
  · rw [fmul_eq_roundRNE hfa hfb h0]
    exact hasVal_roundRNE h0 h

theorem hasVal_fmul_exact {a b : Word} {c d : ℚ} (ha : HasVal a c) (hb : HasVal b d)
    (h : |c * d| ≤ safeBound) (hr : Representable (c * d)) : HasVal (fmul a b) (c * d) := by
  have := hasVal_fmul ha hb h
  rwa [rnd_of_representable hr] at this

end Sys2Proof.Machine
end

section
/-! PROOFS. The two-sum of the double-double path is error-free (spec/42_fma_double_double_path.md rule R160): the error
of a rounded sum has 53 bits, and each of the two-sum's steps but the first two is exact. -/

namespace Sys2Proof.Machine

/-! ### The two-sum (rule R160) -/

/-- The error of a rounded sum is no larger than either operand. -/
theorem abs_add_sub_rnd_le {a b : ℚ} (ha : Representable a) : |a + b - rnd (a + b)| ≤ |b| := by
  simpa using abs_sub_rnd_le_abs_sub (v := a + b) ha

/-- The error of a sum of two numbers below `2^(g+53)` is at most `2^g`. -/
theorem abs_add_sub_rnd_le_of_lt {g : ℤ} {a b : ℚ} (hg : -1074 ≤ g) (ha : |a| < (2 : ℚ) ^ (g + 53))
    (hb : |b| < (2 : ℚ) ^ (g + 53)) : |a + b - rnd (a + b)| ≤ (2 : ℚ) ^ g := by
  have htwo : (2 : ℚ) ^ (g + 1 + 53) = 2 ^ (g + 53) * 2 := by rw [← two_zpow_succ, add_right_comm]
  have := abs_sub_rnd_le_of_le (v := a + b) (show -1074 ≤ g + 1 by omega)
    ((abs_add_le a b).trans ((add_le_add ha.le hb.le).trans_eq (by rw [htwo, mul_two])))
  rwa [add_sub_cancel_right] at this

theorem ne_zero_of_not_representable_add {a b : ℚ} (hb : Representable b) (hr : ¬ Representable (a + b)) : a ≠ 0 := by
  rintro rfl
  exact hr (by rwa [zero_add])

/-- A sum that its rounding changes is large in the quanta of its smaller operand. -/
theorem lt_abs_add_of_not_representable {a b : ℚ} (ha : Representable a) (hb : Representable b) (hle : |a| ≤ |b|)
    (hr : ¬ Representable (a + b)) : (2 : ℚ) ^ (quantumAt a + 53) < |a + b| :=
  (OnGrid.add ha (hb.onGrid_of_abs_le (ne_zero_of_not_representable_add hb hr) hle)).lt_abs_of_not_representable
    (quantumAt_ge a) hr

/-- The rounded sum less its larger operand has 53 bits: both lie on a grid one place coarser than the smaller
operand's, or the larger operand is so small that the rounding moves the sum by no more than one unit of that operand's grid. -/
theorem representable_rnd_add_sub {a b : ℚ} (ha : Representable a) (hb : Representable b) (hle : |a| ≤ |b|) :
    Representable (rnd (a + b) - b) := by
  by_cases hr : Representable (a + b)
  · rwa [rnd_of_representable hr, add_sub_cancel_right]
  have hg := quantumAt_ge a
  have halt := abs_lt_quantumAt a
  have hbg := hb.onGrid_of_abs_le (ne_zero_of_not_representable_add hb hr) hle
  have hsum := lt_abs_add_of_not_representable ha hb hle hr
  have hx := (representable_rnd (a + b)).onGrid_succ (le_abs_rnd (representable_zpow (by omega)) hsum.le)
  obtain hbig | hsmall := le_or_gt ((2 : ℚ) ^ (quantumAt a + 53)) |b|
  · refine (hx.sub (hb.onGrid_succ hbig)).representable (by omega) ((abs_rnd_sub_le hb).trans ?_)
    rw [add_sub_cancel_right, add_right_comm, two_zpow_succ]
    linarith
  · have herr := abs_add_sub_rnd_le_of_lt hg halt hsmall
    have ha1 := (OnGrid.abs ha).add_le_of_lt (onGrid_zpow (by omega)) halt
    refine ((hx.mono (by omega)).sub hbg).representable hg ?_
    calc |rnd (a + b) - b| = |a - (a + b - rnd (a + b))| := by congr 1; ring
      _ ≤ |a| + |a + b - rnd (a + b)| := abs_sub _ _
      _ ≤ _ := by linarith

/-- The error of a rounded sum has 53 bits: it is no larger than the smaller operand and on its grid. -/
theorem representable_add_sub_rnd {a b : ℚ} (ha : Representable a) (hb : Representable b) :
    Representable (a + b - rnd (a + b)) := by
  wlog hle : |b| ≤ |a| generalizing a b
  · have := this hb ha (le_of_not_ge hle)
    rwa [add_comm b a] at this
  by_cases hr : Representable (a + b)
  · rw [rnd_of_representable hr, sub_self]
    exact representable_zero
  have hb0 : b ≠ 0 := ne_zero_of_not_representable_add ha (by rwa [add_comm])
  have hsum := (ha.onGrid_of_abs_le hb0 hle).add hb
  exact (hsum.sub (onGrid_rnd hsum)).representable (quantumAt_ge b)
    ((abs_add_sub_rnd_le ha).trans (abs_lt_quantumAt b).le)

/-- What the two-sum finds for its second operand: `rnd (a + b) - a`, rounded. -/
def sumShare (a b : ℚ) : ℚ := rnd (rnd (a + b) - a)

/-- The rounding of the share moves it by no more than the error of the sum, since the second operand is a candidate. -/
theorem abs_sub_sumShare_le {a b : ℚ} (hb : Representable b) : |b - sumShare a b| ≤ 2 * |a + b - rnd (a + b)| := by
  have := abs_rnd_sub_le (v := rnd (a + b) - a) hb
  rwa [abs_sub_comm, show rnd (a + b) - a - b = -(a + b - rnd (a + b)) by ring, abs_neg] at this

/-- The second operand less its share has 53 bits. -/
theorem representable_sub_sumShare {a b : ℚ} (ha : Representable a) (hb : Representable b) (hlt : |a| < |b|)
    (hr : ¬ Representable (a + b)) : Representable (b - sumShare a b) := by
  have hg := quantumAt_ge a
  have halt := abs_lt_quantumAt a
  have hbg := hb.onGrid_of_abs_le (ne_zero_of_not_representable_add hb hr) hlt.le
  have hx := onGrid_rnd (OnGrid.add ha hbg)
  have hshare := abs_sub_sumShare_le (a := a) hb
  obtain hbig | hsmall := le_or_gt ((2 : ℚ) ^ (quantumAt a + 53)) |b|
  · obtain hfar | hnear := le_or_gt ((2 : ℚ) ^ (quantumAt a + 53)) |rnd (a + b) - a|
    · have hs := (representable_rnd (rnd (a + b) - a)).onGrid_succ (le_abs_rnd (representable_zpow (by omega)) hfar)
      have herr := abs_add_sub_rnd_le (b := a) hb
      rw [add_comm b a] at herr
      refine ((hb.onGrid_succ hbig).sub hs).representable (by omega) (hshare.trans ?_)
      rw [add_right_comm, two_zpow_succ]
      linarith
    · have hs : sumShare a b = rnd (a + b) - a :=
        rnd_of_representable ((hx.sub ha).representable hg hnear.le)
      rw [hs, show b - (rnd (a + b) - a) = a + b - rnd (a + b) by ring]
      exact representable_add_sub_rnd ha hb
  · have herr := abs_add_sub_rnd_le_of_lt hg halt hsmall
    refine (hbg.sub (onGrid_rnd (hx.sub ha))).representable hg (hshare.trans ?_)
    calc 2 * |a + b - rnd (a + b)| ≤ (2 : ℚ) ^ (quantumAt a + 1) := by rw [two_zpow_succ]; linarith
      _ ≤ _ := two_zpow_le (by omega)

/-- The two-sum's parts, the sum less the second operand's share and what either operand lacks of its share, all have
53 bits. -/
theorem representable_sumShare_parts {a b : ℚ} (ha : Representable a) (hb : Representable b) :
    Representable (rnd (a + b) - sumShare a b) ∧ Representable (a - (rnd (a + b) - sumShare a b)) ∧
      Representable (b - sumShare a b) := by
  have hexact (hs : sumShare a b = rnd (a + b) - a) :
      Representable (rnd (a + b) - sumShare a b) ∧ Representable (a - (rnd (a + b) - sumShare a b)) ∧
        Representable (b - sumShare a b) := by
    rw [hs, sub_sub_cancel, sub_self, show b - (rnd (a + b) - a) = a + b - rnd (a + b) by ring]
    exact ⟨ha, representable_zero, representable_add_sub_rnd ha hb⟩
  by_cases hr : Representable (a + b)
  · apply hexact
    rw [sumShare, rnd_of_representable hr, add_sub_cancel_left, rnd_of_representable hb]
  obtain hle | hlt := le_or_gt |b| |a|
  · have := representable_rnd_add_sub hb ha hle
    rw [add_comm b a] at this
    exact hexact (rnd_of_representable this)
  · have hsum := lt_abs_add_of_not_representable ha hb hlt.le hr
    have hg := quantumAt_ge a
    have hx : |-a| ≤ |rnd (a + b)| := by
      rw [abs_neg]
      exact (abs_lt_quantumAt a).le.trans (le_abs_rnd (representable_zpow (by omega)) hsum.le)
    have hdom := representable_rnd_add_sub ha.neg (representable_rnd (a + b)) hx
    have hshare := representable_add_sub_rnd ha.neg (representable_rnd (a + b))
    rw [neg_add_eq_sub] at hdom hshare
    refine ⟨?_, ?_, representable_sub_sumShare ha hb hlt hr⟩
    · rw [← neg_sub]
      exact hdom.neg
    · rw [show a - (rnd (a + b) - sumShare a b) = -(rnd (a + b) - a - sumShare a b) by ring]
      exact hshare.neg

/-- No part of the two-sum is larger than twice an operand. -/
theorem abs_sumShare_parts_le {a b : ℚ} (ha : Representable a) (hb : Representable b) :
    |rnd (a + b) - a| ≤ 2 * |b| ∧ |rnd (a + b) - sumShare a b| ≤ 2 * |a| ∧
      |a - (rnd (a + b) - sumShare a b)| ≤ |b| ∧ |b - sumShare a b| ≤ 2 * |b| := by
  have herr := abs_add_sub_rnd_le (b := b) ha
  refine ⟨by simpa using abs_rnd_sub_le (v := a + b) ha, ?_, ?_, ?_⟩
  · have := abs_rnd_sub_le (v := rnd (a + b) - a) (representable_rnd (a + b))
    rwa [sub_sub_cancel_left, abs_neg, abs_sub_comm] at this
  · have := abs_sub_rnd_le_abs_sub (v := rnd (a + b) - a) hb
    rw [show rnd (a + b) - a - b = -(a + b - rnd (a + b)) by ring, abs_neg, ← abs_neg] at this
    rw [show a - (rnd (a + b) - sumShare a b) = -(rnd (a + b) - a - rnd (rnd (a + b) - a)) by rw [sumShare]; ring]
    exact this.trans herr
  · exact (abs_sub_sumShare_le hb).trans (mul_le_mul_of_nonneg_left herr zero_le_two)

/-- The sum pair is error-free as long as nothing can overflow (rule R160). -/
theorem hasVal_ddAdd {a b : Word} {c d : ℚ} (ha : HasVal a c) (hb : HasVal b d) (hc : |c| * 2 ≤ safeBound)
    (hd : |d| * 2 ≤ safeBound) :
    HasVal (ddAdd a b).1 (rnd (c + d)) ∧ HasVal (ddAdd a b).2 (c + d - rnd (c + d)) := by
  obtain ⟨hrest, hlack, hlack'⟩ := representable_sumShare_parts ha.representable hb.representable
  obtain ⟨hshare_le, hrest_le, hlack_le, hlack'_le⟩ := abs_sumShare_parts_le ha.representable hb.representable
  have hd1 : |d| ≤ safeBound := (le_mul_of_one_le_right (abs_nonneg d) one_le_two).trans hd
  have hhi := hasVal_fadd ha hb ((abs_add_le c d).trans (by linarith))
  rw [mul_comm] at hc hd
  have hs : HasVal _ (sumShare c d) := hasVal_fsub hhi ha (hshare_le.trans hd)
  have hr := hasVal_fsub_exact hhi hs (hrest_le.trans hc) hrest
  have h1 := hasVal_fsub_exact ha hr (hlack_le.trans hd1) hlack
  have h2 := hasVal_fsub_exact hb hs (hlack'_le.trans hd) hlack'
  have hlo : c - (rnd (c + d) - sumShare c d) + (d - sumShare c d) = c + d - rnd (c + d) := by ring
  have h3 := hasVal_fadd_exact h1 h2 (by rw [hlo]; exact (abs_add_sub_rnd_le ha.representable).trans hd1)
    (by rw [hlo]; exact representable_add_sub_rnd ha.representable hb.representable)
  rw [hlo] at h3
  exact ⟨hhi, h3⟩

end Sys2Proof.Machine
end

section
/-! PROOFS. The split of a significand and the product pair lose nothing (spec/42_fma_double_double_path.md rules R158
and R159): the split's first two steps and the sum that gives the product's high part are rounded, all others exact. -/

namespace Sys2Proof.Machine

/-! ### The split (rule R158) -/

/-- What `SPLITC` stands for (rule R155). -/
def splitFactor : ℚ := 2 ^ 27 + 1

theorem hasVal_splitConst : HasVal splitConst splitFactor := by
  refine ⟨by decide, ?_⟩
  rw [val_of_fields (s := false) (e := 1050#11) (f := 0x2000000#52) (by decide) (by decide) (by decide) (by decide),
    splitFactor]
  norm_num [signQ, zpow_neg]

theorem two_zpow_split : (2 : ℚ) ^ (-26 : ℤ) = 1 / 2 ^ 26 ∧ (2 : ℚ) ^ (-27 : ℤ) = 1 / 2 ^ 27 ∧
    (2 : ℚ) ^ (-53 : ℤ) = 1 / 2 ^ 53 := by norm_num [zpow_neg]

/-- The next number below 1 on the grid of the significands. -/
theorem abs_add_le_one {c : ℚ} (hc : OnGrid (-53) c) (hup : |c| < 1) : |c| + 1 / 2 ^ 53 ≤ 1 := by
  have := hc.abs.add_le_of_lt (onGrid_zpow (show (-53 : ℤ) ≤ 0 by norm_num)) (by simpa using hup)
  rwa [two_zpow_split.2.2, zpow_zero] at this

theorem abs_mul_splitFactor (c : ℚ) : |c * splitFactor| = |c| * (2 ^ 27 + 1) := by
  rw [abs_mul, splitFactor, abs_of_nonneg (by norm_num : (0 : ℚ) ≤ 2 ^ 27 + 1)]

theorem abs_mul_splitFactor_le {c : ℚ} (hup : |c| < 1) : |c * splitFactor| ≤ 2 ^ 28 := by
  rw [abs_mul_splitFactor]
  exact (mul_le_mul_of_nonneg_right hup.le (by norm_num)).trans (by norm_num)

theorem le_abs_mul_splitFactor {c : ℚ} (hlo : 1 / 2 ≤ |c|) : 2 ^ 26 ≤ |c * splitFactor| := by
  rw [abs_mul_splitFactor]
  exact (mul_le_mul_of_nonneg_right hlo (by norm_num)).trans' (by norm_num)

theorem onGrid_mul_splitFactor {g : ℤ} {c : ℚ} (hc : OnGrid g c) : OnGrid g (c * splitFactor) := by
  have hF : OnGrid 0 splitFactor := ⟨2 ^ 27 + 1, by rw [splitFactor]; norm_num⟩
  have := hc.mul hF
  rwa [add_zero] at this

/-- The significand less its product with the split constant stays in the binade of `2^26`: the product of `±1/2` is
exact, and that of any other one is off by no more than the significand's distance to the end of the binade. -/
theorem split_range {c : ℚ} (hc : OnGrid (-53) c) (hlo : 1 / 2 ≤ |c|) (hup : |c| < 1) :
    (2 : ℚ) ^ 26 ≤ |c - rnd (c * splitFactor)| ∧ |c - rnd (c * splitFactor)| ≤ 2 ^ 27 := by
  have hone := abs_add_le_one hc hup
  have herr := abs_sub_rnd_le_of_le (v := c * splitFactor) (show (-1074 : ℤ) ≤ -25 by norm_num)
    ((abs_mul_splitFactor_le hup).trans_eq (by norm_num))
  rw [show (-25 - 1 : ℤ) = -26 by norm_num, two_zpow_split.1] at herr
  have hdiff : c - rnd (c * splitFactor) = (c * splitFactor - rnd (c * splitFactor)) - c * 2 ^ 27 := by
    rw [splitFactor]; ring
  have hscale : |c * 2 ^ 27| = |c| * 2 ^ 27 := by rw [abs_mul, abs_of_pos (by norm_num : (0 : ℚ) < 2 ^ 27)]
  have hexact : |c| = 1 / 2 → c * splitFactor - rnd (c * splitFactor) = 0 := fun heq => by
    have hhalf : OnGrid (-1) c := .of_abs (by rw [heq, one_div, ← zpow_neg_one]; exact onGrid_zpow le_rfl)
    rw [rnd_of_representable ((onGrid_mul_splitFactor hhalf).representable (by norm_num) ?_), sub_self]
    rw [abs_mul_splitFactor, heq]
    norm_num
  generalize c * splitFactor - rnd (c * splitFactor) = E at *
  have hlow := abs_sub_abs_le_abs_sub (c * 2 ^ 27) E
  have hhigh := abs_sub E (c * 2 ^ 27)
  rw [abs_sub_comm, hscale] at hlow
  rw [hscale] at hhigh
  rw [hdiff]
  refine ⟨?_, by linarith⟩
  obtain heq | hlt := eq_or_lt_of_le hlo
  · rw [hexact heq.symm, zero_sub, abs_neg, hscale, ← heq]
    norm_num
  · have := (onGrid_zpow (show (-53 : ℤ) ≤ -1 by norm_num)).add_le_of_lt hc.abs (by simpa using hlt)
    rw [two_zpow_split.2.2, zpow_neg_one] at this
    linarith

/-- `h` and `l` split `c` at bit `2^(-26)`: `h` has the bits above it, `l` the signed rest. -/
structure IsSplit (c h l : ℚ) : Prop where
  add : h + l = c
  high_grid : OnGrid (-26) h
  high_le : |h| ≤ 1
  low_grid : OnGrid (-53) l
  low_le : |l| ≤ (2 : ℚ) ^ (-27 : ℤ)

/-- The high half: the significand moved up into the binade of `2^26`, rounded, and moved back. -/
def splitHigh (c : ℚ) : ℚ := rnd (c - rnd (c * splitFactor)) + rnd (c * splitFactor)

/-- The rounding of the split moves the significand by the low half. -/
theorem isSplit_splitHigh {c : ℚ} (hc : OnGrid (-53) c) (hlo : 1 / 2 ≤ |c|) (hup : |c| < 1) :
    IsSplit c (splitHigh c) (c - splitHigh c) := by
  obtain ⟨hbin, hbin'⟩ := split_range hc hlo hup
  have hlow : |c - splitHigh c| ≤ (2 : ℚ) ^ (-27 : ℤ) := by
    have := abs_sub_rnd_le_of_le (v := c - rnd (c * splitFactor)) (show (-1074 : ℤ) ≤ -26 by norm_num)
      (hbin'.trans_eq (by norm_num))
    rwa [sub_sub, add_comm] at this
  have hp : OnGrid (-26) (rnd (c * splitFactor)) :=
    onGrid_rnd_of_le ((le_abs_mul_splitFactor hlo).trans_eq' (by norm_num))
  have hh : OnGrid (-26) (splitHigh c) := (onGrid_rnd_of_le (hbin.trans_eq' (by norm_num))).add hp
  refine ⟨add_sub_cancel _ _, hh, ?_, hc.sub (hh.mono (by norm_num)), hlow⟩
  by_contra hgt
  have hgrid := (onGrid_zpow (show (-26 : ℤ) ≤ 0 by norm_num)).add_le_of_lt hh.abs (by simpa using hgt)
  have := abs_sub_abs_le_abs_sub (splitHigh c) c
  rw [abs_sub_comm] at this
  rw [two_zpow_split.1, zpow_zero] at hgrid
  rw [two_zpow_split.2.1] at hlow
  linarith

/-- The split of a significand (rule R158). -/
theorem hasVal_ddSplit {a : Word} {c : ℚ} (ha : HasVal a c) (hlo : 1 / 2 ≤ |c|) (hup : |c| < 1) :
    ∃ h l, HasVal (ddSplit a).1 h ∧ HasVal (ddSplit a).2 l ∧ IsSplit c h l := by
  have hc : OnGrid (-53) c := ha.representable.onGrid_of_le (by norm_num [zpow_neg] at hlo ⊢; exact hlo)
  have hs := isSplit_splitHigh hc hlo hup
  obtain ⟨-, hbin'⟩ := split_range hc hlo hup
  have hsafe {v : ℚ} (hv : |v| ≤ 2 ^ 28) : |v| ≤ safeBound :=
    hv.trans (by exact_mod_cast two_zpow_le_safeBound (show (28 : ℤ) ≤ 1023 by norm_num))
  have hp := hasVal_fmul ha hasVal_splitConst (hsafe (abs_mul_splitFactor_le hup))
  have h0 := hasVal_fsub ha hp (hsafe (hbin'.trans (by norm_num)))
  have h1 := hasVal_fadd_exact h0 hp (hsafe (hs.high_le.trans (by norm_num) : |splitHigh c| ≤ 2 ^ 28))
    (hs.high_grid.representable (by norm_num) (hs.high_le.trans (by norm_num)))
  have h2 := hasVal_fsub_exact ha h1 (hsafe ((hs.low_le).trans (by norm_num)))
    (hs.low_grid.representable (by norm_num) (hs.low_le.trans (by norm_num)))
  exact ⟨splitHigh c, _, h1, h2, hs⟩

/-! ### The product pair (rule R159) -/

theorem two_zpow_product : (2 : ℚ) ^ (-52 : ℤ) = 1 / 2 ^ 52 ∧ (2 : ℚ) ^ (-54 : ℤ) = 1 / 2 ^ 54 := by norm_num [zpow_neg]

theorem abs_mul_le_of_le {c d M N : ℚ} (hc : |c| ≤ M) (hd : |d| ≤ N) : |c * d| ≤ M * N := by
  rw [abs_mul]
  exact mul_le_mul hc hd (abs_nonneg d) ((abs_nonneg c).trans hc)

/-- A product of two significands is at least a quarter. -/
theorem quarter_le_abs_mul {c d : ℚ} (hc : 1 / 2 ≤ |c|) (hd : 1 / 2 ≤ |d|) : 1 / 4 ≤ |c * d| := by
  rw [abs_mul]
  calc (1 : ℚ) / 4 = 1 / 2 * (1 / 2) := by norm_num
    _ ≤ _ := mul_le_mul hc hd (by norm_num) (abs_nonneg c)

/-- The partial products of two splits, the two middle ones together: each has 53 bits. -/
structure PartialProducts (p m r : ℚ) : Prop where
  high_grid : OnGrid (-52) p
  high_le : |p| ≤ (2 : ℚ) ^ (0 : ℤ)
  mid_grid : OnGrid (-79) m
  mid_le : |m| ≤ (2 : ℚ) ^ (-26 : ℤ)
  low_grid : OnGrid (-106) r
  low_le : |r| ≤ (2 : ℚ) ^ (-54 : ℤ)

/-- A product of a high half and a low one. -/
theorem mid_product {h l : ℚ} (hh : OnGrid (-26) h) (hh1 : |h| ≤ 1) (hl : OnGrid (-53) l)
    (hl1 : |l| ≤ (2 : ℚ) ^ (-27 : ℤ)) : OnGrid (-79) (h * l) ∧ |h * l| ≤ (2 : ℚ) ^ (-27 : ℤ) :=
  ⟨hh.mul hl, (abs_mul_le_of_le hh1 hl1).trans_eq (one_mul _)⟩

theorem IsSplit.partialProducts {c d h l h' l' : ℚ} (hc : IsSplit c h l) (hd : IsSplit d h' l') :
    PartialProducts (h * h') (h * l' + l * h') (l * l') := by
  obtain ⟨hgrid, hle⟩ := mid_product hc.high_grid hc.high_le hd.low_grid hd.low_le
  obtain ⟨hgrid', hle'⟩ := mid_product hd.high_grid hd.high_le hc.low_grid hc.low_le
  rw [mul_comm l h']
  exact {
    high_grid := hc.high_grid.mul hd.high_grid
    high_le := (abs_mul_le_of_le hc.high_le hd.high_le).trans_eq (by norm_num)
    mid_grid := hgrid.add hgrid'
    mid_le := (abs_add_le _ _).trans ((add_le_add hle hle').trans_eq (by norm_num))
    low_grid := hc.low_grid.mul hd.low_grid
    low_le := (abs_mul_le_of_le hc.low_le hd.low_le).trans_eq (by rw [← two_zpow_add]; norm_num) }

/-- A value hardly above 1 is rounded to within half a unit below 1. -/
theorem abs_sub_rnd_le_of_le_one_add {v : ℚ} (h : |v| ≤ 1 + (2 : ℚ) ^ (-54 : ℤ)) :
    |v - rnd v| ≤ (2 : ℚ) ^ (-54 : ℤ) := by
  obtain hle | hgt := le_or_gt |v| 1
  · exact abs_sub_rnd_le_of_le (show (-1074 : ℤ) ≤ -53 by norm_num) (by simpa using hle)
  have hone : Representable 1 := representable_zpow (k := 0) (by norm_num)
  have hsigned : Representable (signQ (decide (v < 0)) * 1) :=
    .of_abs (by rwa [abs_mul, abs_signQ, one_mul, abs_one])
  refine (abs_sub_rnd_le_abs_sub hsigned).trans ?_
  rw [abs_sub_signQ_mul hgt.le, sub_le_iff_le_add']
  exact h

/-- The pair `h`, `l` is the product of two significands without loss. -/
structure IsProductPair (v h l : ℚ) : Prop where
  add : h + l = v
  high_ge : 1 / 8 ≤ |h|
  high_le : |h| ≤ 2
  high_grid : OnGrid (-55) h
  low_le : |l| ≤ (2 : ℚ) ^ (-53 : ℤ)

/-- A multiple of `2^g` of magnitude at most `2^k`, at most 53 places up, is computed without loss or overflow. -/
theorem OnGrid.exact {g k : ℤ} {v : ℚ} (h : OnGrid g v) (hv : |v| ≤ (2 : ℚ) ^ k) (hg : -1074 ≤ g) (hgk : k ≤ g + 53)
    (hk : k ≤ 1023) : |v| ≤ safeBound ∧ Representable v :=
  ⟨hv.trans (two_zpow_le_safeBound hk), h.representable hg (hv.trans (two_zpow_le hgk))⟩

namespace PartialProducts

variable {p m r : ℚ} (h : PartialProducts p m r)

include h

/-- The rounded sum of the high and the middle products, with its error and the low product, is the whole product. -/
theorem isProductPair (hlo : 1 / 4 ≤ |p + m + r|) (hup : |p + m + r| ≤ 1) :
    IsProductPair (p + m + r) (rnd (p + m)) (p + m - rnd (p + m) + r) := by
  have hr := h.low_le
  have hsum : |p + m| ≤ |p + m + r| + |r| := by simpa using abs_sub (p + m + r) r
  have hsum' : |p + m + r| ≤ |p + m| + |r| := abs_add_le _ _
  have herr := abs_sub_rnd_le_of_le_one_add (hsum.trans (add_le_add hup hr))
  have hlow := abs_add_le (p + m - rnd (p + m)) r
  rw [two_zpow_product.2] at hr herr
  have heighth : 1 / 8 ≤ |p + m| := by linarith
  have hthree : (1 : ℚ) / 8 = 2 ^ (-3 : ℤ) := by norm_num [zpow_neg]
  refine ⟨by ring, ?_, ?_, ?_, ?_⟩
  · rw [hthree] at heighth ⊢
    exact le_abs_rnd (representable_zpow (by norm_num)) heighth
  · have htwo : Representable 2 := representable_zpow (k := 1) (by norm_num)
    exact abs_rnd_le htwo ((hsum.trans (add_le_add hup hr)).trans (by norm_num))
  · rw [hthree] at heighth
    exact onGrid_rnd_of_le heighth
  · rw [two_zpow_split.2.2]
    exact (hlow.trans (add_le_add herr hr)).trans_eq (by norm_num)

theorem abs_sum_le : |p + m| ≤ safeBound := by
  have hmid := h.mid_le.trans (two_zpow_le (show (-26 : ℤ) ≤ 0 by norm_num))
  refine (abs_add_le p m).trans ((add_le_add h.high_le hmid).trans ?_)
  rw [← mul_two, ← two_zpow_succ]
  exact two_zpow_le_safeBound (by norm_num)

/-- The high product less the rounded sum is exact. -/
theorem sub_rnd_exact (hgrid : OnGrid (-55) (rnd (p + m))) :
    |p - rnd (p + m)| ≤ safeBound ∧ Representable (p - rnd (p + m)) := by
  have hp := (h.high_grid.exact h.high_le (by norm_num) (by norm_num) (by norm_num)).2
  have hle := abs_rnd_sub_le (v := p + m) hp
  rw [abs_sub_comm, add_sub_cancel_left] at hle
  refine ((h.high_grid.mono (by norm_num)).sub hgrid).exact (k := -26 + 1) ?_ (by norm_num) (by norm_num) (by norm_num)
  rw [two_zpow_succ, mul_comm]
  exact hle.trans (mul_le_mul_of_nonneg_left h.mid_le zero_le_two)

/-- The low part is exact. -/
theorem low_exact (hpair : IsProductPair (p + m + r) (rnd (p + m)) (p + m - rnd (p + m) + r)) :
    |p + m - rnd (p + m) + r| ≤ safeBound ∧ Representable (p + m - rnd (p + m) + r) := by
  have hp := h.high_grid.mono (show (-106 : ℤ) ≤ -52 by norm_num)
  have hm := h.mid_grid.mono (show (-106 : ℤ) ≤ -79 by norm_num)
  have hhi := hpair.high_grid.mono (show (-106 : ℤ) ≤ -55 by norm_num)
  exact (((hp.add hm).sub hhi).add h.low_grid).exact hpair.low_le (by norm_num) (by norm_num) (by norm_num)

end PartialProducts

/-- The product pair of two significands is error-free (rule R159). -/
theorem hasVal_ddMul {a b : Word} {c d : ℚ} (ha : HasVal a c) (hc : 1 / 2 ≤ |c|) (hc' : |c| < 1) (hb : HasVal b d)
    (hd : 1 / 2 ≤ |d|) (hd' : |d| < 1) :
    ∃ h l, HasVal (ddMul a b).1 h ∧ HasVal (ddMul a b).2 l ∧ IsProductPair (c * d) h l := by
  obtain ⟨h, l, hh, hl, hs⟩ := hasVal_ddSplit ha hc hc'
  obtain ⟨h', l', hh', hl', hs'⟩ := hasVal_ddSplit hb hd hd'
  have hcd : h * h' + (h * l' + l * h') + l * l' = c * d := by rw [← hs.add, ← hs'.add]; ring
  have hpp := hs.partialProducts hs'
  have hpair := hpp.isProductPair (by rw [hcd]; exact quarter_le_abs_mul hc hd)
    (by rw [hcd]; exact (abs_mul_le_of_le hc'.le hd'.le).trans_eq (one_mul 1))
  obtain ⟨hgrid, hle⟩ := mid_product hs.high_grid hs.high_le hs'.low_grid hs'.low_le
  obtain ⟨hgrid', hle'⟩ := mid_product hs'.high_grid hs'.high_le hs.low_grid hs.low_le
  rw [mul_comm h' l] at hgrid' hle'
  obtain ⟨hps, hpr⟩ := hpp.high_grid.exact hpp.high_le (by norm_num) (by norm_num) (by norm_num)
  obtain ⟨hqs, hqr⟩ := hgrid.exact hle (by norm_num) (by norm_num) (by norm_num)
  obtain ⟨hqs', hqr'⟩ := hgrid'.exact hle' (by norm_num) (by norm_num) (by norm_num)
  obtain ⟨hms, hmr⟩ := hpp.mid_grid.exact hpp.mid_le (by norm_num) (by norm_num) (by norm_num)
  obtain ⟨hls, hlr⟩ := hpp.low_grid.exact hpp.low_le (by norm_num) (by norm_num) (by norm_num)
  have hP := hasVal_fmul_exact hh hh' hps hpr
  have hM := hasVal_fadd_exact (hasVal_fmul_exact hh hl' hqs hqr) (hasVal_fmul_exact hl hh' hqs' hqr') hms hmr
  have hH := hasVal_fadd hP hM hpp.abs_sum_le
  obtain ⟨hrs, hrr⟩ := hpp.sub_rnd_exact hpair.high_grid
  obtain ⟨hes, her⟩ := hpp.low_exact hpair
  have herr := (abs_add_sub_rnd_le hpr).trans hms
  have herrR := representable_add_sub_rnd hpr hmr
  rw [add_sub_right_comm] at herr herrR
  have hE := hasVal_fadd_exact (hasVal_fsub_exact hP hH hrs hrr) hM herr herrR
  rw [← add_sub_right_comm] at hE
  exact ⟨_, _, hH, hasVal_fadd_exact hE (hasVal_fmul_exact hl hl' hls hlr) hes her, hcd ▸ hpair⟩

end Sys2Proof.Machine
end

section
/-! PROOFS. The pattern steps of the double-double path (spec/42_fma_double_double_path.md rules R169 and R170): a step
away from a rounded sum leads to its other neighbour, so that the low components are rounded to odd, and the last fold
is rounded at the precision that the scaling leaves. -/

namespace Sys2Proof.Machine

/-! ### The neighbours of a value that has more than 53 bits -/

/-- The integer on the other side of `t` than the nearest one. -/
def otherNeighbour (t : ℚ) : ℕ := if nearestEven t < t then nearestEven t + 1 else nearestEven t - 1

theorem abs_sub_nearestEven_lt_one {t : ℚ} (ht : 0 ≤ t) : |t - nearestEven t| < 1 :=
  (nearestEven_spec ht).1.trans_lt one_half_lt_one

theorem nearestEven_near {t : ℚ} (ht : 0 ≤ t) : t < nearestEven t + 1 ∧ (nearestEven t : ℚ) < t + 1 := by
  obtain ⟨hlt, hgt⟩ := abs_sub_lt_iff.mp (abs_sub_nearestEven_lt_one ht)
  exact ⟨sub_lt_iff_lt_add'.mp hlt, sub_lt_iff_lt_add'.mp hgt⟩

theorem abs_sub_lt_one_of_mem_Ioo {k t : ℚ} (h : k < t) (h' : t < k + 1) : |t - k| < 1 ∧ |t - (k + 1)| < 1 := by
  rw [abs_of_pos (sub_pos.mpr h), abs_sub_comm, abs_of_pos (sub_pos.mpr h'), sub_lt_iff_lt_add', sub_lt_iff_lt_add',
    add_lt_add_iff_right]
  exact ⟨h', h⟩

theorem succ_mod_two_ne (n : ℕ) : (n + 1) % 2 ≠ n % 2 := by omega

theorem pos_of_two_pow_le {t : ℚ} (h : 2 ^ 52 ≤ t) : 0 < t := lt_of_lt_of_le (by norm_num) h

theorem nearestEven_bounds {t : ℚ} (hlo : 2 ^ 52 ≤ t) (hup : t < 2 ^ 53) :
    2 ^ 52 ≤ nearestEven t ∧ nearestEven t ≤ 2 ^ 53 := by
  obtain ⟨hlt, hgt⟩ := nearestEven_near (pos_of_two_pow_le hlo).le
  have hn : 2 ^ 52 < nearestEven t + 1 := by exact_mod_cast hlo.trans_lt hlt
  have hn' : nearestEven t < 2 ^ 53 + 1 := by exact_mod_cast hgt.trans (add_lt_add_left hup 1)
  exact ⟨Nat.lt_succ_iff.mp hn, Nat.lt_succ_iff.mp hn'⟩

theorem otherNeighbour_spec {t : ℚ} (hlo : 2 ^ 52 ≤ t) (hup : t < 2 ^ 53) (hne : t ≠ nearestEven t) :
    2 ^ 52 ≤ otherNeighbour t ∧ otherNeighbour t ≤ 2 ^ 53 ∧ |t - otherNeighbour t| < 1 ∧
      otherNeighbour t % 2 ≠ nearestEven t % 2 := by
  obtain ⟨hlt, hgt⟩ := nearestEven_near (pos_of_two_pow_le hlo).le
  obtain ⟨hn, hn'⟩ := nearestEven_bounds hlo hup
  unfold otherNeighbour
  split
  · next h =>
    have hcarry : nearestEven t < 2 ^ 53 := by exact_mod_cast h.trans hup
    rw [Nat.cast_add_one]
    exact ⟨hn.trans (Nat.le_succ _), hcarry, (abs_sub_lt_one_of_mem_Ioo h hlt).2, succ_mod_two_ne _⟩
  · next h =>
    have hlt' : t < nearestEven t := lt_of_le_of_ne (not_lt.mp h) hne
    have hlow : 2 ^ 52 < nearestEven t := by exact_mod_cast hlo.trans_lt hlt'
    obtain ⟨k, hk⟩ := Nat.exists_eq_add_one_of_ne_zero (Nat.ne_zero_of_lt hlow)
    rw [hk, Nat.cast_add_one] at hgt hlt'
    rw [hk] at hlow hn' ⊢
    exact ⟨Nat.lt_succ_iff.mp hlow, (Nat.le_succ k).trans hn',
      (abs_sub_lt_one_of_mem_Ioo (add_lt_add_iff_right 1 |>.mp hgt) hlt').1, (succ_mod_two_ne k).symm⟩

/-- A sum of the path that its rounding changes. -/
structure Inexact (v : ℚ) : Prop where
  not_representable : ¬ Representable v
  units : OnGrid (-1074) v
  small : quantumAt v ≤ 970

theorem inexact_of_add {a b : Word} {c d : ℚ} (ha : HasVal a c) (hb : HasVal b d) (hsum : |c + d| < safeBound)
    (hr : ¬ Representable (c + d)) : Inexact (c + d) :=
  ⟨hr, ha.representable.onGrid_units.add hb.representable.onGrid_units,
    quantumAt_le (ne_zero_of_not_representable hr) (by norm_num) hsum⟩

namespace Inexact

variable {v : ℚ} (h : Inexact v)

include h

theorem ne_zero : v ≠ 0 := ne_zero_of_not_representable h.not_representable

theorem quantumAt_ne : quantumAt v ≠ -1074 := fun hq => h.not_representable (hq ▸ h.units : OnGrid (quantumAt v) v)

theorem le_quanta : 2 ^ 52 ≤ quanta v := by
  rw [quanta, le_div_iff₀ (two_zpow_pos _), mul_comm]
  exact (two_zpow_add_natCast _ 52).symm.trans_le (le_abs_of_quantumAt h.ne_zero h.quantumAt_ne)

theorem quanta_ne : quanta v ≠ nearestEven (quanta v) := fun heq => by
  refine h.not_representable (.of_abs ?_)
  rw [Representable, quantumAt_abs, abs_eq_quanta_mul, heq]
  exact onGrid_natCast_mul _ _

/-- Both neighbours can be packed. -/
theorem packReady {m : ℕ} (hm : m = nearestEven (quanta v) ∨ m = otherNeighbour (quanta v)) :
    PackReady m (quantumAt v) := by
  obtain rfl | rfl := hm
  · exact packReady_quanta h.ne_zero
  · obtain ⟨hlo, hup, -⟩ := otherNeighbour_spec h.le_quanta (quanta_lt v) h.quanta_ne
    exact ⟨quantumAt_ge v, hup, fun hlt => by omega⟩

theorem nearestEven_ge : 2 ^ 52 ≤ nearestEven (quanta v) := by
  by_contra hlt
  exact h.quantumAt_ne ((packReady_quanta h.ne_zero).2.2 (not_le.mp hlt))

theorem toNat_quantumAt_le : (quantumAt v + 1074).toNat ≤ 2044 := by
  have := h.small
  omega

/-- The pattern of a neighbour as a number. -/
theorem toNat_packRounded {m : ℕ} (hm : m = nearestEven (quanta v) ∨ m = otherNeighbour (quanta v)) :
    (packRounded (decide (v < 0)) m (quantumAt v)).toNat =
      2 ^ 52 * ((decide (v < 0)).toNat * 2 ^ 11 + (quantumAt v + 1074).toNat) + m := by
  have hfit : (quantumAt v + 1074).toNat * 2 ^ 52 + m ≤ 2044 * 2 ^ 52 + 2 ^ 53 :=
    add_le_add (Nat.mul_le_mul_right _ h.toNat_quantumAt_le) (h.packReady hm).2.1
  rw [Machine.toNat_packRounded (h.packReady hm), min_eq_left (hfit.trans (by norm_num))]
  ring

/-- The pattern of a neighbour as a value. -/
theorem hasVal_packRounded {m : ℕ} (hm : m = nearestEven (quanta v) ∨ m = otherNeighbour (quanta v)) :
    HasVal (packRounded (decide (v < 0)) m (quantumAt v)) (signQ (decide (v < 0)) * m * 2 ^ quantumAt v) := by
  refine val_packRounded (h.packReady hm) ?_
  have hle : (m : ℚ) ≤ 2 ^ 53 := by exact_mod_cast (h.packReady hm).2.1
  calc (m : ℚ) * 2 ^ quantumAt v ≤ 2 ^ 53 * 2 ^ quantumAt v := by gcongr
    _ = (2 : ℚ) ^ (quantumAt v + 53) := by rw [two_zpow_add, mul_comm]; rfl
    _ ≤ safeBound := two_zpow_le_safeBound (by have := h.small; omega)
    _ < _ := safeBound_lt

theorem hasVal_roundRNE :
    HasVal (roundRNE v) (signQ (decide (v < 0)) * nearestEven (quanta v) * 2 ^ quantumAt v) :=
  h.hasVal_packRounded (.inl rfl)

theorem toNat_roundRNE : (roundRNE v).toNat =
    2 ^ 52 * ((decide (v < 0)).toNat * 2 ^ 11 + (quantumAt v + 1074).toNat) + nearestEven (quanta v) :=
  h.toNat_packRounded (.inl rfl)

/-- Bit 0 of the rounded pattern is the parity of the nearest integer. -/
theorem getLsbD_roundRNE : (roundRNE v).getLsbD 0 = decide (nearestEven (quanta v) % 2 = 1) := by
  rw [BitVec.getLsbD, Nat.testBit_zero, h.toNat_roundRNE]
  simp [Nat.add_mod, Nat.mul_mod]

/-- The exponent field of the rounded pattern: one more where the rounding carries into the next binade. -/
theorem toNat_expf_roundRNE : ((expf (roundRNE v)).toNat : ℤ) =
    quantumAt v + 1074 + if nearestEven (quanta v) < 2 ^ 53 then 1 else 2 := by
  have hlo := h.nearestEven_ge
  have hup := (packReady_quanta h.ne_zero).2.1
  have hcarry : nearestEven (quanta v) / 2 ^ 52 = if nearestEven (quanta v) < 2 ^ 53 then 1 else 2 := by
    generalize nearestEven (quanta v) = n at *
    split <;> omega
  have hq := h.toNat_quantumAt_le
  have hfield : (quantumAt v + 1074).toNat + nearestEven (quanta v) / 2 ^ 52 < 2 ^ 11 := by
    rw [hcarry]
    split <;> omega
  rw [toNat_expf, h.toNat_roundRNE, Nat.mul_add_div (by norm_num), add_assoc, Nat.mul_add_mod_of_lt hfield, hcarry,
    Nat.cast_add, Int.toNat_of_nonneg (by have := quantumAt_ge v; omega), Nat.cast_ite, Nat.cast_one, Nat.cast_two]

theorem sub_rnd_ne_zero : v - rnd v ≠ 0 := fun h0 =>
  h.not_representable (by rw [sub_eq_zero.mp h0]; exact representable_rnd v)

/-- The low part of the sum pair has the sum's sign where the sum lies beyond the rounded one. -/
theorem sign_low {lo : Word} (hlo : HasVal lo (v - rnd v)) :
    sign (roundRNE v) = sign lo ↔ (nearestEven (quanta v) : ℚ) < quanta v := by
  have hpos := two_zpow_pos (quantumAt v)
  have hne : quanta v - nearestEven (quanta v) ≠ 0 := sub_ne_zero.mpr h.quanta_ne
  have hslo : sign lo = true ↔ v - rnd v < 0 := by
    rw [← val_lt_zero_iff (hlo.isZero_eq_false h.sub_rnd_ne_zero), hlo.2]
  rw [sub_rnd_eq] at hslo
  rw [sign_roundRNE, Bool.eq_iff_iff, hslo, ← sub_pos (a := quanta v)]
  generalize decide (v < 0) = s
  cases s
  · simp only [signQ, Bool.false_eq_true, if_false, one_mul, false_iff, mul_neg_iff, hpos, hpos.not_gt, and_false,
      and_true, false_or, not_lt]
    exact ⟨fun hle => lt_of_le_of_ne hle hne.symm, le_of_lt⟩
  · simp [signQ, hpos]

/-- A pattern step from the rounded sum toward its low part gives the other neighbour (rules R169 and R170). -/
theorem stepToward_roundRNE {lo : Word} (hlo : HasVal lo (v - rnd v)) :
    stepToward (roundRNE v) lo = packRounded (decide (v < 0)) (otherNeighbour (quanta v)) (quantumAt v) := by
  have hother := h.toNat_packRounded (.inr rfl)
  have hlt := (packRounded (decide (v < 0)) (otherNeighbour (quanta v)) (quantumAt v)).isLt
  apply BitVec.eq_of_toNat_eq
  rw [hother] at hlt ⊢
  unfold stepToward
  simp only [h.sign_low hlo]
  unfold otherNeighbour at hlt ⊢
  split
  · next hc =>
    rw [if_pos hc] at hlt
    rw [BitVec.toNat_add, h.toNat_roundRNE]
    exact Nat.mod_eq_of_lt hlt
  · have hpos : 1 ≤ nearestEven (quanta v) := le_trans (by norm_num) h.nearestEven_ge
    have hle : 1#64 ≤ roundRNE v := by
      rw [BitVec.le_def, h.toNat_roundRNE]
      exact le_add_left hpos
    rw [BitVec.toNat_sub_of_le hle, h.toNat_roundRNE]
    exact Nat.add_sub_assoc hpos _

end Inexact

theorem sameCell_of_abs_sub_lt_one {t : ℚ} {m : ℕ} (hm : m % 2 = 1) (hlt : |t - m| < 1) : SameCell 1 t m := by
  obtain ⟨hup, hlo⟩ := abs_sub_lt_iff.mp hlt
  have := sameCell_of_odd (g := 0) (m := m) (a := t) (by exact_mod_cast hm)
    (by simpa using sub_lt_comm.mp hlo) (by simpa using sub_lt_iff_lt_add'.mp hup)
  simpa using this

/-- An odd neighbour stands in its value's cell of the next coarser grid. -/
theorem sameCell_oddNeighbour {v : ℚ} {m : ℕ} (hm : m % 2 = 1) (hlt : |quanta v - m| < 1) :
    SameCell (quantumAt v + 1) v (signQ (decide (v < 0)) * m * 2 ^ quantumAt v) := by
  have := ((sameCell_of_abs_sub_lt_one hm hlt).scale (quantumAt v)).signQ_mul (decide (v < 0))
  rwa [← eq_signQ_mul_quanta, ← mul_assoc, add_comm] at this

/-! ### The sum of the low components, rounded to odd (rule R169) -/

/-- The high part of the sum pair is the sum rounded once. -/
theorem ddAdd_fst_eq_roundRNE {a b : Word} {c d : ℚ} (ha : HasVal a c) (hb : HasVal b d) (hne : c + d ≠ 0) :
    (ddAdd a b).1 = roundRNE (c + d) := by
  obtain ⟨hfa, rfl⟩ := ha
  obtain ⟨hfb, rfl⟩ := hb
  exact fadd_eq_roundRNE hfa hfb hne

/-- The rounded-to-odd sum stands in the exact sum's cell of twice its quantum, and is the exact sum where that has 53
bits. -/
theorem hasVal_ddAddAdjusted {a b : Word} {c d : ℚ} (ha : HasVal a c) (hb : HasVal b d) (hc : |c| * 2 ≤ safeBound)
    (hd : |d| * 2 ≤ safeBound) (hsum : |c + d| < safeBound) :
    ∃ v, HasVal (ddAddAdjusted a b) v ∧ SameCell (quantumAt (c + d) + 1) (c + d) v ∧
      (Representable (c + d) → v = c + d) := by
  obtain ⟨hhi, hlo⟩ := hasVal_ddAdd ha hb hc hd
  unfold ddAddAdjusted
  dsimp only
  by_cases hr : Representable (c + d)
  · rw [rnd_of_representable hr] at hhi hlo
    rw [hlo.isZero_iff.mpr (sub_self _)]
    exact ⟨c + d, hhi, .refl _ _, fun _ => rfl⟩
  have h : Inexact (c + d) := inexact_of_add ha hb hsum hr
  have hrnd := ddAdd_fst_eq_roundRNE ha hb h.ne_zero
  obtain ⟨-, -, hnear, hparity⟩ := otherNeighbour_spec h.le_quanta (quanta_lt _) h.quanta_ne
  rw [hlo.isZero_eq_false h.sub_rnd_ne_zero, hrnd, h.getLsbD_roundRNE]
  by_cases hodd : nearestEven (quanta (c + d)) % 2 = 1
  · have hn := abs_sub_nearestEven_lt_one (quanta_nonneg (c + d))
    exact ⟨_, by simpa [hodd] using h.hasVal_roundRNE, sameCell_oddNeighbour hodd hn, fun hr' => absurd hr' hr⟩
  · have hother := Nat.mod_two_ne_zero.mp (Nat.mod_two_ne_one.mp hodd ▸ hparity)
    refine ⟨_, ?_, sameCell_oddNeighbour hother hnear, fun hr' => absurd hr' hr⟩
    simpa [hodd, h.stepToward_roundRNE hlo] using h.hasVal_packRounded (.inr rfl)

/-! ### The fold and the scaling (rule R170) -/

/-- The bits of the rounded sum that the scaling drops, `d` of them from the unit of `t`, as the fold counts them: after
a carry into the next binade it counts one less. -/
def lostBits (t : ℚ) (d : ℤ) : ℤ := if nearestEven t < 2 ^ 53 then d else d - 1

/-- The neighbour of `t` that the fold keeps: with two or more lost bits the odd one, with one the even one, and the
nearest one where none is lost. -/
def foldNeighbour (t : ℚ) (d : ℤ) : ℕ :=
  if 1 ≤ lostBits t d ∧ ((2 ≤ lostBits t d ∧ nearestEven t % 2 = 0) ∨ (lostBits t d = 1 ∧ nearestEven t % 2 = 1))
  then otherNeighbour t else nearestEven t

theorem foldNeighbour_of_lost_nonpos {t : ℚ} {d : ℤ} (h : lostBits t d ≤ 0) : foldNeighbour t d = nearestEven t :=
  if_neg fun hlost => absurd (hlost.1.trans h) (by norm_num)

theorem foldNeighbour_of_nonpos {t : ℚ} {d : ℤ} (hd : d ≤ 0) : foldNeighbour t d = nearestEven t := by
  apply foldNeighbour_of_lost_nonpos
  rw [lostBits]
  split <;> omega

theorem foldNeighbour_even {t : ℚ} {d : ℤ} (hpar : otherNeighbour t % 2 ≠ nearestEven t % 2) (h : lostBits t d = 1) :
    foldNeighbour t d % 2 = 0 := by
  simp only [foldNeighbour, h, le_refl, true_and, Int.reduceLE, false_and, false_or]
  split
  · next hodd => exact Nat.mod_two_ne_one.mp (hodd ▸ hpar)
  · next heven => exact Nat.mod_two_ne_one.mp heven

theorem foldNeighbour_odd {t : ℚ} {d : ℤ} (hpar : otherNeighbour t % 2 ≠ nearestEven t % 2) (h : 2 ≤ lostBits t d) :
    foldNeighbour t d % 2 = 1 := by
  have h1 : 1 ≤ lostBits t d := le_trans (by norm_num) h
  have hne : lostBits t d ≠ 1 := (lt_of_lt_of_le (by norm_num) h).ne'
  simp only [foldNeighbour, h, h1, hne, true_and, false_and, or_false]
  split
  · next heven => exact Nat.mod_two_ne_zero.mp (heven ▸ hpar)
  · next hodd => exact Nat.mod_two_ne_zero.mp hodd

theorem foldNeighbour_eq_or (t : ℚ) (d : ℤ) :
    foldNeighbour t d = nearestEven t ∨ foldNeighbour t d = otherNeighbour t := by
  rw [foldNeighbour]
  exact (ite_eq_or_eq _ _ _).symm

theorem foldNeighbour_bounds {t : ℚ} (hlo : 2 ^ 52 ≤ t) (hup : t < 2 ^ 53) (hne : t ≠ nearestEven t) (d : ℤ) :
    (0 : ℚ) < foldNeighbour t d ∧ (foldNeighbour t d : ℚ) ≤ 2 ^ 53 := by
  have hfold : 2 ^ 52 ≤ foldNeighbour t d ∧ foldNeighbour t d ≤ 2 ^ 53 := by
    obtain h | h := foldNeighbour_eq_or t d
    · rw [h]
      exact nearestEven_bounds hlo hup
    · obtain ⟨hlo', hup', -⟩ := otherNeighbour_spec hlo hup hne
      rw [h]
      exact ⟨hlo', hup'⟩
  exact ⟨Nat.cast_pos.mpr (lt_of_lt_of_le (by norm_num) hfold.1), by exact_mod_cast hfold.2⟩

/-- Dropping two or more bits, an odd neighbour is rounded as its value is. -/
theorem nearestEven_div_of_odd {t : ℚ} {m d : ℕ} (ht : 0 ≤ t) (hm : m % 2 = 1) (hlt : |t - m| < 1) (hd : 2 ≤ d) :
    nearestEven (m / 2 ^ d) = nearestEven (t / 2 ^ d) := by
  have hcell := ((sameCell_of_abs_sub_lt_one hm hlt).scale (-d)).mono (show 1 + -(d : ℤ) ≤ -1 by omega)
  rw [zpow_neg, zpow_natCast, ← div_eq_mul_inv, ← div_eq_mul_inv] at hcell
  exact (nearestEven_congr (by positivity) hcell).symm

/-- Dropping the bits of a multiple of their weight, values within half that weight are rounded as it is. -/
theorem nearestEven_div_of_dvd {t : ℚ} {k d : ℕ} (ht : 0 ≤ t) (hlt : |t - (2 ^ d * k : ℕ)| * 2 < 2 ^ d) :
    nearestEven ((2 ^ d * k : ℕ) / 2 ^ d) = nearestEven (t / 2 ^ d) := by
  have hpos : (0 : ℚ) < 2 ^ d := by positivity
  have hk : ((2 ^ d * k : ℕ) : ℚ) / 2 ^ d = k := by
    rw [Nat.cast_mul, Nat.cast_pow, Nat.cast_two, mul_div_cancel_left₀ _ hpos.ne']
  rw [hk, nearestEven_natCast, nearestEven_eq_of_abs_lt (by positivity)]
  rw [← hk, ← sub_div, abs_div, abs_of_pos hpos, div_lt_div_iff₀ hpos two_pos, one_mul]
  exact hlt

theorem abs_sub_foldNeighbour_lt_one {t : ℚ} (hlo : 2 ^ 52 ≤ t) (hup : t < 2 ^ 53) (hne : t ≠ nearestEven t) (d : ℤ) :
    |t - foldNeighbour t d| < 1 := by
  obtain h | h := foldNeighbour_eq_or t d
  · rw [h]
    exact abs_sub_nearestEven_lt_one (pos_of_two_pow_le hlo).le
  · rw [h]
    exact (otherNeighbour_spec hlo hup hne).2.2.1

/-- Dropping one bit, an even neighbour is rounded as its value is. -/
theorem nearestEven_div_of_even {t : ℚ} {m : ℕ} (ht : 0 ≤ t) (hm : m % 2 = 0) (hlt : |t - m| < 1) :
    nearestEven (m / 2 ^ 1) = nearestEven (t / 2 ^ 1) := by
  obtain ⟨k, rfl⟩ : ∃ k, m = 2 ^ 1 * k := ⟨m / 2, by omega⟩
  exact nearestEven_div_of_dvd ht ((mul_lt_mul_of_pos_right hlt two_pos).trans_eq (by norm_num))

/-- The fold's neighbour is rounded as the value is, whatever number of bits is dropped. -/
theorem nearestEven_foldNeighbour {t : ℚ} {d : ℕ} (hlo : 2 ^ 52 ≤ t) (hup : t < 2 ^ 53) (hne : t ≠ nearestEven t)
    (hd : 1 ≤ d) : nearestEven (foldNeighbour t d / 2 ^ d) = nearestEven (t / 2 ^ d) := by
  have ht := (pos_of_two_pow_le hlo).le
  obtain ⟨-, -, -, hpar⟩ := otherNeighbour_spec hlo hup hne
  have hfar := abs_sub_foldNeighbour_lt_one hlo hup hne d
  by_cases hcarry : nearestEven t < 2 ^ 53
  · have hlost : lostBits t d = d := if_pos hcarry
    obtain rfl | hd2 : d = 1 ∨ 2 ≤ d := by omega
    · exact nearestEven_div_of_even ht (foldNeighbour_even hpar hlost) hfar
    · exact nearestEven_div_of_odd ht (foldNeighbour_odd hpar (by rw [hlost]; exact_mod_cast hd2)) hfar hd2
  · have hn : nearestEven t = 2 ^ 53 := le_antisymm (nearestEven_bounds hlo hup).2 (not_lt.mp hcarry)
    have hlost : lostBits t d = d - 1 := if_neg hcarry
    have hn0 : nearestEven t % 2 = 0 := by rw [hn]; norm_num
    obtain rfl | rfl | hd3 : d = 1 ∨ d = 2 ∨ 3 ≤ d := by omega
    · have hfold : foldNeighbour t (1 : ℕ) = nearestEven t := foldNeighbour_of_lost_nonpos hlost.le
      exact nearestEven_div_of_even ht (by rw [hfold, hn0]) hfar
    · have heven := foldNeighbour_even hpar hlost
      have hfold : foldNeighbour t (2 : ℕ) = 2 ^ 2 * 2 ^ 51 :=
        ((foldNeighbour_eq_or t _).resolve_right fun h => hpar (by rw [← h, heven, hn0])).trans hn
      have hnear := (nearestEven_spec ht).1
      rw [hn] at hnear
      rw [hfold]
      exact nearestEven_div_of_dvd ht ((mul_le_mul_of_nonneg_right hnear zero_le_two).trans_lt (by norm_num))
    · exact nearestEven_div_of_odd ht (foldNeighbour_odd hpar (by omega)) hfar (by omega)

theorem quantumAt_mul_zpow {t : ℚ} {e : ℤ} (hlo : 2 ^ 52 ≤ t) (hup : t < 2 ^ 53) (he : -1074 ≤ e) :
    quantumAt (t * (2 : ℚ) ^ e) = e := by
  have hpos := two_zpow_pos e
  have ht := pos_of_two_pow_le hlo
  apply quantumAt_eq (by positivity) he
  · rw [abs_of_pos (by positivity), two_zpow_add, mul_comm]
    gcongr
    exact hup
  · intro
    rw [abs_of_pos (by positivity), two_zpow_add, mul_comm]
    gcongr
    exact hlo

/-- In the normal range scaling and rounding commute; the carry into the next binade packs as the same number. -/
theorem roundRNE_nearestEven_scale {t : ℚ} {e : ℤ} (s : Bool) (hlo : 2 ^ 52 ≤ t) (hup : t < 2 ^ 53) (he : -1074 ≤ e) :
    roundRNE (signQ s * (nearestEven t * 2 ^ e)) = roundRNE (signQ s * (t * 2 ^ e)) := by
  have hpos := two_zpow_pos e
  have ht := pos_of_two_pow_le hlo
  obtain ⟨hn, hn'⟩ := nearestEven_bounds hlo hup
  have hnQ : (2 : ℚ) ^ 52 ≤ nearestEven t := by exact_mod_cast hn
  have hn0 := pos_of_two_pow_le hnQ
  apply BitVec.eq_of_toNat_eq
  rw [toNat_roundRNE_signQ (mul_pos ht hpos), toNat_roundRNE_signQ (mul_pos hn0 hpos), quantumAt_mul_zpow hlo hup he,
    mul_div_cancel_right₀ _ hpos.ne']
  obtain hlt | hcarry := lt_or_eq_of_le hn'
  · rw [quantumAt_mul_zpow hnQ (by exact_mod_cast hlt) he, mul_div_cancel_right₀ _ hpos.ne', nearestEven_natCast]
  · have hnext : (nearestEven t : ℚ) * 2 ^ e = ((2 ^ 52 : ℕ) : ℚ) * 2 ^ (e + 1) := by
      rw [hcarry, zpow_add_one₀ two_ne_zero, mul_comm _ (2 : ℚ), ← mul_assoc]
      norm_num
    rw [hnext, quantumAt_mul_zpow (by norm_num) (by norm_num) (by omega), mul_div_cancel_right₀ _ (two_zpow_pos _).ne',
      nearestEven_natCast, hcarry, show (e + 1 + 1074).toNat = (e + 1074).toNat + 1 by omega, Nat.succ_mul, add_assoc]
    rfl

/-- Below the normal range two magnitudes that round alike with `d` bits dropped are scaled to the same pattern. -/
theorem roundRNE_scale_subnormal {t u : ℚ} {d : ℕ} (s : Bool) (ht : 0 < t) (ht' : t ≤ 2 ^ 53) (hu : 0 < u)
    (hu' : u ≤ 2 ^ 53) (hd : 1 ≤ d) (h : nearestEven (t / 2 ^ d) = nearestEven (u / 2 ^ d)) :
    roundRNE (signQ s * (t * 2 ^ (-1074 - d : ℤ))) = roundRNE (signQ s * (u * 2 ^ (-1074 - d : ℤ))) := by
  have hpos := two_zpow_pos (-1074 - d)
  have hquantum {w : ℚ} (hw : 0 < w) (hw' : w ≤ 2 ^ 53) : quantumAt (w * 2 ^ (-1074 - d : ℤ)) = -1074 := by
    refine quantumAt_eq (by positivity) le_rfl ?_ (by simp)
    calc |w * (2 : ℚ) ^ (-1074 - d : ℤ)| = w * 2 ^ (-1074 - d : ℤ) := abs_of_pos (by positivity)
      _ ≤ 2 ^ 53 * 2 ^ (-1074 - d : ℤ) := by gcongr
      _ = (2 : ℚ) ^ (-1074 - d + 53 : ℤ) := by rw [two_zpow_add, mul_comm]; rfl
      _ < _ := two_zpow_lt (by omega)
  have hratio (w : ℚ) : w * 2 ^ (-1074 - d : ℤ) / 2 ^ (-1074 : ℤ) = w / 2 ^ d := by
    rw [two_zpow_sub_natCast, mul_div_assoc, div_right_comm, div_self (two_zpow_pos _).ne', mul_one_div]
  apply BitVec.eq_of_toNat_eq
  rw [toNat_roundRNE_signQ (mul_pos ht hpos), toNat_roundRNE_signQ (mul_pos hu hpos), hquantum ht ht', hquantum hu hu',
    hratio, hratio, h]

/-- The fold's neighbour, scaled, is rounded as the scaled value is. -/
theorem roundRNE_foldNeighbour {t : ℚ} (e : ℤ) (s : Bool) (hlo : 2 ^ 52 ≤ t) (hup : t < 2 ^ 53)
    (hne : t ≠ nearestEven t) :
    roundRNE (signQ s * (foldNeighbour t (-1074 - e) * 2 ^ e)) = roundRNE (signQ s * (t * 2 ^ e)) := by
  obtain he | he := le_or_gt (-1074) e
  · rw [foldNeighbour_of_nonpos (by omega)]
    exact roundRNE_nearestEven_scale s hlo hup he
  · obtain ⟨d, hd⟩ := Int.eq_ofNat_of_zero_le (show 0 ≤ -1074 - e by omega)
    obtain rfl : e = -1074 - d := by omega
    obtain ⟨hm, hm'⟩ := foldNeighbour_bounds hlo hup hne (-1074 - (-1074 - d : ℤ))
    rw [hd] at hm hm' ⊢
    exact roundRNE_scale_subnormal s hm hm' (pos_of_two_pow_le hlo) hup.le (by omega)
      (nearestEven_foldNeighbour hlo hup hne (by omega))

/-- The pattern that rule R170 scales is that of the fold's neighbour. -/
theorem Inexact.foldPattern {v : ℚ} (h : Inexact v) (scale : ℤ) {lo : Word} (hlo : HasVal lo (v - rnd v)) :
    (if 1 - ((expf (roundRNE v)).toNat : ℤ) - scale ≥ 1 ∧ isZero lo = false ∧
        ((1 - ((expf (roundRNE v)).toNat : ℤ) - scale ≥ 2 ∧ (roundRNE v).getLsbD 0 = false) ∨
          (1 - ((expf (roundRNE v)).toNat : ℤ) - scale = 1 ∧ (roundRNE v).getLsbD 0 = true))
      then stepToward (roundRNE v) lo else roundRNE v) =
    packRounded (decide (v < 0)) (foldNeighbour (quanta v) (-1074 - (quantumAt v + scale))) (quantumAt v) := by
  have hlost : 1 - ((expf (roundRNE v)).toNat : ℤ) - scale =
      if nearestEven (quanta v) < 2 ^ 53 then -1074 - (quantumAt v + scale) else -1074 - (quantumAt v + scale) - 1 := by
    rw [h.toNat_expf_roundRNE]
    split <;> ring
  rw [hlost, hlo.isZero_eq_false h.sub_rnd_ne_zero, h.getLsbD_roundRNE, h.stepToward_roundRNE hlo, foldNeighbour,
    apply_ite (packRounded (decide (v < 0)) · (quantumAt v))]
  simp only [ge_iff_le, true_and, decide_eq_true_eq, decide_eq_false_iff_not, Nat.mod_two_ne_one]
  rfl

/-- The fold with the scaling rounds the exact sum once (rule R170). -/
theorem ddRoundScale_eq_roundRNE {a b : Word} {c d : ℚ} (scale : ℤ) (ha : HasVal a c) (hb : HasVal b d)
    (hc : |c| * 2 ≤ safeBound) (hd : |d| * 2 ≤ safeBound) (hsum : |c + d| < safeBound) (hne : c + d ≠ 0) :
    ddRoundScale a b scale = roundRNE ((c + d) * 2 ^ scale) := by
  obtain ⟨hhi, hlo⟩ := hasVal_ddAdd ha hb hc hd
  have hrnd := ddAdd_fst_eq_roundRNE ha hb hne
  unfold ddRoundScale
  dsimp only
  by_cases hr : Representable (c + d)
  · rw [rnd_of_representable hr] at hhi hlo
    rw [hlo.isZero_iff.mpr (sub_self _), if_neg (by simp),
      ddScale_eq_roundRNE scale hhi.1 (hhi.isZero_eq_false hne), hhi.2]
  have h : Inexact (c + d) := inexact_of_add ha hb hsum hr
  have hfold := h.foldPattern scale hlo
  have hval := h.hasVal_packRounded (foldNeighbour_eq_or (quanta (c + d)) (-1074 - (quantumAt (c + d) + scale)))
  obtain ⟨hm, -⟩ := foldNeighbour_bounds h.le_quanta (quanta_lt _) h.quanta_ne (-1074 - (quantumAt (c + d) + scale))
  have hval0 : signQ (decide (c + d < 0)) * foldNeighbour (quanta (c + d)) (-1074 - (quantumAt (c + d) + scale)) *
      2 ^ quantumAt (c + d) ≠ 0 :=
    mul_ne_zero (mul_ne_zero (signQ_ne_zero _) hm.ne') (two_zpow_pos _).ne'
  rw [hrnd, hfold, ddScale_eq_roundRNE scale hval.1 (hval.isZero_eq_false hval0), hval.2, mul_assoc, mul_assoc,
    ← two_zpow_add, roundRNE_foldNeighbour _ _ h.le_quanta (quanta_lt _) h.quanta_ne, two_zpow_add,
    ← mul_assoc _ _ (2 ^ scale), ← mul_assoc, ← eq_signQ_mul_quanta]

end Sys2Proof.Machine
end

section
/-! PROOFS. The arithmetic of the double-double path on the significands (spec/42_fma_double_double_path.md rules R166
to R170): where the sum of the high components is rounded at all it is so large that the low components, rounded to odd,
stand in a cell far finer than its quantum, so that the last fold rounds the exact sum once. -/

namespace Sys2Proof.Machine

theorem two_pow_mul_two_le_safeBound : (2 : ℚ) ^ 60 * 2 ≤ safeBound :=
  (two_zpow_le_safeBound (show (61 : ℤ) ≤ 1023 by norm_num)).trans' (by norm_num)

theorem mul_two_le_safeBound {v : ℚ} (h : |v| ≤ 2 ^ 60) : |v| * 2 ≤ safeBound :=
  (mul_le_mul_of_nonneg_right h zero_le_two).trans two_pow_mul_two_le_safeBound

theorem lt_safeBound {v : ℚ} (h : |v| ≤ 2 ^ 60) : |v| < safeBound :=
  h.trans_lt (two_pow_mul_two_le_safeBound.trans_lt' (by norm_num))

theorem rnd_eq_zero_iff {v : ℚ} (h : OnGrid (-1074) v) : rnd v = 0 ↔ v = 0 := by
  refine ⟨fun h0 => ?_, fun h0 => by rw [h0, rnd_zero]⟩
  by_contra hv
  have := le_abs_rnd (representable_zpow le_rfl) (h.le_abs hv)
  rw [h0, abs_zero] at this
  exact absurd this (not_le.mpr (two_zpow_pos _))

/-- When the fold cancels, so does the exact sum: the result is `+0` (rule R168). -/
theorem ddRoundScale_of_cancel {a b : Word} {c d : ℚ} (scale : ℤ) (ha : HasVal a c) (hb : HasVal b d)
    (hc : |c| * 2 ≤ safeBound) (hd : |d| * 2 ≤ safeBound) (hne : c ≠ 0) (hsum : c + d = 0) :
    ddRoundScale a b scale = zero false := by
  obtain ⟨-, hlo⟩ := hasVal_ddAdd ha hb hc hd
  rw [hsum, rnd_zero, sub_zero] at hlo
  have hhi : (ddAdd a b).1 = zero false := by
    change fadd a b = zero false
    have hab : val a + val b = 0 := by rw [ha.2, hb.2, hsum]
    simp [fadd_eq, isNan_of_isFinite, isInf_of_isFinite, ha.1, hb.1, hab, ha.isZero_eq_false hne]
  unfold ddRoundScale
  dsimp only
  rw [hlo.isZero_iff.mpr rfl, if_neg (by simp), hhi, ddScale_eq, if_pos (.inl (isZero_zero false))]

/-- With the low components rounded to odd the three-term sum stays in a cell far finer than its quantum: the sum of the
high components is at least 1/16, so that its quantum is far above those of the low ones. -/
theorem sameCell_low_rounding {w l v : ℚ} (hw : 1 / 16 ≤ |w|) (hl : |l| ≤ (2 : ℚ) ^ (-53 : ℤ)) (hne : w - rnd w + l ≠ 0)
    (hcell : SameCell (quantumAt (w - rnd w + l) + 1) (w - rnd w + l) v) :
    ∃ e : ℤ, SameCell (e - 98) (w + l) (rnd w + v) ∧ (2 : ℚ) ^ e ≤ |w + l| := by
  have hq : -56 ≤ quantumAt w := le_quantumAt (hw.trans_eq' (by norm_num [zpow_neg]))
  have hw0 : w ≠ 0 := abs_pos.mp (lt_of_lt_of_le (by norm_num) hw)
  have hlow : |l| ≤ (2 : ℚ) ^ (quantumAt w + 3) := hl.trans (two_zpow_le (by omega))
  have herr : |w - rnd w| ≤ (2 : ℚ) ^ (quantumAt w + 3) := (abs_sub_rnd_le w).trans (two_zpow_le (by omega))
  have hu : |w - rnd w + l| ≤ (2 : ℚ) ^ (quantumAt w + 3 + 1) := by
    rw [two_zpow_succ, mul_two]
    exact (abs_add_le _ _).trans (add_le_add herr hlow)
  have hqu := quantumAt_le (q := quantumAt w - 48) hne (by omega) (hu.trans_lt (two_zpow_lt (by omega)))
  refine ⟨quantumAt w + 51, ?_, ?_⟩
  · have := (hcell.mono (show _ ≤ quantumAt w - 47 by omega)).add ((onGrid_rnd_quantumAt w).mono (by omega))
    rw [← add_assoc, add_sub_cancel] at this
    exact this.mono (by omega)
  · have hbin := le_abs_of_quantumAt hw0 (by omega)
    rw [show quantumAt w + 52 = quantumAt w + 51 + 1 by ring, two_zpow_succ, mul_two] at hbin
    have hlow : |l| ≤ (2 : ℚ) ^ (quantumAt w + 51) := hlow.trans (two_zpow_le (by omega))
    have := abs_sub (w + l) l
    rw [add_sub_cancel_right] at this
    exact le_of_add_le_add_right (hbin.trans (this.trans (add_le_add_right hlow _)))

theorem roundRNE_scale_congr {g e : ℤ} {v w : ℚ} (scale : ℤ) (h : SameCell g v w) (hv : (2 : ℚ) ^ e ≤ |v|)
    (hg : g + 53 ≤ e) : roundRNE (v * 2 ^ scale) = roundRNE (w * 2 ^ scale) := by
  refine roundRNE_congr_of_le (h.scale scale) (e := e + scale) ?_ (by omega)
  rw [two_zpow_add, abs_mul, abs_of_pos (two_zpow_pos scale)]
  gcongr

/-- The rounded-to-odd low part in place of the exact one changes neither whether the sum is zero nor its rounding. -/
theorem adjusted_congr {w l v : ℚ} (scale : ℤ) (hl : |l| ≤ (2 : ℚ) ^ (-53 : ℤ))
    (hbig : ¬ Representable w → 1 / 16 ≤ |w|) (hlrep : Representable l)
    (hcell : SameCell (quantumAt (w - rnd w + l) + 1) (w - rnd w + l) v)
    (hexact : Representable (w - rnd w + l) → v = w - rnd w + l) :
    (rnd w + v = 0 ↔ w + l = 0) ∧ roundRNE ((rnd w + v) * 2 ^ scale) = roundRNE ((w + l) * 2 ^ scale) := by
  by_cases hr : Representable (w - rnd w + l)
  · rw [hexact hr, ← add_assoc, add_sub_cancel]
    exact ⟨Iff.rfl, rfl⟩
  have hw : ¬ Representable w := fun hw => hr (by rwa [rnd_of_representable hw, sub_self, zero_add])
  obtain ⟨e, hcell', he⟩ :=
    sameCell_low_rounding (hbig hw) hl (ne_zero_of_not_representable hr) hcell
  exact ⟨(hcell'.eq_iff (onGrid_zero _)).symm, (roundRNE_scale_congr scale hcell' he (by omega)).symm⟩

/-- The last two steps of the path round the three-term sum once (rules R169 and R170). -/
theorem ddRoundScale_adjusted {rh rl xyl : Word} {w l : ℚ} (scale : ℤ) (hrh : HasVal rh (rnd w))
    (hrl : HasVal rl (w - rnd w)) (hxyl : HasVal xyl l) (hw : |w| ≤ 2 ^ 56) (hl : |l| ≤ (2 : ℚ) ^ (-53 : ℤ))
    (hne : rnd w ≠ 0) (hbig : ¬ Representable w → 1 / 16 ≤ |w|) :
    ddRoundScale rh (ddAddAdjusted rl xyl) scale =
      if w + l = 0 then zero false else roundRNE ((w + l) * 2 ^ scale) := by
  have herr : |w - rnd w| ≤ 2 ^ 56 := by
    have := abs_sub_rnd_le_abs_sub (v := w) representable_zero
    rw [sub_zero] at this
    exact this.trans hw
  have hrnd : |rnd w| ≤ 2 ^ 56 := abs_rnd_le (by exact_mod_cast representable_zpow (k := 56) (by norm_num)) hw
  have hl1 : |l| ≤ 1 := hl.trans (by norm_num [zpow_neg])
  have hu : |w - rnd w + l| ≤ 2 ^ 57 :=
    (abs_add_le _ _).trans ((add_le_add herr hl1).trans (by norm_num))
  obtain ⟨v, hadj, hcell, hexact⟩ := hasVal_ddAddAdjusted hrl hxyl (mul_two_le_safeBound (herr.trans (by norm_num)))
    (mul_two_le_safeBound (hl1.trans (by norm_num))) (lt_safeBound (hu.trans (by norm_num)))
  have hv : |v| ≤ 2 ^ 58 := by
    by_cases hr : Representable (w - rnd w + l)
    · rw [hexact hr]
      exact hu.trans (by norm_num)
    · have hlt : |w - rnd w + l| < (2 : ℚ) ^ ((5 : ℤ) + 53) := hu.trans_lt (by norm_num)
      have hq := quantumAt_le (ne_zero_of_not_representable hr) (by norm_num) hlt
      exact_mod_cast ((hcell.abs.lt_iff (onGrid_zpow (by omega))).mp hlt).le
  have hsum : |rnd w + v| ≤ 2 ^ 60 := (abs_add_le _ _).trans ((add_le_add hrnd hv).trans (by norm_num))
  obtain ⟨hzero, hround⟩ := adjusted_congr scale hl hbig hxyl.representable hcell hexact
  have hrnd2 := mul_two_le_safeBound (hrnd.trans (by norm_num))
  have hv2 := mul_two_le_safeBound (hv.trans (by norm_num))
  split_ifs with h0
  · exact ddRoundScale_of_cancel scale hrh hadj hrnd2 hv2 hne (hzero.mpr h0)
  · rw [← hround]
    exact ddRoundScale_eq_roundRNE scale hrh hadj hrnd2 hv2 (lt_safeBound hsum) (mt hzero.mp h0)

/-- A rescaled or clamped addend: no larger than 1/16, or with no bit below `2^(-56)`. -/
structure IsAddend (z : ℚ) : Prop where
  le : |z| ≤ (2 : ℚ) ^ (54 : ℤ)
  small_or_grid : |z| ≤ 1 / 16 ∨ OnGrid (-56) z

/-- A sum of the product's high part and the addend that is rounded at all has not been cancelled. -/
theorem IsAddend.le_abs_add {v h l z : ℚ} (hz : IsAddend z) (hp : IsProductPair v h l) (hr : ¬ Representable (h + z)) :
    1 / 16 ≤ |h + z| := by
  obtain hsmall | hgrid := hz.small_or_grid
  · have := abs_sub (h + z) z
    rw [add_sub_cancel_right] at this
    exact le_of_add_le_add_right
      ((hp.high_ge.trans (this.trans (add_le_add_right hsmall _))).trans' (by norm_num))
  · have := ((hp.high_grid.mono (by norm_num)).add hgrid).lt_abs_of_not_representable (by norm_num) hr
    exact this.le.trans' (by norm_num [zpow_neg])

/-- The arithmetic on the significands rounds the exact sum once, or gives `+0` for an exact cancellation. -/
theorem ddCombine_eq {xs ys zs : Word} {c d z : ℚ} (scale : ℤ) (hx : HasVal xs c) (hc : 1 / 2 ≤ |c|) (hc' : |c| < 1)
    (hy : HasVal ys d) (hd : 1 / 2 ≤ |d|) (hd' : |d| < 1) (hz : HasVal zs z) (haz : IsAddend z) :
    ddCombine xs ys zs scale = if c * d + z = 0 then zero false else roundRNE ((c * d + z) * 2 ^ scale) := by
  obtain ⟨h, l, hh, hl, hp⟩ := hasVal_ddMul hx hc hc' hy hd hd'
  have hh60 : |h| ≤ 2 ^ 60 := hp.high_le.trans (by norm_num)
  have hz60 : |z| ≤ 2 ^ 60 := haz.le.trans (by norm_num)
  have hl1 : |l| ≤ 1 := hp.low_le.trans (by norm_num [zpow_neg])
  have hl60 : |l| ≤ 2 ^ 60 := hl1.trans (by norm_num)
  obtain ⟨hrh, hrl⟩ := hasVal_ddAdd hh hz (mul_two_le_safeBound hh60) (mul_two_le_safeBound hz60)
  have hsum : c * d + z = h + z + l := by rw [← hp.add]; ring
  have hunits := hh.representable.onGrid_units.add hz.representable.onGrid_units
  rw [hsum]
  unfold ddCombine
  dsimp only
  by_cases hw : h + z = 0
  · rw [hw, rnd_zero] at hrh
    rw [hrh.isZero_iff.mpr rfl, if_pos rfl, hw, zero_add]
    by_cases hl0 : l = 0
    · rw [if_pos (hl.isZero_iff.mpr hl0), if_pos hl0]
    · have hlz := hl.isZero_eq_false hl0
      rw [if_neg (by simp [hlz]), if_neg hl0, ddScale_eq_roundRNE scale hl.1 hlz, hl.2]
  have hrh0 : rnd (h + z) ≠ 0 := mt (rnd_eq_zero_iff hunits).mp hw
  rw [hrh.isZero_eq_false hrh0, if_neg Bool.false_ne_true]
  have hw60 : |h + z| ≤ 2 ^ 56 := (abs_add_le h z).trans ((add_le_add hp.high_le haz.le).trans (by norm_num))
  exact ddRoundScale_adjusted scale hrh hrl hl hw60 hp.low_le hrh0 fun hr => haz.le_abs_add hp hr

end Sys2Proof.Machine
end

section
/-! PROOFS. `FMA.DD` meets the contract (spec/42_fma_double_double_path.md rule R150): the early-outs are the rows S1 to
S7, a product far below the addend cannot move it (rule R164), and past them the arithmetic on the significands, with
the addend rescaled or clamped, rounds the exact value once. -/

namespace Sys2Proof.Machine

/-! ### The early-outs (rule R161) -/

theorem fadd_of_isNan {a b : Word} (h : isNan a = true ∨ isNan b = true) : fadd a b = qnan := by
  rw [fadd_eq, if_pos h]

theorem fmul_of_isNan {a b : Word} (h : isNan a = true ∨ isNan b = true) : fmul a b = qnan := by
  rw [fmul_eq, if_pos h]

theorem fmaContract_of_isNan {x y z : Word} (h : (isNan x || isNan y || isNan z) = true) : fmaContract x y z = qnan :=
  fmaContract_of_some (by rw [specialRow, if_pos h])

/-- Addition of a signed zero: the other addend, or the zero of both signs. -/
theorem fadd_zero_left_eq (s : Bool) {z : Word} (hz : isNan z = false) :
    fadd (zero s) z = if isZero z = true then zero (s && sign z) else z := by
  rw [fadd_eq, if_neg (by simp [hz]), if_neg (by simp)]
  by_cases hinf : isInf z = true
  · rw [if_pos hinf, if_neg (by simp [isZero_of_isInf hinf])]
  rw [if_neg hinf, val_zero, zero_add]
  by_cases h0 : isZero z = true
  · simp [h0, (val_eq_zero_iff z).mpr h0]
  · have hfin : isFinite z = true := by simp [isFinite_eq, hz, hinf]
    rw [if_neg (mt (val_eq_zero_iff z).mp h0), if_neg h0, roundRNE_val hfin (Bool.eq_false_iff.mpr h0)]

/-- Rows S1 and S2: a NaN operand, or infinity times zero. -/
theorem fmaContract_of_invalid {x y z : Word} (hx : isNan x = false) (hy : isNan y = false) (hz : isNan z = false)
    (hinf : isInf x = true ∨ isInf y = true) (h0 : isZero x = true ∨ isZero y = true) : fmaContract x y z = qnan := by
  have hrow : (isInf x && isZero y || isZero x && isInf y) = true := by
    obtain h | h := hinf
    · simpa [isZero_of_isInf h, h] using h0
    · simpa [isZero_of_isInf h, h] using h0
  exact fmaContract_of_some (by rw [specialRow, if_neg (by simp [hx, hy, hz]), if_pos hrow])

/-- Rows S3 and S4: an infinite product. -/
theorem fmaContract_of_infinite_product {x y z : Word} (hx : isNan x = false) (hy : isNan y = false)
    (hz : isNan z = false) (hinf : isInf x = true ∨ isInf y = true) (hx0 : isZero x = false) (hy0 : isZero y = false) :
    fmaContract x y z = if isInf z = true ∧ (sign x ^^ sign y) ≠ sign z then qnan else inf (sign x ^^ sign y) := by
  have hinf : (isInf x || isInf y) = true := (Bool.or_eq_true _ _).mpr hinf
  by_cases h : isInf z = true ∧ (sign x ^^ sign y) ≠ sign z
  · rw [if_pos h]
    exact fmaContract_of_some (by simp [specialRow, hx, hy, hz, hinf, hx0, hy0, h.1, bne_iff_ne.mpr h.2.symm])
  · rw [if_neg h]
    refine fmaContract_of_some ?_
    have : (isInf z && (sign z != (sign x ^^ sign y))) = false := by
      rw [Bool.eq_false_iff, ne_eq, Bool.and_eq_true, bne_iff_ne]
      exact fun h' => h ⟨h'.1, h'.2.symm⟩
    simp [specialRow, hx, hy, hz, hinf, hx0, hy0, this]

/-- Rows S5 to S7 with a zero product: the addend, or the zero of both signs. -/
theorem fmaContract_of_zero_product {x y z : Word} (hx : isFinite x = true) (hy : isFinite y = true)
    (hz : isNan z = false) (h0 : isZero x = true ∨ isZero y = true) :
    fmaContract x y z = if isZero z = true then zero ((sign x ^^ sign y) && sign z) else z := by
  by_cases hinf : isInf z = true
  · rw [if_neg (by simp [isZero_of_isInf hinf])]
    exact fmaContract_of_some (by simp [specialRow, isNan_of_isFinite, isInf_of_isFinite, hx, hy, hz, hinf])
  by_cases hz0 : isZero z = true
  · rw [if_pos hz0]
    exact fmaContract_of_some (specialRow_of_zeros hx hy h0 hz0)
  · rw [if_neg hz0]
    exact fmaContract_of_some (by simp [specialRow, isNan_of_isFinite, isInf_of_isFinite, hx, hy, hz, hinf, hz0, h0])

/-- The plain multiply-add gives the contract's result when a multiplicand is zero or not finite (rule R161 (a) and
(c)). -/
theorem fadd_fmul_eq_fmaContract {x y z : Word}
    (h : isZero x = true ∨ isZero y = true ∨ isFinite x = false ∨ isFinite y = false) :
    fadd (fmul x y) z = fmaContract x y z := by
  by_cases hnan : (isNan x || isNan y || isNan z) = true
  · rw [fmaContract_of_isNan hnan]
    rw [Bool.or_eq_true, Bool.or_eq_true] at hnan
    obtain hxy | hz := hnan
    · exact fadd_of_isNan (.inl (by rw [fmul_of_isNan hxy, isNan_qnan]))
    · exact fadd_of_isNan (.inr hz)
  simp only [Bool.or_eq_true, not_or, Bool.not_eq_true] at hnan
  obtain ⟨⟨hxn, hyn⟩, hzn⟩ := hnan
  have hno : ¬ (isNan x = true ∨ isNan y = true) := by simp [hxn, hyn]
  by_cases hinf : isInf x = true ∨ isInf y = true
  · by_cases h0 : isZero x = true ∨ isZero y = true
    · rw [fmaContract_of_invalid hxn hyn hzn hinf h0, fmul_eq, if_neg hno, if_pos hinf, if_pos h0]
      exact fadd_of_isNan (.inl isNan_qnan)
    · have h0' := h0
      simp only [not_or, Bool.not_eq_true] at h0'
      rw [fmaContract_of_infinite_product hxn hyn hzn hinf h0'.1 h0'.2, fmul_eq, if_neg hno, if_pos hinf, if_neg h0,
        fadd_eq, if_neg (by simp [hzn]), if_pos (isInf_inf _), sign_inf]
  · have hinf' := hinf
    simp only [not_or, Bool.not_eq_true] at hinf'
    have hx : isFinite x = true := by simp [isFinite_eq, hxn, hinf'.1]
    have hy : isFinite y = true := by simp [isFinite_eq, hyn, hinf'.2]
    have h0 : isZero x = true ∨ isZero y = true := by simpa [hx, hy] using h
    have hval : val x * val y = 0 := by rw [mul_eq_zero, val_eq_zero_iff, val_eq_zero_iff]; exact h0
    rw [fmaContract_of_zero_product hx hy hzn h0, fmul_eq, if_neg hno, if_neg hinf, if_pos hval,
      fadd_zero_left_eq _ hzn]

/-- Without an addend the rounded product is the contract's result (rule R161 (b)). -/
theorem fmul_eq_fmaContract {x y z : Word} (hx0 : isZero x = false) (hy0 : isZero y = false) (hz0 : isZero z = true) :
    fmul x y = fmaContract x y z := by
  have hzf := isFinite_of_isZero hz0
  have hzn := isNan_of_isFinite hzf
  by_cases hnan : isNan x = true ∨ isNan y = true
  · rw [fmul_of_isNan hnan, fmaContract_of_isNan (by simp [hnan])]
  have hnan' := hnan
  simp only [not_or, Bool.not_eq_true] at hnan'
  by_cases hinf : isInf x = true ∨ isInf y = true
  · rw [fmaContract_of_infinite_product hnan'.1 hnan'.2 hzn hinf hx0 hy0, if_neg (by simp [isInf_of_isFinite hzf]),
      fmul_eq, if_neg hnan, if_pos hinf, if_neg (by simp [hx0, hy0])]
  · simp only [not_or, Bool.not_eq_true] at hinf
    have hx : isFinite x = true := by simp [isFinite_eq, hnan'.1, hinf.1]
    have hy : isFinite y = true := by simp [isFinite_eq, hnan'.2, hinf.2]
    have hexact : exactValue x y z = val x * val y := by rw [exactValue, (val_eq_zero_iff z).mpr hz0, add_zero]
    have hne : val x * val y ≠ 0 := mul_ne_zero (val_ne_zero hx0) (val_ne_zero hy0)
    rw [fmul_eq_roundRNE hx hy hne, ← hexact]
    exact (fmaContract_of_exact_ne_zero (specialRow_eq_none_iff.mpr ⟨hx, hy, hzf, hx0, hy0⟩) (by rwa [hexact])).symm

/-- An addend that is not finite, with finite nonzero multiplicands (rule R161 (d)). -/
theorem fmaContract_of_infinite_addend {x y z : Word} (hx : isFinite x = true) (hy : isFinite y = true)
    (hx0 : isZero x = false) (hy0 : isZero y = false) (hz : isFinite z = false) :
    fmaContract x y z = if isNan z = true then qnan else z := by
  split_ifs with hn
  · exact fmaContract_of_isNan (by simp [hn])
  · have hinf : isInf z = true := by simpa [isFinite_eq, hn] using hz
    exact fmaContract_of_some (by simp [specialRow, isNan_of_isFinite, isInf_of_isFinite, hx, hy, hx0, hy0, hn, hinf])

/-! ### Unpacked operands (rule R162) -/

/-- A significand `c` and an exponent `e` that stand for a nonzero operand. -/
structure IsUnpacked (b : Word) (c : ℚ) (e : ℤ) : Prop where
  hasVal : HasVal (ddFrexp b).1 c
  eq : val b = c * 2 ^ e
  ge : 1 / 2 ≤ |c|
  lt : |c| < 1
  exponent_le : e ≤ 1024

theorem isUnpacked_ddFrexp {b : Word} (hfin : isFinite b = true) (h0 : isZero b = false) :
    IsUnpacked b (val (ddFrexp b).1) (ddFrexp b).2 := by
  obtain ⟨hval, hsfin, -, hge, hlt, -, hle⟩ := frexpIsExact b hfin h0
  exact ⟨⟨hsfin, rfl⟩, hval, hge, hlt, hle⟩

namespace IsUnpacked

variable {b : Word} {c : ℚ} {e : ℤ} (h : IsUnpacked b c e)

include h

theorem ne_zero : c ≠ 0 := abs_pos.mp (one_half_pos.trans_le h.ge)

theorem onGrid : OnGrid (-53) c := h.hasVal.representable.onGrid_of_le (h.ge.trans_eq' (by norm_num))

theorem abs_val : |val b| = |c| * 2 ^ e := by rw [h.eq, abs_mul, abs_of_pos (two_zpow_pos e)]

theorem le_abs_val : (2 : ℚ) ^ (e - 1) ≤ |val b| := by
  rw [h.abs_val, sub_eq_add_neg, two_zpow_add, mul_comm, zpow_neg_one, ← one_div]
  exact mul_le_mul_of_nonneg_right h.ge (two_zpow_pos e).le

theorem abs_val_lt : |val b| < (2 : ℚ) ^ e := by
  rw [h.abs_val]
  exact mul_lt_of_lt_one_left (two_zpow_pos e) h.lt

end IsUnpacked

/-- The exact value in units of the product's scale. -/
theorem exactValue_eq_unpacked {x y z : Word} {cx cy cz : ℚ} {ex ey ez : ℤ} (hx : IsUnpacked x cx ex)
    (hy : IsUnpacked y cy ey) (hz : IsUnpacked z cz ez) :
    exactValue x y z = (cx * cy + cz * 2 ^ (-(ex + ey - ez))) * 2 ^ (ex + ey) := by
  have hscale : (2 : ℚ) ^ ez = 2 ^ (-(ex + ey - ez)) * 2 ^ (ex + ey) := by rw [← two_zpow_add]; congr 1; ring
  rw [exactValue, hx.eq, hy.eq, hz.eq, hscale, two_zpow_add ex ey]
  ring

theorem abs_product_lt {x y : Word} {cx cy : ℚ} {ex ey : ℤ} (hx : IsUnpacked x cx ex) (hy : IsUnpacked y cy ey) :
    |val x * val y| < (2 : ℚ) ^ (ex + ey) := by
  rw [abs_mul, two_zpow_add]
  exact mul_lt_mul'' hx.abs_val_lt hy.abs_val_lt (abs_nonneg _) (abs_nonneg _)

/-! ### A product far below the addend (rule R164) -/

/-- Less than a quarter unit away from a number of 53 bits the rounding gives that number. -/
theorem rnd_eq_of_near {k : ℤ} {c w : ℚ} (hc : Representable c) (hlo : (2 : ℚ) ^ k ≤ |c|)
    (hnear : |w - c| < (2 : ℚ) ^ (k - 54)) : rnd w = c := by
  have hw : (2 : ℚ) ^ (k - 53 + 52) ≤ |w| := by
    have htri := abs_sub_abs_le_abs_sub c w
    rw [abs_sub_comm] at htri
    have hle : (2 : ℚ) ^ (k - 54) ≤ 2 ^ (k - 1) := two_zpow_le (by omega)
    have hbin : (2 : ℚ) ^ (k - 1) + 2 ^ (k - 1) ≤ |c| := by rwa [← mul_two, ← two_zpow_succ, sub_add_cancel]
    rw [show k - 53 + 52 = k - 1 by ring]
    exact le_of_add_le_add_left
      (hbin.trans ((sub_le_iff_le_add.mp htri).trans (add_le_add_left (hnear.le.trans hle) _)))
  have hgrid : OnGrid (k - 53) (rnd w - c) :=
    (onGrid_rnd_of_le hw).sub (hc.onGrid_of_le ((two_zpow_le (by omega)).trans hlo))
  have hlt : |rnd w - c| < (2 : ℚ) ^ (k - 53) := by
    rw [show k - 53 = k - 54 + 1 by ring, two_zpow_succ, mul_comm]
    exact (abs_rnd_sub_le hc).trans_lt (mul_lt_mul_of_pos_left hnear two_pos)
  exact sub_eq_zero.mp (hgrid.eq_zero_of_abs_lt hlt)

/-- The rounding then gives the addend's own pattern. -/
theorem roundRNE_eq_of_near {z : Word} {cz w : ℚ} {ez : ℤ} (hz : IsUnpacked z cz ez) (hfin : isFinite z = true)
    (hnear : |w - val z| < (2 : ℚ) ^ (ez - 55)) : w ≠ 0 ∧ roundRNE w = z := by
  have hrnd : rnd w = val z :=
    rnd_eq_of_near (representable_val z) hz.le_abs_val (hnear.trans_eq (by congr 1; ring))
  have hz0 : val z ≠ 0 := abs_pos.mp ((two_zpow_pos _).trans_le hz.le_abs_val)
  have hw : w ≠ 0 := fun h0 => hz0 (by rw [← hrnd, h0, rnd_zero])
  have hbound : |rnd w| < 2 ^ 1024 := by
    rw [hrnd]
    refine (hz.abs_val_lt.trans_le (two_zpow_le hz.exponent_le)).trans_eq ?_
    rw [← zpow_natCast]
    rfl
  have hval := hasVal_roundRNE_of_lt hw hbound
  rw [hrnd] at hval
  exact ⟨hw, (hval.eq_roundRNE hz0).trans (HasVal.eq_roundRNE ⟨hfin, rfl⟩ hz0).symm⟩

/-- A product far below the addend cannot move its rounding (rule R164). -/
theorem far_addend {x y z : Word} {cx cy cz : ℚ} {ex ey ez : ℤ} (hx : IsUnpacked x cx ex) (hy : IsUnpacked y cy ey)
    (hz : IsUnpacked z cz ez) (hfin : isFinite z = true) (hspread : ex + ey - ez ≤ -55) :
    exactValue x y z ≠ 0 ∧ roundRNE (exactValue x y z) = z := by
  refine roundRNE_eq_of_near hz hfin ?_
  rw [exactValue, add_sub_cancel_right]
  exact (abs_product_lt hx hy).trans_le (two_zpow_le (by omega))

/-! ### The addend rescaled or clamped (rule R165) -/

theorem abs_rescaled {c : ℚ} {k : ℤ} (hc : |c| < 1) : |c * 2 ^ k| < (2 : ℚ) ^ k := by
  rw [abs_mul, abs_of_pos (two_zpow_pos k)]
  exact mul_lt_of_lt_one_left (two_zpow_pos k) hc

theorem isAddend_rescaled {c : ℚ} {k : ℤ} (hc : OnGrid (-53) c) (hlt : |c| < 1) (hk : k ≤ 54) :
    IsAddend (c * 2 ^ k) := by
  have habs := abs_rescaled (k := k) hlt
  refine ⟨habs.le.trans (two_zpow_le hk), ?_⟩
  obtain hle | hgt := le_or_gt k (-4)
  · exact .inl ((habs.le.trans (two_zpow_le hle)).trans_eq (by norm_num [zpow_neg]))
  · exact .inr ((hc.scale k).mono (by omega))

/-- Within the safe range of spreads the addend is rescaled exactly. -/
theorem hasVal_ddScale {b : Word} {c : ℚ} {k : ℤ} (hb : HasVal b c) (hc : OnGrid (-53) c) (hne : c ≠ 0) (hlt : |c| < 1)
    (hk : k ≤ 54) (hk' : -106 ≤ k) : HasVal (ddScale b k) (c * 2 ^ k) := by
  have habs := abs_rescaled (k := k) hlt
  have hv : c * (2 : ℚ) ^ k ≠ 0 := mul_ne_zero hne (two_zpow_pos k).ne'
  obtain ⟨hsafe, hrep⟩ := (hc.scale k).exact habs.le (by omega) (by omega) (by omega)
  have := hasVal_roundRNE hv hsafe
  rw [rnd_of_representable hrep] at this
  rwa [ddScale_eq_roundRNE k hb.1 (hb.isZero_eq_false hne), hb.2]

theorem hasVal_clamp (s : Bool) :
    HasVal (pattern s (expf dblMin) (frac dblMin)) (signQ s * (2 : ℚ) ^ (-1022 : ℤ)) := by
  have he : expf dblMin = 1#11 := by decide
  have hf : frac dblMin = 0#52 := by decide
  refine ⟨by simp [isFinite, he], ?_⟩
  rw [val_of_fields (sign_pattern ..) (expf_pattern ..) (frac_pattern ..) (by decide), he, hf, mul_assoc]
  congr 1
  rw [show (-1022 : ℤ) = 52 + ((1#11).toNat - 1075) by decide, two_zpow_add]
  norm_num

/-- A clamped addend stands for one that is nonzero, of its sign and below every bit of the product. -/
theorem sameCell_clamp {p z : ℚ} (hp : OnGrid (-106) p) (hz : z ≠ 0) (hlt : |z| < (2 : ℚ) ^ (-106 : ℤ)) :
    SameCell (-106) (p + signQ (decide (z < 0)) * 2 ^ (-1022 : ℤ)) (p + z) := by
  have hcell : SameCell (-106) ((2 : ℚ) ^ (-1022 : ℤ)) |z| :=
    sameCell_of_mem_Ioo (onGrid_zero _) (two_zpow_pos _) (by rw [zero_add]; exact two_zpow_lt (by norm_num))
      (abs_pos.mpr hz) (by rwa [zero_add])
  have := (hcell.signQ_mul (decide (z < 0))).add hp
  rwa [signQ_mul_abs rfl] at this

/-! ### The path and the contract (rule R150) -/

/-- The significands with the addend rescaled, within the safe range of spreads. -/
theorem ddCombine_rescaled {x y z : Word} {cx cy cz : ℚ} {ex ey ez : ℤ} (hx : IsUnpacked x cx ex)
    (hy : IsUnpacked y cy ey) (hz : IsUnpacked z cz ez) (hlow : -54 ≤ ex + ey - ez) (hhigh : ex + ey - ez ≤ 106) :
    ddCombine (ddFrexp x).1 (ddFrexp y).1 (ddScale (ddFrexp z).1 (-(ex + ey - ez))) (ex + ey) =
      if exactValue x y z = 0 then zero false else roundRNE (exactValue x y z) := by
  rw [ddCombine_eq _ hx.hasVal hx.ge hx.lt hy.hasVal hy.ge hy.lt
    (hasVal_ddScale hz.hasVal hz.onGrid hz.ne_zero hz.lt (by omega) (by omega))
    (isAddend_rescaled hz.onGrid hz.lt (by omega)),
    exactValue_eq_unpacked hx hy hz]
  simp only [mul_eq_zero, (two_zpow_pos _).ne', or_false]

/-- The arithmetic with the clamped addend in place of a tiny one: nothing cancels, and the rounding is the same. -/
theorem ddCombine_clamp {xs ys : Word} {c d z : ℚ} (scale : ℤ) (hx : HasVal xs c) (hc : 1 / 2 ≤ |c|) (hc' : |c| < 1)
    (hy : HasVal ys d) (hd : 1 / 2 ≤ |d|) (hd' : |d| < 1) (hp : OnGrid (-106) (c * d)) (hz : z ≠ 0)
    (hlt : |z| < (2 : ℚ) ^ (-106 : ℤ)) :
    c * d + z ≠ 0 ∧
      ddCombine xs ys (pattern (decide (z < 0)) (expf dblMin) (frac dblMin)) scale =
        roundRNE ((c * d + z) * 2 ^ scale) := by
  have hprod := quarter_le_abs_mul hc hd
  have hcell := sameCell_clamp hp hz hlt
  have hclamp : IsAddend (signQ (decide (z < 0)) * (2 : ℚ) ^ (-1022 : ℤ)) := by
    have habs : |signQ (decide (z < 0)) * (2 : ℚ) ^ (-1022 : ℤ)| = 2 ^ (-1022 : ℤ) := by
      rw [abs_mul, abs_signQ, one_mul, abs_of_pos (two_zpow_pos _)]
    refine ⟨habs.trans_le (two_zpow_le (by norm_num)), .inl (habs.trans_le ?_)⟩
    exact (two_zpow_le (show (-1022 : ℤ) ≤ -4 by norm_num)).trans_eq (by norm_num [zpow_neg])
  have hlarge : (2 : ℚ) ^ (-3 : ℤ) ≤ |c * d + z| := by
    have htri := abs_sub (c * d + z) z
    rw [add_sub_cancel_right] at htri
    have hle : |z| ≤ (2 : ℚ) ^ (-3 : ℤ) := hlt.le.trans (two_zpow_le (by norm_num))
    have hquarter : (2 : ℚ) ^ (-3 : ℤ) + 2 ^ (-3 : ℤ) ≤ |c * d| := hprod.trans' (by norm_num [zpow_neg])
    exact le_of_add_le_add_right (hquarter.trans (htri.trans (add_le_add_right hle _)))
  have hne : c * d + z ≠ 0 := abs_pos.mp ((two_zpow_pos _).trans_le hlarge)
  rw [ddCombine_eq _ hx hc hc' hy hd hd' (hasVal_clamp _) hclamp, if_neg (mt (hcell.eq_iff (onGrid_zero _)).mp hne)]
  exact ⟨hne, (roundRNE_scale_congr _ hcell.symm hlarge (by norm_num)).symm⟩

/-- The significands with the addend clamped, beyond the safe range. -/
theorem ddCombine_clamped {x y z : Word} {cx cy cz : ℚ} {ex ey ez : ℤ} (hx : IsUnpacked x cx ex)
    (hy : IsUnpacked y cy ey) (hz : IsUnpacked z cz ez) (hspread : 106 < ex + ey - ez) :
    ddCombine (ddFrexp x).1 (ddFrexp y).1 (pattern (sign (ddFrexp z).1) (expf dblMin) (frac dblMin)) (ex + ey) =
      if exactValue x y z = 0 then zero false else roundRNE (exactValue x y z) := by
  have hpos := two_zpow_pos (-(ex + ey - ez))
  have hsign : sign (ddFrexp z).1 = decide (cz * 2 ^ (-(ex + ey - ez)) < 0) := by
    have := val_lt_zero_iff (hz.hasVal.isZero_eq_false hz.ne_zero)
    rw [hz.hasVal.2] at this
    rw [Bool.eq_iff_iff, ← this, decide_eq_true_iff, mul_neg_iff]
    simp only [hpos, hpos.not_gt, and_false, and_true, false_or]
  obtain ⟨hne, hround⟩ := ddCombine_clamp (ex + ey) hx.hasVal hx.ge hx.lt hy.hasVal hy.ge hy.lt
    (hx.onGrid.mul hy.onGrid) (mul_ne_zero hz.ne_zero hpos.ne') ((abs_rescaled hz.lt).trans_le (two_zpow_le (by omega)))
  rw [hsign, hround, exactValue_eq_unpacked hx hy hz, if_neg (mul_ne_zero hne (two_zpow_pos _).ne')]

/-- The arithmetic on the unpacked operands rounds the exact value once, whatever the spread (rules R165 to R170). -/
theorem ddCombine_ddRescaleZ {x y z : Word} {cx cy cz : ℚ} {ex ey ez : ℤ} (hx : IsUnpacked x cx ex)
    (hy : IsUnpacked y cy ey) (hz : IsUnpacked z cz ez) (hlow : -54 ≤ ex + ey - ez) :
    ddCombine (ddFrexp x).1 (ddFrexp y).1 (ddRescaleZ (ddFrexp z).1 (ex + ey - ez)) (ex + ey) =
      if exactValue x y z = 0 then zero false else roundRNE (exactValue x y z) := by
  by_cases hhigh : ex + ey - ez ≤ 106
  · rw [ddRescaleZ, if_pos (by rwa [tHigh])]
    exact ddCombine_rescaled hx hy hz hlow hhigh
  · rw [ddRescaleZ, if_neg (by rwa [tHigh])]
    exact ddCombine_clamped hx hy hz (not_le.mp hhigh)

/-- The double-double path computes the contract. -/
theorem fmaExtended_eq_fmaContract (x y z : Word) : fmaExtended x y z = fmaContract x y z := by
  unfold fmaExtended
  dsimp only
  split_ifs with hzero hz0 hxy hz hn hspread
  · rw [Bool.or_eq_true] at hzero
    exact fadd_fmul_eq_fmaContract (by tauto)
  · rw [Bool.or_eq_true, not_or, Bool.not_eq_true, Bool.not_eq_true] at hzero
    exact fmul_eq_fmaContract hzero.1 hzero.2 hz0
  · simp only [Bool.or_eq_true, Bool.not_eq_true'] at hxy
    exact fadd_fmul_eq_fmaContract (.inr (.inr hxy))
  all_goals
    simp only [Bool.or_eq_true, not_or, Bool.not_eq_true, Bool.not_eq_true', Bool.not_eq_false] at hzero hxy hz0 hz
    obtain ⟨hx0, hy0⟩ := hzero
    obtain ⟨hx, hy⟩ := hxy
  · rw [fmaContract_of_infinite_addend hx hy hx0 hy0 hz, if_pos hn]
  · rw [fmaContract_of_infinite_addend hx hy hx0 hy0 hz, if_neg hn]
  all_goals
    have hux := isUnpacked_ddFrexp hx hx0
    have huy := isUnpacked_ddFrexp hy hy0
    have huz := isUnpacked_ddFrexp hz hz0
    rw [fmaContract_of_none (specialRow_eq_none_iff.mpr ⟨hx, hy, hz, hx0, hy0⟩)]
    rw [tLow] at hspread
  · obtain ⟨hne, hround⟩ := far_addend hux huy huz hz (by omega)
    rw [if_neg hne, hround]
  · exact ddCombine_ddRescaleZ hux huy huz (by omega)

/-! ### The obligations -/

theorem exec_fmaDd (x y z : Word) (s : State) : exec (.fmaDd x y z) s = .next (s.complete (fmaExtended x y z)) := rfl

/-- Settles O23: the error-free transformations keep the exact value, the low components are rounded to odd, and the
last fold rounds once at the precision the scaling leaves. -/
theorem doubleDoublePathMeetsTheContract : Obligations.DoubleDoublePathMeetsTheContract := by
  intro x y z s
  rw [exec_fmaDd, fmaExtended_eq_fmaContract]
  rfl

/-- The operands of rule R164's example: `0.75`, `1.5 × 2^(-54)` and `-1`. -/
theorem exactValue_spread_example : exactValue 0x3FE8000000000000#64 0x3C98000000000000#64 0xBFF0000000000000#64
    = (9 - 2 ^ 57 : ℤ) * (2 : ℚ) ^ (-57 : ℤ) := by
  rw [exactValue,
    val_of_fields (s := false) (e := 0x3FE#11) (f := 0x8000000000000#52) (by decide) (by decide) (by decide)
      (by decide),
    val_of_fields (s := false) (e := 0x3C9#11) (f := 0x8000000000000#52) (by decide) (by decide) (by decide)
      (by decide),
    val_of_fields (s := true) (e := 0x3FF#11) (f := 0#52) (by decide) (by decide) (by decide) (by decide)]
  norm_num [signQ, zpow_neg]

theorem fmaContract_spread_example :
    fmaContract 0x3FE8000000000000#64 0x3C98000000000000#64 0xBFF0000000000000#64 = 0xBFEFFFFFFFFFFFFF#64 := by
  rw [fmaContract_of_exact_ne_zero (by decide) (by norm_num [exactValue_spread_example]), exactValue_spread_example,
    ← roundScaled_eq_roundRNE (by norm_num)]
  decide

/-- Settles O60: less than a quarter unit away from the addend the exact value rounds to it. -/
theorem farAddendIsReturned : Obligations.FarAddendIsReturned := by
  refine ⟨fun x y z s hx hx0 hy hy0 hz hz0 hspread => ?_, by decide, fun s => ?_⟩
  · have hux := isUnpacked_ddFrexp hx hx0
    have huy := isUnpacked_ddFrexp hy hy0
    obtain ⟨hne, hround⟩ := far_addend hux huy (isUnpacked_ddFrexp hz hz0) hz hspread
    refine ⟨abs_product_lt hux huy, ?_, hround⟩
    rw [exec_fmaDd, fmaExtended_eq_fmaContract,
      fmaContract_of_exact_ne_zero (specialRow_eq_none_iff.mpr ⟨hx, hy, hz, hx0, hy0⟩) hne, hround]
    rfl
  · rw [exec_fmaDd, fmaExtended_eq_fmaContract, fmaContract_spread_example]
    rfl

end Sys2Proof.Machine
end
